-- ==== Sys2Proof/Word.lean ====
section
/-! DEFINITION. The words of the block and the two shapes its state comes in: a pair of channels and a triple of
filter phases (00_scope.md R6: `SAMPLE_W = 32`, `ACC_W = 64`, `NCH = 2`, `N_RATIO = 3`). -/

namespace Sys2Proof

/-- A register of the window, a command word, a sample (R8, R130). -/
abbrev Word := BitVec 32

/-- An accumulator, a partial sum, a register of the loop filter (`ACC_W = 64`, R6). -/
abbrev Acc := BitVec 64

/-- The two channels of the block (R6 `NCH = 2`). -/
inductive Chan where
  | c0
  | c1
  deriving DecidableEq, Repr, Inhabited

/-- One value per channel: channel 0 and channel 1 (R134). -/
structure Lanes (α : Type) where
  ch0 : α
  ch1 : α
  deriving DecidableEq, Repr, Inhabited

/-- The value of channel `c`. -/
def Lanes.get {α : Type} (l : Lanes α) : Chan → α
  | .c0 => l.ch0
  | .c1 => l.ch1

/-- The same operation on both channels: no value of one enters the other's (R134). -/
def Lanes.map {α β : Type} (f : α → β) (l : Lanes α) : Lanes β := ⟨f l.ch0, f l.ch1⟩

/-- One value per filter phase 0, 1, 2 (R137 `N = 3`). -/
structure Phases (α : Type) where
  p0 : α
  p1 : α
  p2 : α
  deriving DecidableEq, Repr, Inhabited

end Sys2Proof
end

