-- ==== Sys2Proof/Config.lean ====
section
/-! DEFINITION. What an instance of the block fixes (00_scope.md R6): the parameter record, its constraints, the opaque
record of the actual instance, and the two configuration records that 40_src_common.md and 43_pll.md ask for (the filter's
arithmetic and the loop filter). -/

namespace Sys2Proof

/-- `NCH`: channels driven per call (R6). -/
def nch : Nat := 2

/-- `QSHIFT`: right shift from accumulator to sample (R6, R132). -/
def qShift : Nat := 31

/-- The parameter record of R6. `N_RATIO`, `SAMPLE_W`, `NCH`, `ACC_W` and `QSHIFT` have the values the spec fixes and are
no fields; `LUT_LEN` is the length of `lut`; `pllCadence` and `ppmRange` are read by no rule of the block (R6, R192). -/
structure Params where
  /-- `T`: taps per filter phase, the length of every ring. -/
  t : Nat := 1
  /-- `COEF[p][j]`, one list of `T` words per filter phase. -/
  coef : Phases (List Word) := ⟨[0], [0], [0]⟩
  frameCount : Nat := 1
  xtFrameBytes : Nat := 1
  pllEn : Bool := true
  cntW : Nat := 32
  ratioNum : Nat := 1
  ratioDen : Nat := 1
  ppmRange : Rat := 1
  /-- `LUT[i] = (DIV_i, FRAC_i)`. -/
  lut : List (Word × Word) := [(0, 0), (0, 0), (0, 0)]
  kp : Nat := 0
  ki : Nat := 0
  gainShift : Nat := 0
  integMax : Nat := 0
  lockWindow : Nat := 0
  lockCount : Nat := 1
  pllCadence : Nat := 1
  base : Nat := 0
  deriving DecidableEq, Repr, Inhabited

/-- `LUT_LEN` (R6). -/
def Params.lutLen (p : Params) : Nat := p.lut.length

/-- `SEL_NOM = (LUT_LEN - 1) / 2`, the nominal entry (R6, R194). -/
def Params.selNom (p : Params) : Nat := (p.lutLen - 1) / 2

/-- The default of `INTEG_MAX` (R195). -/
def Params.integMaxDefault (p : Params) : Nat := if p.ki = 0 then 0 else (p.selNom + 1) * 2 ^ p.gainShift / p.ki

/-- The deviation of table entry `i` in parts per million (R194); no rule of the block reads it. -/
def Params.ppmAt (p : Params) (i : Nat) : Rat :=
  -p.ppmRange + (i : Rat) * 2 * p.ppmRange / ((p.lutLen : Rat) - 1)

/-- The constraints of R6 on the tables: `COEF` is `3 x T` with `T >= 1`, `LUT_LEN` odd and `3 <= LUT_LEN < 2^16`. -/
abbrev Params.TablesLegal (p : Params) : Prop :=
  1 ≤ p.t ∧ p.coef.p0.length = p.t ∧ p.coef.p1.length = p.t ∧ p.coef.p2.length = p.t ∧
  p.lutLen % 2 = 1 ∧ 3 ≤ p.lutLen ∧ p.lutLen < 2 ^ 16

/-- The constraints of R6 on the numbers. -/
abbrev Params.NumbersLegal (p : Params) : Prop :=
  (1 ≤ p.frameCount ∧ p.frameCount ≤ 65535) ∧ (1 ≤ p.xtFrameBytes ∧ p.xtFrameBytes < 2 ^ 24) ∧
  (1 ≤ p.cntW ∧ p.cntW ≤ 32) ∧ (1 ≤ p.ratioNum ∧ p.ratioNum < 2 ^ 16) ∧ (1 ≤ p.ratioDen ∧ p.ratioDen < 2 ^ 16) ∧
  0 < p.ppmRange ∧ p.kp < 2 ^ 15 ∧ p.ki < 2 ^ 15 ∧ p.gainShift ≤ 31 ∧ p.integMax < 2 ^ 47 ∧ p.lockWindow < 2 ^ 47 ∧
  (1 ≤ p.lockCount ∧ p.lockCount < 2 ^ 16) ∧ 1 ≤ p.pllCadence ∧ p.base % 256 = 0

/-- Every constraint R6 states. -/
abbrev Params.Legal (p : Params) : Prop := p.TablesLegal ∧ p.NumbersLegal

/-- An instance of the block: a parameter record that R6 admits. -/
structure Cfg where
  par : Params := {}
  legal : par.Legal := by decide
  deriving DecidableEq, Repr, Inhabited

/-- The parameters of the instance at hand: OPEN in the source (R6, 93_implementation_defined.md I15), so a constant with
no body, of which nothing is known but that R6 admits it. DESIGN CHOICE, log entry 2 (safe). -/
opaque Cfg.actual : Cfg

/-- The arithmetic of the filter as a configuration record (40_src_common.md, before R130): `Fir`, `FirOut`, `Push`. The
spec's default bodies are `Sys2Proof.Machine.srcArith`. -/
structure SrcArith where
  /-- `Fir` of the coefficients of one filter phase and a ring. -/
  fir : List Word → List Word → Acc
  firOut : Acc → Word
  /-- `Push` of a sample into a ring of `T` entries. -/
  push : Nat → List Word → Word → List Word

/-- The loop filter as a configuration record (43_pll.md, before R190): the new integral accumulator and the selector.
The spec's default bodies are `Sys2Proof.Machine.piFilter`. -/
structure LoopFilter where
  /-- The next `INTEG` from the present one and the phase error `e`. -/
  integ : Params → Int → Int → Int
  /-- The selector from `e` and the next `INTEG`. -/
  sel : Params → Int → Int → Int

end Sys2Proof
end

