-- ==== Sys2Proof/Syntax.lean ====
section
/-! DEFINITION. The eight commands of `SRC3PLL-1` (00_scope.md R3, 30_encoding.md R107), one constructor per row of the
opcode table, and the pseudo-commands of R112. Operands are unsigned numbers used as they stand (R103); which of them an
assembler accepts (R111) is `Instr.WellFormed`. -/

namespace Sys2Proof

/-- A command. -/
inductive Instr where
  /-- `SRC.INIT` (R136). -/
  | srcInit
  /-- `SRC.UP a`: `a = 1` says an input sample is available (R104, R152). -/
  | srcUp (a : Nat)
  /-- `SRC.DOWN s`: `s = 1` says output space is available (R104, R172). -/
  | srcDown (s : Nat)
  /-- `PLL.INIT` (R199). -/
  | pllInit
  /-- `PLL.STEP` (R202). -/
  | pllStep
  /-- `XFER.CHK ch, len` (R231). -/
  | xferChk (ch len : Nat)
  /-- `XT.CHK bytes` (R234). -/
  | xtChk (bytes : Nat)
  /-- `HALT cause` (R237). -/
  | halt (cause : Nat)
  deriving DecidableEq, Repr, Inhabited

/-- The mnemonic, as the opcode table spells it (R107). -/
def Instr.mnemonic : Instr → String
  | .srcInit => "SRC.INIT"
  | .srcUp _ => "SRC.UP"
  | .srcDown _ => "SRC.DOWN"
  | .pllInit => "PLL.INIT"
  | .pllStep => "PLL.STEP"
  | .xferChk _ _ => "XFER.CHK"
  | .xtChk _ => "XT.CHK"
  | .halt _ => "HALT"

/-- The operation code `OPC` (R102, R107). -/
def Instr.opc : Instr → Nat
  | .srcInit => 0x1
  | .srcUp _ => 0x2
  | .srcDown _ => 0x3
  | .pllInit => 0x4
  | .pllStep => 0x5
  | .xferChk _ _ => 0x6
  | .xtChk _ => 0x7
  | .halt _ => 0x8

/-- The pseudo-commands of R112. -/
inductive Pseudo where
  | srcUpStarve
  | srcDownDrop
  | srcUp3 (a : Nat)
  | assertAlloc
  deriving DecidableEq, Repr

/-- What a pseudo-command stands for (R112). -/
def Pseudo.expand : Pseudo → List Instr
  | .srcUpStarve => [.srcUp 0]
  | .srcDownDrop => [.srcDown 0]
  | .srcUp3 a => [.srcUp a, .srcUp 0, .srcUp 0]
  | .assertAlloc => [.halt 3]

end Sys2Proof
end

