-- ==== Sys2Proof/WellFormed.lean ====
section
/-! DEFINITION. Which commands are words: the operand ranges of R111 ("an operand outside its range is an assembly error,
not a word"), which are the unsigned ranges of the fields (R103). -/

namespace Sys2Proof

/-- The operands are in the ranges R111 gives. -/
def Instr.wellFormed : Instr → Bool
  | .srcInit => true
  | .srcUp a => decide (a ≤ 1)
  | .srcDown s => decide (s ≤ 1)
  | .pllInit => true
  | .pllStep => true
  | .xferChk ch len => decide (ch ≤ 15 ∧ len ≤ 65535)
  | .xtChk bytes => decide (bytes < 2 ^ 24)
  | .halt cause => decide (cause ≤ 15)

/-- The command is a word (R111). -/
abbrev Instr.WellFormed (i : Instr) : Prop := i.wellFormed = true

end Sys2Proof
end

