-- ==== Sys2Proof/Decode.lean ====
section
/-! DEFINITION. The command decoder and encoder (30_encoding.md R100 to R111): a 32-bit word is one of the eight commands
with its operand values, or illegal for a named reason (R109, R110). -/

namespace Sys2Proof

/-- Why a word is illegal (R109). -/
inductive DecodeError where
  /-- `OPC` is 0x0 or 0x9 to 0xF. -/
  | reservedOpcode (opc : Nat)
  /-- A legal `OPC` with a 1 in a bit its format marks `0`. -/
  | reservedBits (opc : Nat)
  deriving DecidableEq, Repr

/-- `w[hi:lo]`, read as an unsigned number (R8, R103). -/
def field (w : Word) (hi lo : Nat) : Nat := w.toNat / 2 ^ lo % 2 ^ (hi + 1 - lo)

/-- A command whose format marks the bits `w[hi:lo]` with `0` (R102, R109). -/
def whenZero (w : Word) (hi lo : Nat) (i : Instr) : Except DecodeError Instr :=
  if field w hi lo = 0 then .ok i else .error (.reservedBits (field w 31 28))

/-- Decoding reads nothing but the word (R100): the operation code, the bits that must be 0 (R102), the fields (R103). -/
def decode (w : Word) : Except DecodeError Instr :=
  match field w 31 28 with
  | 0x1 => whenZero w 27 0 .srcInit
  | 0x2 => whenZero w 27 1 (.srcUp (field w 0 0))
  | 0x3 => whenZero w 27 1 (.srcDown (field w 0 0))
  | 0x4 => whenZero w 27 0 .pllInit
  | 0x5 => whenZero w 27 0 .pllStep
  | 0x6 => whenZero w 27 20 (.xferChk (field w 19 16) (field w 15 0))
  | 0x7 => whenZero w 27 24 (.xtChk (field w 23 0))
  | 0x8 => whenZero w 27 4 (.halt (field w 3 0))
  | opc => .error (.reservedOpcode opc)

/-- The word of a command (R111), as a number. -/
def encodeNat : Instr → Nat
  | .srcInit => 0x10000000
  | .srcUp a => 0x20000000 + a
  | .srcDown s => 0x30000000 + s
  | .pllInit => 0x40000000
  | .pllStep => 0x50000000
  | .xferChk ch len => 0x60000000 + ch * 0x10000 + len
  | .xtChk bytes => 0x70000000 + bytes
  | .halt cause => 0x80000000 + cause

/-- The word of a command (R111). -/
def encode (i : Instr) : Word := BitVec.ofNat 32 (encodeNat i)

/-- A row of the opcode table: a word selects it with `w AND mask = match` (R107). -/
structure OpcodeRow where
  mnemonic : String
  pattern : Word
  mask : Word
  deriving DecidableEq, Repr

/-- The opcode table of R107, in its order. The decoder above is written from the formats R102; that the two agree is a
claim, not a definition. -/
def opcodeTable : List OpcodeRow :=
  [⟨"SRC.INIT", 0x10000000, 0xFFFFFFFF⟩, ⟨"SRC.UP", 0x20000000, 0xFFFFFFFE⟩, ⟨"SRC.DOWN", 0x30000000, 0xFFFFFFFE⟩,
   ⟨"PLL.INIT", 0x40000000, 0xFFFFFFFF⟩, ⟨"PLL.STEP", 0x50000000, 0xFFFFFFFF⟩, ⟨"XFER.CHK", 0x60000000, 0xFFF00000⟩,
   ⟨"XT.CHK", 0x70000000, 0xFF000000⟩, ⟨"HALT", 0x80000000, 0xFFFFFFF0⟩]

/-- A word selects a row of the table (R107). -/
def OpcodeRow.selects (r : OpcodeRow) (w : Word) : Bool := w &&& r.mask == r.pattern

/-- What the decoder reads from an instruction whose `nbits` bits are `w`, bits above them 0. -/
def decodeTableWord (nbits w : Nat) : Option Instr := (decode (BitVec.ofNat 32 (w % 2 ^ nbits))).toOption

end Sys2Proof
end

