-- ==== Sys2Proof/Machine/State.lean ====
section
/-! DEFINITION. The state of the block (10_state.md R20 to R49) as plain data, the events of its environment
(00_scope.md R7), the reasons a step can stop, and the state after hardware reset (R51, R320). -/

namespace Sys2Proof.Machine

/-- Why a step could stop with a fault. NO constructor: the block's one exception is the fatal assertion, which is a next
state (60_exceptions.md R284), and nothing else in the spec stops the machine. Safe: nothing raises it. -/
inductive Fault where
  deriving DecidableEq, Repr

/-- Why a step can be refused. -/
inductive Refusal where
  /-- An instruction without a meaning yet: raised by no arm of `exec`. Safe. -/
  | notModelled (mnemonic : String)
  /-- Raised by `busAccess` for an access that touches the window and is not an aligned 32-bit access inside it: R73 gives
  such an access no meaning and says a model must not give it one. Safe (log entry 7). -/
  | badAccess
  deriving DecidableEq, Repr

/-- The upsample state of one channel: `UPIN[c]`, `UPOUT[c]`, `UPH[c]`, `UH[c]` (R30, R31, R24, R21). A ring is the list
of its samples, newest first. -/
structure UpLane where
  upin : Word := 0
  upout : Word := 0
  uph : BitVec 2 := 0
  uh : List Word := []
  deriving DecidableEq, Repr, Inhabited

/-- The downsample state of one channel: `DNIN[c]`, `DNOUT[c]`, `DPH[c]`, `DH[c][p]`, `DSUM[c]` (R32, R33, R25, R22,
R29). -/
structure DownLane where
  dnin : Word := 0
  dnout : Word := 0
  dph : BitVec 2 := 0
  dh : Phases (List Word) := ⟨[], [], []⟩
  dsum : Acc := 0
  deriving DecidableEq, Repr, Inhabited

/-- The PLL controller's state (R36 to R45). `REFACC` and `FBACC` are `CNT_W`-bit numbers in 32-bit words. -/
structure Pll where
  refAcc : Word := 0
  fbAcc : Word := 0
  err : Acc := 0
  integ : Acc := 0
  sel : BitVec 16 := 0
  oscDiv : Word := 0
  oscFrac : Word := 0
  lockCnt : BitVec 16 := 0
  lock : Bool := false
  lockOld : Bool := false
  ready : Bool := false
  primed : Bool := false
  deriving DecidableEq, Repr, Inhabited

/-- What hardware reset leaves unspecified (R51): the values drawn for it. Fields that R51 fixes are overwritten. -/
structure ResetDraw where
  up : Lanes UpLane := ⟨{}, {}⟩
  down : Lanes DownLane := ⟨{}, {}⟩
  pll : Pll := {}
  deriving DecidableEq, Repr, Inhabited

/-- A register access reads or writes (R70). -/
inductive BusOp where
  | read
  | write (v : Word)
  deriving DecidableEq, Repr

/-- A bus access: byte address relative to `BASE`, size in bytes, operation (R70 to R73). -/
structure Access where
  off : Int
  size : Nat := 4
  op : BusOp
  deriving DecidableEq, Repr

/-- One move of the block's environment (R7). -/
inductive Event where
  /-- A register access by `HOT` (R78). -/
  | hot (a : Access)
  /-- A register access by `TASK`; `stale` draws which candidate a read of `LOCKSTAT` returns (R80). -/
  | task (a : Access) (stale : Bool)
  /-- A transition of the reference clock, with the answers of `ReadCounter(REF)` and `ReadCounter(FB)` at that instant
  (R203, R297, R298). -/
  | refEdge (ref fb : Word)
  /-- Hardware reset, with the values drawn for what it leaves unspecified (R51, R320). -/
  | hwReset (d : ResetDraw)
  deriving DecidableEq, Repr

/-- The state of the block (R20), with the instance's parameters and the model's own fields `tape` (events to come),
`hold` (a `PLL.STEP` waits for its edge, R203), `hotReply` and `taskReply` (the word the last read returned). -/
structure State where
  cfg : Cfg
  srcReady : Bool
  up : Lanes UpLane
  upcnt : Word
  down : Lanes DownLane
  dncnt : Word
  pll : Pll
  halted : Bool
  cause : BitVec 4
  hold : Bool
  tape : List Event
  hotReply : Option Word
  taskReply : Option Word
  deriving DecidableEq, Repr

/-- The parameters of the state's instance. -/
abbrev State.par (s : State) : Params := s.cfg.par

/-- A drawn ring cut or filled to `T` samples (R21, R22: every ring has `T`). -/
def fitRing (t : Nat) (h : List Word) : List Word := (h ++ List.replicate t 0).take t

/-- The state hardware reset leaves on an instance `c` (R51, first column): what the table fixes is fixed, the rest is
drawn. `tape` is what the environment does next. -/
def State.powerOn (c : Cfg) (d : ResetDraw) (tape : List Event) : State where
  cfg := c
  srcReady := false
  up := d.up.map fun l => { l with uh := fitRing c.par.t l.uh }
  upcnt := 0
  down := d.down.map fun l =>
    { l with dh := ⟨fitRing c.par.t l.dh.p0, fitRing c.par.t l.dh.p1, fitRing c.par.t l.dh.p2⟩ }
  dncnt := 0
  pll :=
    { d.pll with
      refAcc := BitVec.ofNat 32 (d.pll.refAcc.toNat % 2 ^ c.par.cntW)
      fbAcc := BitVec.ofNat 32 (d.pll.fbAcc.toNat % 2 ^ c.par.cntW)
      lock := false, lockOld := false, ready := false, primed := false }
  halted := false
  cause := 0
  hold := false
  tape := tape
  hotReply := none
  taskReply := none

/-- The machine right after reset: R51, with zero for everything it leaves unspecified. DESIGN CHOICE, log entry 1
(unsafe). No event has been placed (log entry 6). -/
def State.reset : State := State.powerOn Cfg.actual {} []

end Sys2Proof.Machine
end

