-- ==== Sys2Proof/Machine/Operands.lean ====
section
/-! DEFINITION. The number primitives of 00_scope.md R9, the filter arithmetic (40_src_common.md R130 to R133), the counter
arithmetic and loop filter of the PLL (43_pll.md R196, R204, R205) and the operands a command reads (R103, R104, R203). -/

namespace Sys2Proof.Machine

/-! ### Number primitives (R9): exact integers, narrowed where the spec narrows -/

/-- `wrap64`: reduction to a signed 64-bit value. -/
def wrap64 (v : Int) : Acc := BitVec.ofInt 64 v

/-- `asr(v, k) = floor(v / 2^k)`. -/
def asr (v : Int) (k : Nat) : Int := v / 2 ^ k

/-- `clamp(v, lo, hi)`. -/
def clamp (v lo hi : Int) : Int := if v < lo then lo else if hi < v then hi else v

/-- `sat32`. -/
def sat32 (v : Int) : Int := clamp v (-2 ^ 31) (2 ^ 31 - 1)

/-! ### The filter (R130 to R133) -/

/-- Silence is the sample 0 (R130). -/
def silence : Word := 0

/-- The exact sum of the products of coefficients and samples of equal index (R131). -/
def dot : List Word → List Word → Int
  | c :: cs, h :: hs => c.toInt * h.toInt + dot cs hs
  | _, _ => 0

/-- `Fir(h, p)`, given `COEF[p]` (R131). -/
def fir (coef h : List Word) : Acc := wrap64 (dot coef h)

/-- `FirOut(acc) = sat32(asr(acc, QSHIFT))` (R132). -/
def firOut (acc : Acc) : Word := BitVec.ofInt 32 (sat32 (asr acc.toInt qShift))

/-- `Push(h, x)` for rings of `t` samples (R133). -/
def push (t : Nat) (h : List Word) (x : Word) : List Word := x :: h.take (t - 1)

/-- The spec's bodies of the filter arithmetic (40_src_common.md, before R130). -/
def srcArith : SrcArith := ⟨fir, firOut, push⟩

/-- `(ph + 1) mod 3` (R24). -/
def nextPhase (ph : BitVec 2) : BitVec 2 := BitVec.ofNat 2 ((ph.toNat + 1) % 3)

/-- The ring or coefficient row of invocation phase `q`, with the last for every `q` but 0 and 1 (R172's `else`). -/
def phaseGet {α : Type} (x : Phases α) (q : BitVec 2) : α := if q = 0 then x.p0 else if q = 1 then x.p1 else x.p2

/-- Replaces what `phaseGet` reads. -/
def phaseSet {α : Type} (x : Phases α) (q : BitVec 2) (v : α) : Phases α :=
  if q = 0 then { x with p0 := v } else if q = 1 then { x with p1 := v } else { x with p2 := v }

/-- The flag operand says 1: `A` of `SRC.UP`, `S` of `SRC.DOWN` (R104). -/
def flagSet (a : Nat) : Bool := a == 1

/-! ### The PLL (R196, R204, R205) -/

/-- `ReadCounter`: the `CNT_W`-bit value of a counter (R9, R299). -/
def readCounter (p : Params) (w : Word) : Word := BitVec.ofNat 32 (w.toNat % 2 ^ p.cntW)

/-- `(now - before) mod 2^CNT_W`: a counter's progress since the previous cycle (R204). -/
def progress (p : Params) (now before : Word) : Int := ((now.toNat : Int) - before.toNat) % 2 ^ p.cntW

/-- `floor(dref * RATIO_NUM / RATIO_DEN)` (R204). -/
def expected (p : Params) (dref : Int) : Int := dref * p.ratioNum / p.ratioDen

/-- The phase error `e` of a control cycle (R204). -/
def phaseError (p : Params) (refAcc fbAcc r f : Word) : Int :=
  expected p (progress p r refAcc) - progress p f fbAcc

/-- `i2` of R205. -/
def integNext (p : Params) (integ e : Int) : Int := clamp (integ + e) (-p.integMax) p.integMax

/-- `sel` of R205, from `e` and `i2`. -/
def selNext (p : Params) (e i2 : Int) : Int :=
  clamp (p.selNom + asr (p.kp * e + p.ki * i2) p.gainShift) 0 (p.lutLen - 1)

/-- The spec's loop filter (R205). -/
def piFilter : LoopFilter := ⟨integNext, selNext⟩

/-- `LUT[i]` (R194). -/
def lutEntry (p : Params) (i : Nat) : Word × Word := p.lut.getD i (0, 0)

/-! ### What the environment has ready (R78, R203) -/

/-- The environment's next move that is not `HOT`'s, and the tape without it: while a `PLL.STEP` is held `HOT` busy-waits,
so its accesses stay where they are (R78). -/
def nextEnv : List Event → Option (Event × List Event)
  | [] => none
  | .hot a :: es => match nextEnv es with
    | none => none
    | some (e, rest) => some (e, .hot a :: rest)
  | e :: es => some (e, es)

end Sys2Proof.Machine
end

