-- ==== Sys2Proof/Machine/Flags.lean ====
section
/-! DEFINITION. The flags and status words: `STATUS` (10_state.md R47), `LOCKSTAT` (R48), the counts (R34, R35), the lock
bookkeeping (43_pll.md R205, R207) and the cause codes (60_exceptions.md R281). -/

namespace Sys2Proof.Machine

/-! ### Cause codes (R281) -/

def causeFrameSize : BitVec 4 := 1
def causeChannelCount : BitVec 4 := 2
def causeAllocFail : BitVec 4 := 3
def causeXtileDesync : BitVec 4 := 4
def causeIllegalCmd : BitVec 4 := 5
def causeBadSequence : BitVec 4 := 6

/-! ### Status words -/

/-- `STATUS` (R47): each field at its place, every reserved bit 0. -/
def statusWord (s : State) : Word :=
  BitVec.ofNat 32
    (s.srcReady.toNat + s.pll.ready.toNat * 2 ^ 1 + s.pll.primed.toNat * 2 ^ 2 + s.par.pllEn.toNat * 2 ^ 3 +
      s.halted.toNat * 2 ^ 4 + s.cause.toNat * 2 ^ 8 + s.up.ch0.uph.toNat * 2 ^ 16 + s.up.ch1.uph.toNat * 2 ^ 18 +
      s.down.ch0.dph.toNat * 2 ^ 20 + s.down.ch1.dph.toNat * 2 ^ 22)

/-- The word of `LOCKSTAT` for a value of the lock status: bit 0, the rest 0 (R48). -/
def lockWord (l : Bool) : Word := BitVec.ofNat 32 l.toNat

/-- A count register's word: 1 or 0 sample slots (R34, R35). -/
def countWord (b : Bool) : Word := BitVec.ofNat 32 b.toNat

/-! ### Lock bookkeeping (R205) -/

/-- `inw`: the phase error is within the window. -/
def inWindow (p : Params) (e : Int) : Bool := decide (e.natAbs ≤ p.lockWindow)

/-- `c2`: consecutive in-window cycles, saturated at `LOCK_COUNT`. -/
def lockCountNext (p : Params) (inw : Bool) (c : Nat) : Nat := if inw then min (c + 1) p.lockCount else 0

/-- `l2`: the lock status. -/
def lockNext (p : Params) (inw : Bool) (c2 : Nat) : Bool := inw && c2 == p.lockCount

end Sys2Proof.Machine
end

