-- ==== Sys2Proof/Machine/Ops.lean ====
section
/-! DEFINITION. The named operations over the state: the fatal assertion and the one way out of it (60_exceptions.md R284,
R287), the oscillator pair (43_pll.md R206), the register window (20_memory.md R70 to R75) and the updates the commands
share. -/

namespace Sys2Proof.Machine

/-! ### Updates -/

def setTape (t : List Event) (s : State) : State := { s with tape := t }
def setHold (b : Bool) (s : State) : State := { s with hold := b }
def setHotReply (v : Word) (s : State) : State := { s with hotReply := some v }
def setTaskReply (v : Word) (s : State) : State := { s with taskReply := some v }
def setSrcReady (s : State) : State := { s with srcReady := true }
def setUp (up : Lanes UpLane) (n : Word) (s : State) : State := { s with up := up, upcnt := n }
def setDown (down : Lanes DownLane) (n : Word) (s : State) : State := { s with down := down, dncnt := n }
def setPll (p : Pll) (s : State) : State := { s with pll := p }

/-! ### The fatal assertion: entry, and the one exit -/

/-- `raise Fatal(k)` (R284): `HALTED <- 1`, `CAUSE <- k`, and nothing else. There is no handler, no vector, no saved state. -/
def raiseFatal (k : BitVec 4) (s : State) : State := { s with halted := true, cause := k }

/-- Hardware reset, the only way out of the halted state (R287, R320). A held command is abandoned and what the
environment does next is kept. -/
def hardReset (d : ResetDraw) (s : State) : State := State.powerOn s.cfg d s.tape

/-! ### The oscillator pair -/

/-- `OscWrite(LUT[i])` (R206): both words as one event. -/
def oscWrite (p : Params) (i : Nat) (l : Pll) : Pll :=
  { l with oscDiv := (lutEntry p i).1, oscFrac := (lutEntry p i).2 }

/-! ### The register window (R71) -/

/-- The registers of the window. -/
inductive Reg where
  | cmd
  | status
  | upcnt
  | dncnt
  | upin (c : Chan)
  | upout (c : Chan)
  | dnin (c : Chan)
  | dnout (c : Chan)
  | lockstat
  | pllSel
  | oscDiv
  | oscFrac
  deriving DecidableEq, Repr

/-- The byte offset of a register from `BASE` (R71). -/
def Reg.offset : Reg → Nat
  | .cmd => 0x00
  | .status => 0x04
  | .upcnt => 0x08
  | .dncnt => 0x0C
  | .upin .c0 => 0x10
  | .upin .c1 => 0x14
  | .upout .c0 => 0x18
  | .upout .c1 => 0x1C
  | .dnin .c0 => 0x20
  | .dnin .c1 => 0x24
  | .dnout .c0 => 0x28
  | .dnout .c1 => 0x2C
  | .lockstat => 0x30
  | .pllSel => 0x34
  | .oscDiv => 0x38
  | .oscFrac => 0x3C

/-- The register at an aligned offset of the window; none at a reserved one (R71). -/
def regAt (off : Nat) : Option Reg :=
  match off / 4 with
  | 0 => some .cmd
  | 1 => some .status
  | 2 => some .upcnt
  | 3 => some .dncnt
  | 4 => some (.upin .c0)
  | 5 => some (.upin .c1)
  | 6 => some (.upout .c0)
  | 7 => some (.upout .c1)
  | 8 => some (.dnin .c0)
  | 9 => some (.dnin .c1)
  | 10 => some (.dnout .c0)
  | 11 => some (.dnout .c1)
  | 12 => some .lockstat
  | 13 => some .pllSel
  | 14 => some .oscDiv
  | 15 => some .oscFrac
  | _ => none

/-- What a register reads as (R71, R74): `CMD` reads 0 (R49). -/
def regRead (s : State) : Reg → Word
  | .cmd => 0
  | .status => statusWord s
  | .upcnt => s.upcnt
  | .dncnt => s.dncnt
  | .upin c => (s.up.get c).upin
  | .upout c => (s.up.get c).upout
  | .dnin c => (s.down.get c).dnin
  | .dnout c => (s.down.get c).dnout
  | .lockstat => lockWord s.pll.lock
  | .pllSel => s.pll.sel.setWidth 32
  | .oscDiv => s.pll.oscDiv
  | .oscFrac => s.pll.oscFrac

/-- What an offset of the window reads as: 0 where it is reserved (R74). -/
def windowRead (s : State) (off : Nat) : Word :=
  match regAt off with
  | some r => regRead s r
  | none => 0

/-- `UPIN[c] <- v`. -/
def setUpin (c : Chan) (v : Word) (s : State) : State :=
  match c with
  | .c0 => { s with up := { s.up with ch0 := { s.up.ch0 with upin := v } } }
  | .c1 => { s with up := { s.up with ch1 := { s.up.ch1 with upin := v } } }

/-- `DNIN[c] <- v`. -/
def setDnin (c : Chan) (v : Word) (s : State) : State :=
  match c with
  | .c0 => { s with down := { s.down with ch0 := { s.down.ch0 with dnin := v } } }
  | .c1 => { s with down := { s.down with ch1 := { s.down.ch1 with dnin := v } } }

/-- A write by `HOT` to a register that is not `CMD`: all 32 bits of `UPIN[c]` or `DNIN[c]`, ignored elsewhere (R75). -/
def regWrite (r : Reg) (v : Word) (s : State) : State :=
  match r with
  | .upin c => setUpin c v s
  | .dnin c => setDnin c v s
  | .cmd | .status | .upcnt | .dncnt | .upout _ | .dnout _ | .lockstat | .pllSel | .oscDiv | .oscFrac => s

/-- A write by `HOT` to an offset of the window that is not `CMD`'s; ignored where it is reserved (R75). -/
def windowWrite (off : Nat) (v : Word) (s : State) : State :=
  match regAt off with
  | some r => regWrite r v s
  | none => s

/-! ### Bus accesses (R70 to R73) -/

/-- `MemRead(addr, size)` as the block sees it: the platform puts the window at `BASE` (R70). -/
def memRead (p : Params) (addr size : Nat) : Access := ⟨(addr : Int) - p.base, size, .read⟩

/-- `MemWrite(addr, size, v)` as the block sees it. -/
def memWrite (p : Params) (addr size : Nat) (v : Word) : Access := ⟨(addr : Int) - p.base, size, .write v⟩

/-- The access touches the window: its first byte, or another of its bytes, lies in it. One that does not "does not
address the block at all" (92_eei_decisions.md D3). -/
def Access.touches (a : Access) : Bool := decide (a.off < 256 ∧ (0 ≤ a.off ∨ 0 < a.off + a.size))

/-- The accesses that exist (R72): 32 bits, at an offset that is a multiple of 4 inside the window. -/
def Access.legal (a : Access) : Bool := decide (a.size = 4 ∧ 0 ≤ a.off ∧ a.off + 4 ≤ 256 ∧ a.off % 4 = 0)

/-- `WR r, v` and `RD r` by `HOT`, `TRD r` by `TASK` (R113). -/
def wr (r : Reg) (v : Word) : Event := .hot ⟨r.offset, 4, .write v⟩
def rd (r : Reg) : Event := .hot ⟨r.offset, 4, .read⟩
def trd (r : Reg) (stale : Bool) : Event := .task ⟨r.offset, 4, .read⟩ stale

/-- `WR CMD, w`: the issue of a command word (R49, R113). -/
def wrCmd (w : Word) : Event := wr .cmd w

end Sys2Proof.Machine
end

