-- ==== Sys2Proof/Machine/Checks.lean ====
section
/-! DEFINITION. The contract checks and `HALT` (44_checks_and_halt.md): `XFER.CHK` (R231), `XT.CHK` (R234), `HALT` (R237). -/

namespace Sys2Proof.Machine

/-- `XFER.CHK ch, len` (R231): the frame size is compared first. -/
def execXferChk (ch len : Nat) (s : State) : Host.Outcome State Fault Refusal :=
  .next <|
    if s.halted then s
    else if len ≠ s.par.frameCount then raiseFatal causeFrameSize s
    else if ch ≠ nch then raiseFatal causeChannelCount s
    else s

/-- `XT.CHK bytes` (R234). -/
def execXtChk (bytes : Nat) (s : State) : Host.Outcome State Fault Refusal :=
  .next <|
    if s.halted then s
    else if bytes ≠ s.par.xtFrameBytes then raiseFatal causeXtileDesync s
    else s

/-- `HALT cause` (R237): cause 0 is an illegal command. -/
def execHalt (cause : Nat) (s : State) : Host.Outcome State Fault Refusal :=
  .next <|
    if s.halted then s
    else if cause = 0 then raiseFatal causeIllegalCmd s
    else raiseFatal (BitVec.ofNat 4 cause) s

end Sys2Proof.Machine
end

