-- ==== Sys2Proof/Machine/PllUnit.lean ====
section
/-! DEFINITION. The PLL controller (43_pll.md): `PLL.INIT` (R198, R199) and `PLL.STEP` (R201 to R208). -/

namespace Sys2Proof.Machine

/-- The controller after `PLL.INIT` (R199). -/
def pllInitial (p : Params) (l : Pll) : Pll :=
  oscWrite p p.selNom
    { l with
      refAcc := 0, fbAcc := 0, err := 0, integ := 0, sel := BitVec.ofNat 16 p.selNom, lockCnt := 0
      lockOld := false, lock := false, primed := false, ready := true }

/-- `PLL.INIT`: ignored when halted, `Fatal(BAD_SEQUENCE)` without the unit or when it is initialised already (R198). -/
def execPllInit (s : State) : Host.Outcome State Fault Refusal :=
  .next <|
    if s.halted then s
    else if !s.par.pllEn || s.pll.ready then raiseFatal causeBadSequence s
    else setPll (pllInitial s.par s.pll) s

/-- The priming cycle (R208): the first snapshots, the nominal pair again. -/
def primingCycle (p : Params) (r f : Word) (l : Pll) : Pll :=
  oscWrite p l.sel.toNat { l with refAcc := r, fbAcc := f, primed := true, lockOld := l.lock }

/-- The control cycle with snapshots `r` and `f` (R204, R205), over the loop filter `F`. -/
def controlCycle (F : LoopFilter) (p : Params) (r f : Word) (l : Pll) : Pll :=
  let e := phaseError p l.refAcc l.fbAcc r f
  let i2 := F.integ p l.integ.toInt e
  let sel := (F.sel p e i2).toNat
  let c2 := lockCountNext p (inWindow p e) l.lockCnt.toNat
  oscWrite p sel
    { l with
      refAcc := r, fbAcc := f
      err := BitVec.ofInt 64 e
      integ := BitVec.ofInt 64 i2
      sel := BitVec.ofNat 16 sel
      lockCnt := BitVec.ofNat 16 c2
      lockOld := l.lock
      lock := lockNext p (inWindow p e) c2 }

/-- What `PLL.STEP` does with the two counter answers (R202). -/
def pllCycle (F : LoopFilter) (p : Params) (ref fb : Word) (l : Pll) : Pll :=
  if l.primed then controlCycle F p (readCounter p ref) (readCounter p fb) l
  else primingCycle p (readCounter p ref) (readCounter p fb) l

/-- `hold until RefEdge`, then the cycle (R202, R203): when the environment's next move is the edge, the command takes it
and both counters in one step; until then it is held and no other state changes. -/
def awaitEdge (F : LoopFilter) (s : State) : State :=
  match nextEnv s.tape with
  | some (.refEdge r f, rest) => setPll (pllCycle F s.par r f s.pll) (setHold false (setTape rest s))
  | _ => setHold true s

/-- `PLL.STEP`: ignored when halted; `Fatal(BAD_SEQUENCE)`, decided before any waiting, without the unit or before
`PLL.INIT`; else the hold and the cycle (R201, R202). -/
def execPllStep (s : State) : Host.Outcome State Fault Refusal :=
  .next <|
    if s.halted then s
    else if !s.par.pllEn || !s.pll.ready then raiseFatal causeBadSequence s
    else awaitEdge piFilter s

end Sys2Proof.Machine
end

