-- ==== Sys2Proof/Machine/Src.lean ====
section
/-! DEFINITION. The SRC engine: `SRC.INIT` (40_src_common.md R136), `SRC.UP` (41_src_upsample.md R151 to R153), `SRC.DOWN`
(42_src_downsample.md R171 to R173). -/

namespace Sys2Proof.Machine

/-! ### SRC.INIT -/

/-- The upsample state of a channel after `SRC.INIT` (R136). -/
def upLaneInit (t : Nat) (l : UpLane) : UpLane := { l with uph := 0, uh := List.replicate t 0 }

/-- The downsample state of a channel after `SRC.INIT` (R136). -/
def downLaneInit (t : Nat) (l : DownLane) : DownLane :=
  { l with dph := 0, dsum := 0, dh := ⟨List.replicate t 0, List.replicate t 0, List.replicate t 0⟩ }

/-- The effect of `SRC.INIT` (R136). -/
def srcInitBody (s : State) : State :=
  setSrcReady (setDown (s.down.map (downLaneInit s.par.t)) 0 (setUp (s.up.map (upLaneInit s.par.t)) 0 s))

/-- `SRC.INIT`: ignored when halted, `Fatal(BAD_SEQUENCE)` when the engine is initialised already (R136). -/
def execSrcInit (s : State) : Host.Outcome State Fault Refusal :=
  .next <|
    if s.halted then s
    else if s.srcReady then raiseFatal causeBadSequence s
    else srcInitBody s

/-! ### SRC.UP -/

/-- One lane of `SRC.UP` (R152): at invocation phase 0 the ring takes the input sample, or silence, and meets filter
phase 2; at phase 1 filter phase 1, at phase 2 filter phase 0, on the history as it stands. -/
def upLane (A : SrcArith) (p : Params) (a : Nat) (l : UpLane) : UpLane :=
  if l.uph = 0 then
    { l with
      uh := A.push p.t l.uh (if flagSet a then l.upin else silence)
      upout := A.firOut (A.fir p.coef.p2 (A.push p.t l.uh (if flagSet a then l.upin else silence)))
      uph := nextPhase l.uph }
  else if l.uph = 1 then { l with upout := A.firOut (A.fir p.coef.p1 l.uh), uph := nextPhase l.uph }
  else { l with upout := A.firOut (A.fir p.coef.p0 l.uh), uph := nextPhase l.uph }

/-- A lane consumes its input sample (R152). -/
def upConsumes (a : Nat) (l : UpLane) : Bool := l.uph == 0 && flagSet a

/-- The effect of `SRC.UP a` (R152): both lanes, then the count. -/
def srcUpBody (A : SrcArith) (a : Nat) (s : State) : State :=
  setUp (s.up.map (upLane A s.par a)) (countWord (upConsumes a s.up.ch0 || upConsumes a s.up.ch1)) s

/-- `SRC.UP a` (R151, R152). -/
def execSrcUp (a : Nat) (s : State) : Host.Outcome State Fault Refusal :=
  .next <|
    if s.halted then s
    else if !s.srcReady then raiseFatal causeBadSequence s
    else srcUpBody srcArith a s

/-! ### SRC.DOWN -/

/-- The ring of the invocation phase after it took the incoming sample (R172). -/
def downRing (A : SrcArith) (p : Params) (l : DownLane) : List Word := A.push p.t (phaseGet l.dh l.dph) l.dnin

/-- `m` of R172: the filter phase of the invocation phase over its ring. -/
def downTerm (A : SrcArith) (p : Params) (l : DownLane) : Acc := A.fir (phaseGet p.coef l.dph) (downRing A p l)

/-- The sum so far with this invocation's term (R172). -/
def downTotal (A : SrcArith) (p : Params) (l : DownLane) : Acc := wrap64 (l.dsum.toInt + (downTerm A p l).toInt)

/-- One lane of `SRC.DOWN` (R172): the ring of the invocation phase takes the sample; phase 0 starts a sum, phase 1 adds
to it, phase 2 completes it and emits it if there is space. -/
def downLane (A : SrcArith) (p : Params) (sp : Nat) (l : DownLane) : DownLane :=
  { l with
    dh := phaseSet l.dh l.dph (downRing A p l)
    dsum := if l.dph = 0 then downTerm A p l else if l.dph = 1 then downTotal A p l else l.dsum
    dnout := if l.dph = 0 ∨ l.dph = 1 then l.dnout else if flagSet sp then A.firOut (downTotal A p l) else l.dnout
    dph := nextPhase l.dph }

/-- A lane produces an output sample (R172). -/
def downProduces (sp : Nat) (l : DownLane) : Bool := l.dph != 0 && l.dph != 1 && flagSet sp

/-- The effect of `SRC.DOWN s` (R172): both lanes, then the count. -/
def srcDownBody (A : SrcArith) (sp : Nat) (s : State) : State :=
  setDown (s.down.map (downLane A s.par sp)) (countWord (downProduces sp s.down.ch0 || downProduces sp s.down.ch1)) s

/-- `SRC.DOWN s` (R171, R172). -/
def execSrcDown (sp : Nat) (s : State) : Host.Outcome State Fault Refusal :=
  .next <|
    if s.halted then s
    else if !s.srcReady then raiseFatal causeBadSequence s
    else srcDownBody srcArith sp s

end Sys2Proof.Machine
end

