-- ==== Sys2Proof/Machine/Dispatch.lean ====
section
/-! DEFINITION. One arm per command (30_encoding.md R107). -/

namespace Sys2Proof.Machine

def exec (i : Instr) (s : State) : Host.Outcome State Fault Refusal :=
  match i with
  | .srcInit => Sys2Proof.Machine.execSrcInit s
  | .srcUp a => Sys2Proof.Machine.execSrcUp a s
  | .srcDown sp => Sys2Proof.Machine.execSrcDown sp s
  | .pllInit => Sys2Proof.Machine.execPllInit s
  | .pllStep => Sys2Proof.Machine.execPllStep s
  | .xferChk ch len => Sys2Proof.Machine.execXferChk ch len s
  | .xtChk bytes => Sys2Proof.Machine.execXtChk bytes s
  | .halt cause => Sys2Proof.Machine.execHalt cause s

end Sys2Proof.Machine
end

