-- ==== Sys2Proof/Machine/Bus.lean ====
section
/-! DEFINITION. What each event of the environment does to the block: register accesses by `HOT` and `TASK` (20_memory.md
R72 to R81), the issue of a command (30_encoding.md R100, R109; 60_exceptions.md R286, R289), reference edges (R203, R297),
hardware reset (R320); and the move the block makes while a `PLL.STEP` is held (R203). -/

namespace Sys2Proof.Machine

/-- A write of `w` to `CMD` by `HOT` (R100, R289): ignored without decoding when halted, `Fatal(ILLEGAL_CMD)` when no row
matches, else the command. -/
def issue (w : Word) (s : State) : Host.Outcome State Fault Refusal :=
  if s.halted then .next s
  else match decode w with
    | .error _ => .next (raiseFatal causeIllegalCmd s)
    | .ok i => exec i s

/-- A legal access by `HOT` at offset `off` (R74, R75). -/
def hotAccess (off : Nat) (op : BusOp) (s : State) : Host.Outcome State Fault Refusal :=
  match op with
  | .read => .next (setHotReply (windowRead s off) s)
  | .write v => if off = 0 then issue v s else .next (windowWrite off v s)

/-- What a legal read by `TASK` at offset `off` returns: of `LOCKSTAT` one of two candidates (R80), else the register. -/
def taskRead (off : Nat) (stale : Bool) (s : State) : Word :=
  if off = Reg.lockstat.offset then lockWord (if stale then s.pll.lockOld else s.pll.lock) else windowRead s off

/-- A legal access by `TASK` (R80, R81): its writes are ignored. -/
def taskAccess (off : Nat) (op : BusOp) (stale : Bool) (s : State) : Host.Outcome State Fault Refusal :=
  match op with
  | .read => .next (setTaskReply (taskRead off stale s) s)
  | .write _ => .next s

/-- A bus access (R70 to R73): it passes the block by if it does not touch the window, is refused if it is not an aligned
32-bit access inside the window, and is served otherwise. -/
def busAccess (a : Access) (s : State) (serve : Nat → BusOp → State → Host.Outcome State Fault Refusal) :
    Host.Outcome State Fault Refusal :=
  if !a.touches then .next s
  else if !a.legal then .refused .badAccess
  else serve a.off.toNat a.op s

/-- One event of the environment. A reference edge nobody waits for changes nothing (R203). -/
def handle (e : Event) (s : State) : Host.Outcome State Fault Refusal :=
  match e with
  | .hot a => busAccess a s hotAccess
  | .task a stale => busAccess a s fun off op s => taskAccess off op stale s
  | .refEdge _ _ => .next s
  | .hwReset d => .next (hardReset d s)

/-- The next event of the tape; without one the block is idle and keeps its state (R295). -/
def stepFree (s : State) : Host.Outcome State Fault Refusal :=
  match s.tape with
  | [] => .next s
  | e :: rest => handle e (setTape rest s)

/-- While a `PLL.STEP` is held (R203): `HOT` waits, `TASK` is served, hardware reset abandons the command, and only a
reference edge completes it; with no move left it waits on, which is the hang of R334. -/
def stepHeld (s : State) : Host.Outcome State Fault Refusal :=
  match nextEnv s.tape with
  | none => .next (awaitEdge piFilter s)
  | some (.refEdge _ _, _) => .next (awaitEdge piFilter s)
  | some (e, rest) => handle e (setTape rest s)

end Sys2Proof.Machine
end

