-- ==== Sys2Proof/Machine/Step.lean ====
section
/-! DEFINITION. One step: one event of the environment (00_scope.md R7), or the move of a held `PLL.STEP` (R203). -/

namespace Sys2Proof.Machine

/-- One step of the block and its environment. -/
def step (s : State) : Host.Outcome State Fault Refusal := if s.hold then stepHeld s else stepFree s

/-- `s` with one issue of the command word `w` by `HOT` as the next event; no command is held, so it is performed by the
very next step (log entry 6). -/
def State.withFetchWord (s : State) (nbits w : Nat) : State :=
  { s with hold := false, tape := wrCmd (BitVec.ofNat 32 (w % 2 ^ nbits)) :: s.tape }

end Sys2Proof.Machine
end

