-- ==== Sys2Proof/Machine/Environment.lean ====
section
/-! DEFINITION. The block's environment as far as 45_environment.md gives it as sequences and layouts: the capability set
(R266), the driver's rings and its transmit and receive slots (R250, R251, R252) and the start-up commands
(70_reset_and_hazards.md R322). None of it is state of the block (10_state.md R50) and no command uses it. -/

namespace Sys2Proof.Machine

/-- Go on with what an outcome leaves. -/
def andThen {α β : Type} (o : Host.Outcome α Fault Refusal) (f : α → Host.Outcome β Fault Refusal) :
    Host.Outcome β Fault Refusal :=
  match o with
  | .next a => f a
  | .fault r => .fault r
  | .refused r => .refused r

/-- Events that come one after the other, each taken by one step. They stand for accesses of `HOT` while no command is held,
with no other agent's move between them: DESIGN CHOICE, log entry 17 (unsafe for claims about slots). -/
def perform : List Event → State → Host.Outcome State Fault Refusal
  | [], s => .next s
  | e :: es, s => andThen (step (setTape (e :: s.tape) s)) (perform es)

/-! ### Capabilities (R266) -/

/-- The capability set of the device; clock recovery is the block's parameter `PLL_EN`. -/
structure Capabilities where
  bus : Bool
  altBus : Bool
  crossTile : Bool
  deriving DecidableEq, Repr

/-- Accesses to the block happen only on a device with the bus: bus-enabled decides whether the block is used at all. -/
def Capabilities.useBlock (k : Capabilities) (es : List Event) : List Event := if k.bus then es else []

/-- `XT.CHK` is ever issued: the block is used and the transport crosses tiles (R234, R262). -/
def Capabilities.announces (k : Capabilities) : Bool := k.bus && k.crossTile

/-! ### The driver (R250, R251, R252) -/

/-- One sample slot: a sample of each channel (00_scope.md R12). -/
abbrev Slot := Lanes Word

/-- The two ring buffers the driver owns (R250), oldest slot first: pipeline-rate samples waiting for the bus, and
pipeline-rate samples the engine has produced. -/
structure Rings where
  tx : List Slot := []
  rx : List Slot := []
  deriving DecidableEq, Repr, Inhabited

/-- The oldest frame of `f` slots of a ring, with silence for the slots it lacks: starvation is absorbed
(60_exceptions.md R280 (2)). That the silence comes last is log entry 21. -/
def wholeFrame (f : Nat) (ring : List Slot) : List Slot := ring.take f ++ List.replicate (f - ring.length) ⟨0, 0⟩

/-- Slots appended to a ring with room for `room`; those beyond it are dropped: overflow is absorbed (R280 (2)). That the
newest are the ones dropped is log entry 21. -/
def appendWithin (room : Nat) (ring xs : List Slot) : List Slot := ring ++ xs.take (room - ring.length)

/-- The accesses of a transmit slot up to the command (R251): the head of the transmit ring is copied, not yet removed. -/
def txEvents (ring : List Slot) : List Event :=
  match ring with
  | [] => [wrCmd (encode (.srcUp 0))]
  | x :: _ => [wr (.upin .c0) x.ch0, wr (.upin .c1) x.ch1, wrCmd (encode (.srcUp 1))]

/-- What a transmit slot leaves: the slot that goes on the bus, the rings, the block. -/
structure TxDone where
  out : Slot
  rings : Rings
  state : State
  deriving DecidableEq, Repr

/-- A transmit slot (R251): `UPCNT` sample slots are removed from the head of the transmit ring. -/
def txSlot (r : Rings) (s : State) : Host.Outcome TxDone Fault Refusal :=
  andThen (perform (txEvents r.tx) s) fun t =>
    .next ⟨⟨regRead t (.upout .c0), regRead t (.upout .c1)⟩, { r with tx := r.tx.drop (regRead t .upcnt).toNat }, t⟩

/-- The accesses of a receive slot up to the command (R252). -/
def rxEvents (bus : Slot) (space : Bool) : List Event :=
  [wr (.dnin .c0) bus.ch0, wr (.dnin .c1) bus.ch1, wrCmd (encode (.srcDown space.toNat))]

/-- What a receive slot leaves: the rings, the block. -/
structure RxDone where
  rings : Rings
  state : State
  deriving DecidableEq, Repr

/-- A receive slot with a receive ring of `room` sample slots (R252): a slot is appended only when `DNCNT = 1`. -/
def rxSlot (room : Nat) (bus : Slot) (r : Rings) (s : State) : Host.Outcome RxDone Fault Refusal :=
  andThen (perform (rxEvents bus (decide (r.rx.length < room))) s) fun t =>
    .next ⟨if regRead t .dncnt = 1
      then { r with rx := r.rx ++ [⟨regRead t (.dnout .c0), regRead t (.dnout .c1)⟩] } else r, t⟩

/-- The two callback entry points of the driver (R250). -/
inductive Direction where
  | transmit
  | receive
  deriving DecidableEq, Repr

/-- What a bus sample slot leaves: what was put on the bus, the rings, the block. -/
structure SlotDone where
  out : Option Slot := none
  rings : Rings
  state : State
  deriving DecidableEq, Repr

/-- The callbacks of a bus sample slot, in the given order: the source gives none (91_not_in_source.md N11). -/
def callbacks (room : Nat) (bus : Slot) : List Direction → SlotDone → Host.Outcome SlotDone Fault Refusal
  | [], d => .next d
  | .transmit :: ds, d =>
    andThen (txSlot d.rings d.state) fun e => callbacks room bus ds ⟨some e.out, e.rings, e.state⟩
  | .receive :: ds, d =>
    andThen (rxSlot room bus d.rings d.state) fun e => callbacks room bus ds ⟨d.out, e.rings, e.state⟩

/-- A bus sample slot with the given active directions (R253); a device without the bus has none (R266). -/
def busSlot (k : Capabilities) (dirs : List Direction) (room : Nat) (bus : Slot) (r : Rings) (s : State) :
    Host.Outcome SlotDone Fault Refusal :=
  if k.bus then callbacks room bus dirs { rings := r, state := s } else .next { rings := r, state := s }

/-- The start-up commands of R322, steps 3 and 4, which may be swapped; none on a device without the bus (R266). -/
def startUp (k : Capabilities) (p : Params) (pllFirst : Bool) : List Event :=
  let pll := if p.pllEn then [wrCmd (encode .pllInit)] else []
  k.useBlock (if pllFirst then pll ++ [wrCmd (encode .srcInit)] else wrCmd (encode .srcInit) :: pll)

/-- A fatal assertion of the software on the block's core (R280 (1), (3)): it issues `HALT cause`
(44_checks_and_halt.md R237). -/
def softwareFatal (cause : Nat) : List Event := [wrCmd (encode (.halt cause))]

/-- What software does when its allocation fails at start-up: `HALT 3` (R321, R322 step 2). -/
def allocationFailed (k : Capabilities) : List Event := k.useBlock (softwareFatal 3)

end Sys2Proof.Machine
end

