-- ==== Sys2Proof/Machine/Router.lean ====
section
/-! DEFINITION. The Audio Frame Router as the environment's behaviour, as far as 45_environment.md gives it: frames and
their layout (R256), source selection and capture from the microphone array, the receive ring and the external bus (R255,
R257, R259), the channel remap and dispatch to the transmit ring and the other sinks (R255, R258, R260), the check of a frame
exchange (R260, 44_checks_and_halt.md R232). None of it is state of the block (10_state.md R50). -/

namespace Sys2Proof.Machine

/-! ### Frames (R256) -/

/-- A channel group: two channels of samples, the first sample first. -/
abbrev Group := Lanes (List Word)

/-- Every channel holds exactly `f` samples: the contract of a frame (R256). -/
abbrev Group.Fits (f : Nat) (g : Group) : Prop := g.ch0.length = f ∧ g.ch1.length = f

/-- An input frame (R256). -/
structure InputFrame where
  reference : Group
  mic : Group
  deriving DecidableEq, Repr

/-- An output frame (R256). -/
structure OutputFrame where
  processed : Group
  reference : Group
  rawMic : Group
  deriving DecidableEq, Repr

abbrev InputFrame.Fits (f : Nat) (i : InputFrame) : Prop := i.reference.Fits f ∧ i.mic.Fits f

abbrev OutputFrame.Fits (f : Nat) (o : OutputFrame) : Prop := o.processed.Fits f ∧ o.reference.Fits f ∧ o.rawMic.Fits f

/-- The buffer of an input frame: contiguous channels, not interleaved. -/
def InputFrame.buffer (i : InputFrame) : List Word := i.reference.ch0 ++ i.reference.ch1 ++ i.mic.ch0 ++ i.mic.ch1

/-- The buffer of an output frame. -/
def OutputFrame.buffer (o : OutputFrame) : List Word :=
  o.processed.ch0 ++ o.processed.ch1 ++ o.reference.ch0 ++ o.reference.ch1 ++ o.rawMic.ch0 ++ o.rawMic.ch1

/-- The position of sample `n` of channel `k` in a buffer of `f` samples per channel. -/
def framePos (f k n : Nat) : Nat := k * f + n

/-- The group that a ring's sample slots make (R255). -/
def groupOfSlots (xs : List Slot) : Group := ⟨xs.map Lanes.ch0, xs.map Lanes.ch1⟩

/-- The sample slots of two channels, in time order. -/
def slotsOfChannels : List Word → List Word → List Slot
  | x :: xs, y :: ys => ⟨x, y⟩ :: slotsOfChannels xs ys
  | [], _ | _, [] => []

/-! ### Sources and sinks (R255, R258, R259, R266) -/

/-- What can feed the reference and microphone channels (R255, R259). -/
inductive Source where
  | micArray
  | bus
  | externalBus
  deriving DecidableEq, Repr

/-- Where a processed frame can go (R258). -/
inductive Sink where
  | bus
  | externalBus
  | inference
  deriving DecidableEq, Repr

/-- `SourceSinkSelection` (R259). -/
structure SourceSinkSelection where
  reference : Source
  mic : Source
  sinks : List Sink
  deriving DecidableEq, Repr

/-- The source that feeds a group on a device with capabilities `k` (R266): a selected source the device does not have is not
laid over the microphone array. DESIGN CHOICE, log entry 23. -/
def Capabilities.source (k : Capabilities) : Source → Source
  | .micArray => .micArray
  | .bus => if k.bus then .bus else .micArray
  | .externalBus => if k.altBus then .externalBus else .micArray

/-- The device has the sink (R266). -/
def Capabilities.hasSink (k : Capabilities) : Sink → Bool
  | .bus => k.bus
  | .externalBus => k.altBus
  | .inference => true

/-! ### Capture (R255, R257, R259) -/

/-- Draining the microphone array (R257): a receive that returns nothing is followed by a retry, and the first that returns
samples is taken; without one the read still waits. The receives left over stand beside the samples. -/
def drainMic : List (Option InputFrame) → Option (InputFrame × List (Option InputFrame))
  | [] => none
  | none :: rs => drainMic rs
  | some i :: rs => some (i, rs)

/-- The samples a source offers for the groups of an input frame. How many channels a source offers is not in the spec but
for the bus, whose exchange has two (R231). DESIGN CHOICE, log entry 20: the microphone array and the external bus each offer
a reference pair and a microphone pair, and the bus offers its one pair for either group. -/
def Source.pick (s : Source) (mic : InputFrame) (bus : Group) (ext : InputFrame) : InputFrame :=
  match s with
  | .micArray => mic
  | .bus => ⟨bus, bus⟩
  | .externalBus => ext

/-- What a capture answers. -/
inductive Captured where
  /-- No receive of the microphone array has returned samples: its read still blocks (R257). -/
  | waits
  /-- A capture callback did not populate exactly `FRAME_COUNT` samples per channel: a contract violation (R256, R260), fatal
  with cause 1 (60_exceptions.md R280 (1)). -/
  | violation
  /-- The input frame, the microphone receives left over, and the rings without the slots taken. -/
  | frame (i : InputFrame) (receives : List (Option InputFrame)) (rings : Rings)
  deriving DecidableEq, Repr

/-- The bus feeds a group. -/
def feedsBus (k : Capabilities) (sel : SourceSinkSelection) : Bool :=
  decide (k.source sel.reference = .bus) || decide (k.source sel.mic = .bus)

/-- The input frame (R257): the selected sources laid over the microphone array, if every callback populated exactly `f` samples
per channel (R256, R260). -/
def assemble (k : Capabilities) (f : Nat) (sel : SourceSinkSelection) (mic : InputFrame) (bus : Group) (ext : InputFrame) :
    Option InputFrame :=
  let i : InputFrame := ⟨((k.source sel.reference).pick mic bus ext).reference, ((k.source sel.mic).pick mic bus ext).mic⟩
  if mic.Fits f ∧ i.Fits f then some i else none

/-- The input frame of one period of `f` samples per channel (R257): the microphone array is drained first, whatever is
selected; the selected sources are laid over it, the bus from the head of the receive ring (R250, R255), which gives up the
slots taken and whose starvation is filled with silence (R280 (2)). That the ring is left alone when the bus feeds no group
is log entry 21 (DESIGN CHOICE). No other agent moves inside it; with the hot path between its steps (R265) it is
`routerMove`, log entry 25. -/
def capture (k : Capabilities) (f : Nat) (sel : SourceSinkSelection) (receives : List (Option InputFrame))
    (ext : InputFrame) (rings : Rings) : Captured :=
  match drainMic receives with
  | none => .waits
  | some (mic, rest) =>
    match assemble k f sel mic (groupOfSlots (wholeFrame f rings.rx)) ext with
    | some i => .frame i rest (if feedsBus k sel then { rings with rx := rings.rx.drop f } else rings)
    | none => .violation

/-! ### The channel remap at the bus boundary (R258) -/

/-- The logical channels of an output frame (R256). -/
inductive OutChan where
  | processed (c : Chan)
  | reference (c : Chan)
  | rawMic (c : Chan)
  deriving DecidableEq, Repr

/-- The samples of a channel. -/
def OutputFrame.channel (o : OutputFrame) : OutChan → List Word
  | .processed c => o.processed.get c
  | .reference c => o.reference.get c
  | .rawMic c => o.rawMic.get c

/-- The bit-tagging of a bus format. Which channel of the processed pair carries the marker at which sample, and its value,
are not in the source (91_not_in_source.md N16), and neither is whether the reference channels are among "all raw channels":
all three are open here (log entry 22). -/
structure Tagging where
  /-- The marker that channel `c` of the processed pair carries at sample `n`, if it carries one. -/
  marker : Chan → Nat → Option Bool
  referenceIsRaw : Bool

/-- A bus format: the channels it puts on the two channels of the bus, and its tagging if it has one. Open (log entry 22). -/
structure BusFormat where
  order : Lanes OutChan
  tagging : Option Tagging

/-- `w` with bit 0 set to `b`. -/
def setLsb (b : Bool) (w : Word) : Word := BitVec.ofNat 32 (w.toNat / 2 * 2 + b.toNat)

/-- Bit 0 of sample `n` of a channel: the marker on the processed pair, cleared on raw channels (R258). -/
def Tagging.tag (t : Tagging) (k : OutChan) (n : Nat) (w : Word) : Word :=
  match k with
  | .processed c => match t.marker c n with
    | some b => setLsb b w
    | none => w
  | .rawMic _ => setLsb false w
  | .reference _ => if t.referenceIsRaw then setLsb false w else w

/-- The tagging of a channel from sample `n` on. -/
def tagFrom (t : Tagging) (k : OutChan) : Nat → List Word → List Word
  | _, [] => []
  | n, w :: ws => t.tag k n w :: tagFrom t k (n + 1) ws

/-- A channel as the format puts it on the bus. -/
def BusFormat.channel (b : BusFormat) (o : OutputFrame) (c : Chan) : List Word :=
  match b.tagging with
  | some t => tagFrom t (b.order.get c) 0 (o.channel (b.order.get c))
  | none => o.channel (b.order.get c)

/-- The sample slots of a frame after the remap, as they reach the transmit ring (R258). -/
def BusFormat.slots (b : BusFormat) (o : OutputFrame) : List Slot := slotsOfChannels (b.channel o .c0) (b.channel o .c1)

/-! ### Dispatch (R255, R258, R260) -/

/-- What a dispatch answers: never partial completion (R260). -/
inductive Disposition where
  | mayBeFreed
  deriving DecidableEq, Repr

/-- What a dispatch leaves: the frames pushed to sinks outside the driver, the rings, the answer. -/
structure Dispatched where
  pushed : List (Sink × OutputFrame)
  rings : Rings
  disposition : Disposition
  deriving DecidableEq, Repr

/-- A frame goes to the sink: it is active (R259) and the device has it (R266). -/
def Sink.active (k : Capabilities) (sel : SourceSinkSelection) (x : Sink) : Bool := decide (x ∈ sel.sinks) && k.hasSink x

/-- A sink takes the frame: it goes there, and the sink's own wait, drawn in `ready`, did not run out (R258). -/
def Sink.takes (k : Capabilities) (sel : SourceSinkSelection) (ready : Sink → Bool) (x : Sink) : Bool :=
  x.active k sel && ready x

/-- The counts a dispatch callback is called with (R260): `drain(frame_buffer, channel_count, frame_count)`. -/
structure Counts where
  channels : Nat
  frames : Nat
  deriving DecidableEq, Repr

/-- The cause of the contract violation of a dispatch callback, if it is one (R260, R280 (1), R281): a frame size other than
`f`, in the call or in the buffer, then a channel count other than the six of an output frame (R256). The order is that of
R231: DEDUCED, log entry 19. -/
def drainFault (f : Nat) (n : Counts) (o : OutputFrame) : Option Nat :=
  if n.frames ≠ f ∨ ¬ o.Fits f then some 1 else if n.channels ≠ 6 then some 2 else none

/-- The writes of one period of `f` samples per channel (R258): each sink takes the frame or not, whatever the others do; the
bus takes it remapped, at the end of a transmit ring with room for `room` slots (R250, R255), and what finds no room is
dropped (R280 (2)). A contract violation answers its cause instead. That a sink whose bounded wait ran out does not take the
frame is log entry 21. No other agent moves inside it; with the hot path between its steps (R265) it is `routerMove`, log
entry 25. -/
def dispatch (k : Capabilities) (fmt : BusFormat) (room f : Nat) (sel : SourceSinkSelection) (ready : Sink → Bool)
    (n : Counts) (o : OutputFrame) (rings : Rings) : Except Nat Dispatched :=
  match drainFault f n o with
  | some cause => .error cause
  | none =>
    .ok
      { pushed := ([.externalBus, .inference].filter fun x => x.takes k sel ready).map fun x => (x, o)
        rings := if Sink.bus.takes k sel ready then { rings with tx := appendWithin room rings.tx (fmt.slots o) } else rings
        disposition := .mayBeFreed }

/-! ### The check of a frame exchange (R260, R232) -/

/-- The check of a frame exchange of `ch` channels and `len` samples per channel. A number its operand cannot hold is
reported as 0, which is a mismatch (R6, R231): DEDUCED, log entry 19. -/
def exchangeEvent (ch len : Nat) : Event :=
  wrCmd (encode (.xferChk (if ch ≤ 15 then ch else 0) (if len ≤ 65535 then len else 0)))

/-- The accesses of an exchange: its check comes before its samples are processed (R232), on a device with the bus (R266). -/
def exchange (k : Capabilities) (ch len : Nat) : List Event := k.useBlock [exchangeEvent ch len]

end Sys2Proof.Machine
end

