-- ==== Sys2Proof/Machine/Transport.lean ====
section
/-! DEFINITION. The cross-tile transport of 45_environment.md: the wire format (R264), the sender and the receiver of a link
(R263), and the two cores it joins when the bus is owned by another core than the router's (R262). The block and the driver
are on the core that owns the bus. None of it is state of the block (10_state.md R50) and no command uses it. -/

namespace Sys2Proof.Machine

abbrev Byte := BitVec 8

/-! ### The wire (R264) -/

/-- The bytes of a message: a 32-bit little-endian length, then the blob (R264, the spec's decision D3). -/
def wireBytes (blob : List Byte) : List Byte :=
  [BitVec.ofNat 8 blob.length, BitVec.ofNat 8 (blob.length / 2 ^ 8), BitVec.ofNat 8 (blob.length / 2 ^ 16),
    BitVec.ofNat 8 (blob.length / 2 ^ 24)] ++ blob

/-- The announced length and the bytes after it, once the four bytes of it have arrived (R264). -/
def announced : List Byte → Option (Nat × List Byte)
  | b0 :: b1 :: b2 :: b3 :: rest =>
    some (b0.toNat + b1.toNat * 2 ^ 8 + b2.toNat * 2 ^ 16 + b3.toNat * 2 ^ 24, rest)
  | _ => none

/-- How a frame's sample slots are laid out in a blob of a given number of bytes: not in the source (91_not_in_source.md N10), so
open, but for R263's fixed size, which every layout keeps. DESIGN CHOICE, log entry 24: that a blob holds the two-channel sample
slots of one frame of `FRAME_COUNT` slots. The source says neither that a blob holds two channels nor how `XT_FRAME_BYTES` and
`FRAME_COUNT` are related (91_not_in_source.md N5), and no relation between the two is assumed. -/
structure BlobLayout where
  /-- The blob of the given number of bytes that a frame is packed in. -/
  pack : Nat → List Slot → List Byte
  unpack : List Byte → List Slot
  /-- A blob has the size asked for (R263). -/
  fixed : ∀ n xs, (pack n xs).length = n

/-- The layout carries frames of `f` slots in blobs of `n` bytes. -/
abbrev BlobLayout.Carries (lay : BlobLayout) (f n : Nat) : Prop :=
  ∀ xs : List Slot, xs.length = f → lay.unpack (lay.pack n xs) = xs

/-! ### The receiver (R263) -/

/-- What the receiver is at: waiting for a length, without bound (R263, 90_conflicts.md C5); reading a payload whose length
passed the check; stopped by a mismatch, which is fatal; given up on a payload when the bounded wait for it ran out (C5),
after which the spec says nothing (log entry 17). -/
inductive ReceiverPhase where
  | awaitsLength
  | reads (len : Nat)
  | stopped
  | timedOut
  deriving DecidableEq, Repr

/-- The receiving side of a link, with the bytes that have arrived and that it has not read. -/
structure Receiver where
  phase : ReceiverPhase := .awaitsLength
  arrived : List Byte := []
  deriving DecidableEq, Repr

/-- The announced length that the receiver has to check now, and the bytes after it. -/
def Receiver.toCheck (r : Receiver) : Option (Nat × List Byte) :=
  match r.phase with
  | .awaitsLength => announced r.arrived
  | .reads _ | .stopped | .timedOut => none

/-- After the check of an announced length (R263): a mismatch is fatal, and no payload byte is read. -/
def afterCheck (fatal : Bool) (len : Nat) (rest : List Byte) : Receiver := ⟨if fatal then .stopped else .reads len, rest⟩

/-- Reading the payload (R263): the whole of it, once it has arrived; `expired` draws whether the bounded wait for it has run
out before (C5). -/
def Receiver.read (expired : Bool) (r : Receiver) : Receiver × Option (List Byte) :=
  match r.phase with
  | .reads len =>
    if len ≤ r.arrived.length then (⟨.awaitsLength, r.arrived.drop len⟩, some (r.arrived.take len))
    else (⟨if expired then .timedOut else .reads len, r.arrived⟩, none)
  | .awaitsLength | .stopped | .timedOut => (r, none)

/-- The check the receiver issues for an announcement, before it reads any payload (R263). A length the operand cannot
hold is reported with operand 0, which R6 makes a mismatch (44_checks_and_halt.md R234): DESIGN CHOICE, log entry 17. -/
def announceEvent (len : Nat) : Event := wrCmd (encode (.xtChk (if len < 2 ^ 24 then len else 0)))

/-- What a turn of the receiver on the block's core leaves: the receiver, the payload if it read one, the block. -/
structure ReceiverDone where
  receiver : Receiver
  blob : Option (List Byte) := none
  state : State
  deriving DecidableEq, Repr

/-- A turn of the receiver on the block's core (R263): it waits for the length, checks it with `XT.CHK`, then reads the
payload. It does nothing once the core is halted, nor on a device that announces nothing (R266). -/
def receiverTurn (k : Capabilities) (expired : Bool) (r : Receiver) (s : State) :
    Host.Outcome ReceiverDone Fault Refusal :=
  if s.halted || !k.announces then .next { receiver := r, state := s }
  else match r.toCheck with
    | some (len, rest) =>
      andThen (perform [announceEvent len] s) fun t => .next { receiver := afterCheck t.halted len rest, state := t }
    | none => .next { receiver := (r.read expired).1, blob := (r.read expired).2, state := s }

/-- What a turn of the receiver on the router's core leaves; `halted`: a mismatch has halted that core. -/
structure RouterReceiverDone where
  receiver : Receiver
  blob : Option (List Byte) := none
  halted : Bool
  deriving DecidableEq, Repr

/-- A turn of the receiver on the router's core (R263). The block is not reachable from that core (R262), so its assertion is
the comparison of R234 itself and halts that core: DEDUCED, log entry 24. -/
def routerReceiverTurn (p : Params) (expired : Bool) (r : Receiver) (halted : Bool) : RouterReceiverDone :=
  if halted then { receiver := r, halted := true }
  else match r.toCheck with
    | some (len, rest) =>
      { receiver := afterCheck (len != p.xtFrameBytes) len rest, halted := len != p.xtFrameBytes }
    | none => { receiver := (r.read expired).1, blob := (r.read expired).2, halted := false }

/-! ### Links and the sender (R263) -/

/-- A one-way message channel between the cores: the bytes under way, and the receiver at its end. -/
structure Link where
  inFlight : List Byte := []
  receiver : Receiver := {}
  deriving DecidableEq, Repr

/-- Up to `n` more bytes arrive, in their order, unchanged (R264: the transport is trusted). -/
def Link.deliver (n : Nat) (l : Link) : Link :=
  { inFlight := l.inFlight.drop n
    receiver := { l.receiver with arrived := l.receiver.arrived ++ l.inFlight.take n } }

/-- What became of a period's send. -/
inductive SendOutcome where
  /-- The period's one blob is on the channel. -/
  | sent
  /-- The bounded wait for the channel ran out (C5). -/
  | expired
  deriving DecidableEq, Repr

/-- What a send leaves: its outcome, the link. -/
structure SendDone where
  outcome : SendOutcome
  link : Link
  deriving DecidableEq, Repr

/-- The sender's one send of a period (R263): a frame as exactly one blob of `XT_FRAME_BYTES` bytes behind its length, whole or
not at all; `expired` draws whether the bounded wait for the channel ran out (C5). -/
def send (lay : BlobLayout) (p : Params) (expired : Bool) (frame : List Slot) (l : Link) : SendDone :=
  if expired then ⟨.expired, l⟩
  else ⟨.sent, { l with inFlight := l.inFlight ++ wireBytes (lay.pack p.xtFrameBytes frame) }⟩

/-! ### The two cores (R262) -/

/-- The device around the block: the driver's rings on the core that owns the bus, and, where the router runs on another
core, that core's rings, the link in each direction, and whether a fatal assertion has halted that core. The cores share none
of it (R262). -/
structure Device where
  driver : Rings := {}
  router : Rings := {}
  toRouter : Link := {}
  toBus : Link := {}
  routerHalted : Bool := false
  deriving DecidableEq, Repr

/-- The device around the block, and the block. -/
structure Whole where
  device : Device
  state : State
  deriving DecidableEq, Repr

/-- One core has both the router and the block: the device has the bus, and its frames cross no cores (R262, R266). -/
def Capabilities.oneCore (k : Capabilities) : Bool := k.bus && !k.crossTile

/-- What a send of a period leaves: its outcome, if there was one, and the device. It has no effect on the block (R301). -/
structure ForwardDone where
  outcome : Option SendOutcome
  device : Device
  deriving DecidableEq, Repr

/-- Raw bus frames to the router's core, after the engine (R262): the oldest frame of the driver's receive ring, filled with
silence where the ring lacks slots (R280 (2)); `halted`: the block's core is. That the frame of a send whose bounded wait ran
out is dropped is log entry 24 (DEDUCED from R280 (2)). -/
def forwardToRouter (k : Capabilities) (lay : BlobLayout) (p : Params) (expired halted : Bool) (d : Device) : ForwardDone :=
  if halted || !k.announces then ⟨none, d⟩
  else
    let r := send lay p expired (wholeFrame p.frameCount d.driver.rx) d.toRouter
    ⟨some r.outcome, { d with driver := { d.driver with rx := d.driver.rx.drop p.frameCount }, toRouter := r.link }⟩

/-- Processed frames to the bus's core, before the engine (R262): from the transmit ring of the router's core. -/
def forwardToBus (k : Capabilities) (lay : BlobLayout) (p : Params) (expired : Bool) (d : Device) : ForwardDone :=
  if d.routerHalted || !k.announces then ⟨none, d⟩
  else
    let r := send lay p expired (wholeFrame p.frameCount d.router.tx) d.toBus
    ⟨some r.outcome, { d with router := { d.router with tx := d.router.tx.drop p.frameCount }, toBus := r.link }⟩

/-- What the two sends of a period leave. -/
structure PeriodDone where
  toRouter : Option SendOutcome
  toBus : Option SendOutcome
  device : Device
  deriving DecidableEq, Repr

/-- The sends of one period (R263): each sender sends once. -/
def forwardPeriod (k : Capabilities) (lay : BlobLayout) (p : Params) (expiredRouter expiredBus halted : Bool) (d : Device) :
    PeriodDone :=
  let a := forwardToRouter k lay p expiredRouter halted d
  let b := forwardToBus k lay p expiredBus a.device
  ⟨a.outcome, b.outcome, b.device⟩

/-- The slots of a payload, if one was read. -/
def BlobLayout.slots (lay : BlobLayout) (blob : Option (List Byte)) : List Slot :=
  match blob with
  | some b => lay.unpack b
  | none => []

/-- The receiver on the bus's core: a frame it reads goes to the end of the driver's transmit ring, which has room for `room`
slots (R250, R262, R280 (2)). -/
def receiveAtBus (k : Capabilities) (lay : BlobLayout) (expired : Bool) (room : Nat) (w : Whole) :
    Host.Outcome Whole Fault Refusal :=
  let d := w.device
  andThen (receiverTurn k expired d.toBus.receiver w.state) fun r =>
    .next ⟨{ d with
      driver := { d.driver with tx := appendWithin room d.driver.tx (lay.slots r.blob) }
      toBus := { d.toBus with receiver := r.receiver } }, r.state⟩

/-- The receiver on the router's core: a frame it reads goes to the end of that core's receive ring, which has room for `room`
slots (R262, R280 (2)). -/
def receiveAtRouter (k : Capabilities) (lay : BlobLayout) (expired : Bool) (room : Nat) (p : Params) (d : Device) : Device :=
  if k.announces then
    let r := routerReceiverTurn p expired d.toRouter.receiver d.routerHalted
    { d with
      router := { d.router with rx := appendWithin room d.router.rx (lay.slots r.blob) }
      toRouter := { d.toRouter with receiver := r.receiver }
      routerHalted := r.halted }
  else d

/-! ### The router on its core (R255, R262) -/

/-- A contract violation on the router's core halts that core (R280 (1)): with `HALT` where it is the block's core. -/
def failAtRouter (k : Capabilities) (cause : Nat) (w : Whole) : Host.Outcome Whole Fault Refusal :=
  if k.oneCore then andThen (perform (softwareFatal cause) w.state) fun t => .next { w with state := t }
  else .next { w with device := { w.device with routerHalted := true } }

/-- The rings the router reads and writes: those of its own core, which are the driver's where one core has both. -/
def Device.routerRings (k : Capabilities) (d : Device) : Rings := if k.oneCore then d.driver else d.router

def Device.setRouterRings (k : Capabilities) (r : Rings) (d : Device) : Device :=
  if k.oneCore then { d with driver := r } else { d with router := r }

/-- The router's core is halted, by the block where one core has both. -/
def Whole.routerStopped (k : Capabilities) (w : Whole) : Bool := if k.oneCore then w.state.halted else w.device.routerHalted

/-- What a capture leaves: its answer, if the core runs, the device and the block. -/
structure CaptureDone where
  captured : Option Captured
  whole : Whole
  deriving DecidableEq, Repr

/-- A capture on the router's core, if it runs; a contract violation halts that core (R260, R280 (1)). -/
def routerCapture (k : Capabilities) (sel : SourceSinkSelection) (receives : List (Option InputFrame)) (ext : InputFrame)
    (w : Whole) : Host.Outcome CaptureDone Fault Refusal :=
  if w.routerStopped k then .next ⟨none, w⟩
  else match capture k w.state.par.frameCount sel receives ext (w.device.routerRings k) with
    | .frame i rest r => .next ⟨some (.frame i rest r), { w with device := w.device.setRouterRings k r }⟩
    | .waits => .next ⟨some .waits, w⟩
    | .violation => andThen (failAtRouter k 1 w) fun v => .next ⟨some .violation, v⟩

/-- What a dispatch leaves: its answer, if the core runs, the device and the block. -/
structure DispatchDone where
  dispatched : Option (Except Nat Dispatched)
  whole : Whole
  deriving DecidableEq

/-- A dispatch on the router's core, if it runs, to a transmit ring with room for `room` slots; a contract violation halts that
core (R260, R280 (1)). -/
def routerDispatch (k : Capabilities) (fmt : BusFormat) (room : Nat) (sel : SourceSinkSelection) (ready : Sink → Bool)
    (n : Counts) (o : OutputFrame) (w : Whole) : Host.Outcome DispatchDone Fault Refusal :=
  if w.routerStopped k then .next ⟨none, w⟩
  else match dispatch k fmt room w.state.par.frameCount sel ready n o (w.device.routerRings k) with
    | .ok r => .next ⟨some (.ok r), { w with device := w.device.setRouterRings k r.rings }⟩
    | .error cause => andThen (failAtRouter k cause w) fun v => .next ⟨some (.error cause), v⟩

/-- A bus sample slot on the device, if the block's core runs: the driver's rings alone take part (R250, R262). -/
def deviceSlot (k : Capabilities) (dirs : List Direction) (room : Nat) (bus : Slot) (w : Whole) :
    Host.Outcome (Option Slot × Whole) Fault Refusal :=
  if w.state.halted then .next (none, w)
  else andThen (busSlot k dirs room bus w.device.driver w.state) fun e =>
    .next (e.out, ⟨{ w.device with driver := e.rings }, e.state⟩)

end Sys2Proof.Machine
end

