-- ==== Sys2Proof/Machine/Schedule.lean ====
section
/-! DEFINITION. Scheduling around the block (45_environment.md R265, 90_conflicts.md C4; 70_reset_and_hazards.md R322, R323): the
tasks of the audio loop in moves of one ring slot or less, the hot path that may interrupt them between any two moves, start-up,
and the bring-up wait before the loop. A schedule is a list of moves in any order. None of it is state of the block (10_state.md
R50) and no command uses it. -/

namespace Sys2Proof.Machine

/-- What is fixed for the device: its capabilities, the bus format, the layout of blobs, and the room of each ring. The
spec gives no ring of the router's core a room. DESIGN CHOICE, log entry 25: its transmit ring has the room of the driver's,
`txRoom`, and its receive ring that of the driver's, `rxRoom`. -/
structure Site where
  caps : Capabilities
  format : BusFormat
  layout : BlobLayout
  txRoom : Nat
  rxRoom : Nat

/-- Where the software is in R322: its allocations and the `INIT` commands (steps 2 to 4), the wait for the other subsystems'
readiness (step 5, R323), the audio loop (step 6). -/
inductive Stage where
  | startUp
  | bringUp
  | audioLoop
  deriving DecidableEq, Repr

/-- Where the router's task is in a period: at the read of the microphone array, which blocks (R257); laying the selected
sources over it, with the slots taken from the receive ring so far; waiting for the external processing of the frame;
dispatching, with the slots still to go to the transmit ring and the other sinks still to be served (R258). One task has one phase,
so the capture of the next frame begins only when the dispatch of this one is done: DESIGN CHOICE, log entry 25, for R255 says
only that a dispatch comes after the external processing. -/
inductive RouterPhase where
  | readsMic
  | overlays (mic : InputFrame) (taken : List Slot)
  | awaitsProcessing
  | dispatches (o : OutputFrame) (toBus : List Slot) (others : List Sink)
  deriving DecidableEq, Repr

/-- The device between two moves: the device and the block, the selection (R259), the stage, and where each task is. A sender
has the slots of its frame taken from its ring so far, a receiver the slots of a payload not yet in its ring. -/
structure Audio where
  whole : Whole
  selection : SourceSinkSelection
  stage : Stage := .startUp
  router : RouterPhase := .readsMic
  takenAtBus : List Slot := []
  takenAtRouter : List Slot := []
  leftAtBus : List Slot := []
  leftAtRouter : List Slot := []
  deriving DecidableEq, Repr

def Audio.setDevice (d : Device) (a : Audio) : Audio := { a with whole := { a.whole with device := d } }

def Audio.setState (t : State) (a : Audio) : Audio := { a with whole := { a.whole with state := t } }

def Audio.setRouter (x : RouterPhase) (a : Audio) : Audio := { a with router := x }

/-- The rings the router's task works on. -/
def Audio.rings (k : Capabilities) (a : Audio) : Rings := a.whole.device.routerRings k

def Audio.setRings (k : Capabilities) (r : Rings) (a : Audio) : Audio := a.setDevice (a.whole.device.setRouterRings k r)

/-- What a move gives to the world outside. -/
inductive Output where
  | nothing
  /-- A slot on the bus (R251). -/
  | onBus (x : Slot)
  /-- An input frame for the external processing (R255). -/
  | toPipeline (i : InputFrame)
  /-- A frame pushed to a sink outside the driver (R258). -/
  | pushed (x : Sink) (o : OutputFrame)
  /-- The answer of the dispatch callback (R260). -/
  | freed (d : Disposition)
  /-- What became of a sender's blob (R263). -/
  | forwarded (o : SendOutcome)
  deriving DecidableEq, Repr

/-- What a move leaves. -/
structure AudioDone where
  output : Output := .nothing
  audio : Audio
  deriving DecidableEq, Repr

/-- The head of a ring, silence where it has none (R280 (2)), and the ring without it. -/
def takeSlot : List Slot → Slot × List Slot
  | [] => (⟨0, 0⟩, [])
  | x :: xs => (x, xs)

/-! ### The router's task (R255 to R260, R265) -/

/-- What a move of the router's task meets: what a receive of the microphone array returns, the external bus's samples, the
processed frame with the counts of its callback once it is there, the sink to be served now, and whether that sink's bounded
wait ran out. -/
structure RouterInput where
  receive : Option InputFrame := none
  ext : InputFrame := ⟨⟨[], []⟩, ⟨[], []⟩⟩
  processed : Option (Counts × OutputFrame) := none
  sink : Sink := .bus
  expired : Bool := false
  deriving DecidableEq, Repr

/-- A contract violation of a callback halts the router's core (R260, R280 (1)). Its `HALT` waits while a `PLL.STEP` is held, as
every command does (R78). -/
def routerViolates (k : Capabilities) (cause : Nat) (a : Audio) : Host.Outcome AudioDone Fault Refusal :=
  if k.oneCore && a.whole.state.hold then .next { audio := a }
  else andThen (failAtRouter k cause a.whole) fun w => .next { audio := { a with whole := w } }

/-- A move of the capture after the microphone array was drained (R257): a slot of the receive ring while the bus feeds a group
and the frame lacks slots, then the input frame. -/
def overlayMove (site : Site) (inp : RouterInput) (mic : InputFrame) (taken : List Slot) (a : Audio) :
    Host.Outcome AudioDone Fault Refusal :=
  let f := a.whole.state.par.frameCount
  let rings := a.rings site.caps
  if feedsBus site.caps a.selection && decide (taken.length < f) then
    let x := takeSlot rings.rx
    .next { audio := (a.setRings site.caps { rings with rx := x.2 }).setRouter (.overlays mic (taken ++ [x.1])) }
  else match assemble site.caps f a.selection mic (groupOfSlots taken) inp.ext with
    | some i => .next ⟨.toPipeline i, a.setRouter .awaitsProcessing⟩
    | none => routerViolates site.caps 1 a

/-- The sinks outside the driver that a frame goes to. -/
def Site.others (site : Site) (sel : SourceSinkSelection) : List Sink :=
  [.externalBus, .inference].filter fun x => x.active site.caps sel

/-- The slots of a frame that go to the transmit ring. -/
def Site.busSlots (site : Site) (sel : SourceSinkSelection) (o : OutputFrame) : List Slot :=
  if Sink.bus.active site.caps sel then site.format.slots o else []

/-- The call of the dispatch callback, once the frame has been processed (R258, R260). -/
def drainMove (site : Site) (inp : RouterInput) (a : Audio) : Host.Outcome AudioDone Fault Refusal :=
  match inp.processed with
  | none => .next { audio := a }
  | some (n, o) =>
    match drainFault a.whole.state.par.frameCount n o with
    | some cause => routerViolates site.caps cause a
    | none => .next { audio := a.setRouter (.dispatches o (site.busSlots a.selection o) (site.others a.selection)) }

/-- A move of a dispatch (R258): one slot for the bus, or one of the other sinks, whichever is served now; none waits for
another, and what a sink's bounded wait ran out for does not go there (log entry 21). Once nothing is left the buffer may be
freed (R260) and the next period begins. -/
def dispatchMove (site : Site) (inp : RouterInput) (o : OutputFrame) (toBus : List Slot) (others : List Sink) (a : Audio) :
    AudioDone :=
  if toBus = [] ∧ others = [] then ⟨.freed .mayBeFreed, a.setRouter .readsMic⟩
  else match inp.sink with
    | .bus =>
      let rings := a.rings site.caps
      if inp.expired then { audio := a.setRouter (.dispatches o [] others) }
      else
        { audio := (a.setRings site.caps { rings with tx := appendWithin site.txRoom rings.tx (toBus.take 1) }).setRouter
            (.dispatches o (toBus.drop 1) others) }
    | x =>
      if x ∈ others then
        ⟨if inp.expired then .nothing else .pushed x o, a.setRouter (.dispatches o toBus (others.erase x))⟩
      else { audio := a }

/-- A move of the router's task, if its core runs and the loop has begun: the read of the microphone array takes the first
receive that returns samples, without a bound on the wait (R257, R265). Captures and dispatches alternate: DESIGN CHOICE, log
entry 25. -/
def routerMove (site : Site) (inp : RouterInput) (a : Audio) : Host.Outcome AudioDone Fault Refusal :=
  if a.whole.routerStopped site.caps || decide (a.stage ≠ .audioLoop) then .next { audio := a }
  else match a.router with
    | .readsMic => .next { audio := match inp.receive with
        | some mic => a.setRouter (.overlays mic [])
        | none => a }
    | .overlays mic taken => overlayMove site inp mic taken a
    | .awaitsProcessing => drainMove site inp a
    | .dispatches o toBus others => .next (dispatchMove site inp o toBus others a)

/-! ### The transport's tasks (R263, R265) -/

/-- A move of the sender on the block's core: a slot of the driver's receive ring while its frame lacks slots, then the send. It
does not touch the block (R301). -/
def sendToRouter (site : Site) (expired : Bool) (a : Audio) : AudioDone :=
  let d := a.whole.device
  if a.whole.state.halted || !site.caps.announces || decide (a.stage ≠ .audioLoop) then { audio := a }
  else if a.takenAtBus.length < a.whole.state.par.frameCount then
    let x := takeSlot d.driver.rx
    { audio := { a.setDevice { d with driver := { d.driver with rx := x.2 } } with takenAtBus := a.takenAtBus ++ [x.1] } }
  else
    let r := send site.layout a.whole.state.par expired a.takenAtBus d.toRouter
    ⟨.forwarded r.outcome, { a.setDevice { d with toRouter := r.link } with takenAtBus := [] }⟩

/-- A move of the sender on the router's core. -/
def sendToBus (site : Site) (expired : Bool) (a : Audio) : AudioDone :=
  let d := a.whole.device
  if d.routerHalted || !site.caps.announces || decide (a.stage ≠ .audioLoop) then { audio := a }
  else if a.takenAtRouter.length < a.whole.state.par.frameCount then
    let x := takeSlot d.router.tx
    { audio :=
      { a.setDevice { d with router := { d.router with tx := x.2 } } with takenAtRouter := a.takenAtRouter ++ [x.1] } }
  else
    let r := send site.layout a.whole.state.par expired a.takenAtRouter d.toBus
    ⟨.forwarded r.outcome, { a.setDevice { d with toBus := r.link } with takenAtRouter := [] }⟩

/-- A move of the receiver on the block's core: a slot of its payload to the driver's transmit ring, or a turn (R263). Its
`XT.CHK` waits while a `PLL.STEP` is held (R78). -/
def takeAtBus (site : Site) (expired : Bool) (a : Audio) : Host.Outcome AudioDone Fault Refusal :=
  let d := a.whole.device
  if a.whole.state.halted then .next { audio := a }
  else match a.leftAtBus with
    | x :: xs => .next
      { audio := { a.setDevice { d with driver := { d.driver with tx := appendWithin site.txRoom d.driver.tx [x] } } with
        leftAtBus := xs } }
    | [] =>
      if a.whole.state.hold then .next { audio := a }
      else andThen (receiverTurn site.caps expired d.toBus.receiver a.whole.state) fun r =>
        .next { audio := { (a.setDevice { d with toBus := { d.toBus with receiver := r.receiver } }).setState r.state with
          leftAtBus := site.layout.slots r.blob } }

/-- A move of the receiver on the router's core. -/
def takeAtRouter (site : Site) (expired : Bool) (a : Audio) : AudioDone :=
  let d := a.whole.device
  if d.routerHalted || !site.caps.announces then { audio := a }
  else match a.leftAtRouter with
    | x :: xs =>
      { audio := { a.setDevice { d with router := { d.router with rx := appendWithin site.rxRoom d.router.rx [x] } } with
        leftAtRouter := xs } }
    | [] =>
      let r := routerReceiverTurn a.whole.state.par expired d.toRouter.receiver d.routerHalted
      { audio := { a.setDevice { d with
            toRouter := { d.toRouter with receiver := r.receiver }, routerHalted := r.halted } with
        leftAtRouter := site.layout.slots r.blob } }

/-! ### Start-up, the hot path and the outside world -/

/-- Steps 2 to 4 of R322: the allocations, whose failure is `HALT 3` (R280 (3), R321), and the `INIT` commands. Which core of a
cross-tile device a failed allocation halts is not in the spec: the frame buffers are the router's core's, from which the block
cannot be reached (R262). DESIGN CHOICE, log entry 25: one draw stands for the allocations of both cores, and its failure halts
the core that owns the bus, with `HALT 3`; the router's core is halted only on a device without the bus. -/
def startMove (site : Site) (allocated pllFirst : Bool) (a : Audio) : Host.Outcome AudioDone Fault Refusal :=
  let s := a.whole.state
  let d := a.whole.device
  if decide (a.stage ≠ .startUp) || s.hold || s.halted then .next { audio := a }
  else if allocated then
    andThen (perform (startUp site.caps s.par pllFirst) s) fun t => .next { audio := { a.setState t with stage := .bringUp } }
  else
    andThen (perform (allocationFailed site.caps) s) fun t =>
      .next { audio := (a.setDevice { d with routerHalted := d.routerHalted || !site.caps.bus }).setState t }

/-- The hot path may run now: the loop has begun, so that nothing is issued before the readiness signal (R323), and no
`PLL.STEP` is held (R78). It asks nothing of any task (R265). -/
def Audio.hotRuns (a : Audio) : Bool := decide (a.stage = .audioLoop) && !a.whole.state.hold

/-- The hot path at a sample slot (R251, R252). -/
def slotMove (site : Site) (dirs : List Direction) (bus : Slot) (a : Audio) : Host.Outcome AudioDone Fault Refusal :=
  if a.hotRuns then
    andThen (deviceSlot site.caps dirs site.rxRoom bus a.whole) fun r =>
      .next ⟨match r.1 with
        | some x => .onBus x
        | none => .nothing, { a with whole := r.2 }⟩
  else .next { audio := a }

/-- The hot path's issue of `PLL.STEP`, on a device with the bus and an instance with the PLL (R191, R266). -/
def controlMove (site : Site) (a : Audio) : Host.Outcome AudioDone Fault Refusal :=
  let s := a.whole.state
  if a.hotRuns && site.caps.bus && s.par.pllEn && !s.halted then
    andThen (perform [wrCmd (encode .pllStep)] s) fun t => .next { audio := a.setState t }
  else .next { audio := a }

/-- The hot path's check of a frame exchange (R232, R260). -/
def exchangeMove (site : Site) (ch len : Nat) (a : Audio) : Host.Outcome AudioDone Fault Refusal :=
  if a.hotRuns then
    andThen (perform (exchange site.caps ch len) a.whole.state) fun t => .next { audio := a.setState t }
  else .next { audio := a }

/-- An event of the block's environment that is no access of the hot path: the health reporter's reads (R80), reference edges,
hardware reset, after which the software starts again (log entry 25). -/
def environmentMove (site : Site) (e : Event) (a : Audio) : Host.Outcome AudioDone Fault Refusal :=
  match e with
  | .hot _ => .next { audio := a }
  | .task _ _ => andThen (perform (site.caps.useBlock [e]) a.whole.state) fun t => .next { audio := a.setState t }
  | .refEdge _ _ => andThen (perform [e] a.whole.state) fun t => .next { audio := a.setState t }
  | .hwReset _ =>
    andThen (perform [e] a.whole.state) fun t => .next { audio := { whole := ⟨{}, t⟩, selection := a.selection } }

/-- A move of the device: of a task, of the hot path, or of the world outside. -/
inductive Move where
  | start (allocated pllFirst : Bool)
  /-- The readiness signal of the other subsystems (R323). -/
  | ready
  /-- A change of the selection, which no one makes during the audio flow (R259). -/
  | select (sel : SourceSinkSelection)
  | router (inp : RouterInput)
  | sendToRouter (expired : Bool)
  | sendToBus (expired : Bool)
  | receiveAtBus (expired : Bool)
  | receiveAtRouter (expired : Bool)
  | slot (dirs : List Direction) (bus : Slot)
  | control
  | exchange (ch len : Nat)
  | environment (e : Event)
  /-- Bytes arrive at a receiver (R264). -/
  | arriveAtBus (n : Nat)
  | arriveAtRouter (n : Nat)
  deriving DecidableEq, Repr

/-- One move (R265). -/
def move (site : Site) (m : Move) (a : Audio) : Host.Outcome AudioDone Fault Refusal :=
  let d := a.whole.device
  match m with
  | .start allocated pllFirst => startMove site allocated pllFirst a
  | .ready => .next { audio := if a.stage = .bringUp then { a with stage := .audioLoop } else a }
  | .select sel => .next { audio := if a.stage = .audioLoop then a else { a with selection := sel } }
  | .router inp => routerMove site inp a
  | .sendToRouter expired => .next (sendToRouter site expired a)
  | .sendToBus expired => .next (sendToBus site expired a)
  | .receiveAtBus expired => takeAtBus site expired a
  | .receiveAtRouter expired => .next (takeAtRouter site expired a)
  | .slot dirs bus => slotMove site dirs bus a
  | .control => controlMove site a
  | .exchange ch len => exchangeMove site ch len a
  | .environment e => environmentMove site e a
  | .arriveAtBus n => .next { audio := a.setDevice { d with toBus := d.toBus.deliver n } }
  | .arriveAtRouter n => .next { audio := a.setDevice { d with toRouter := d.toRouter.deliver n } }

/-- Moves in the given order: any interleaving of the tasks, the hot path and the world outside is one list (C4). -/
def moves (site : Site) : List Move → Audio → Host.Outcome Audio Fault Refusal
  | [], a => .next a
  | m :: ms, a => andThen (move site m a) fun d => moves site ms d.audio

end Sys2Proof.Machine
end

