-- ==== Sys2Proof/Safety.lean ====
section
/-! DEFINITION. What claims speak of: a run without a fatal assertion (60_exceptions.md R288), the four outcomes of a
command (00_scope.md R10, 60_exceptions.md R289), the invariant of the reachable states (10_state.md R24 to R46), and runs
of `PLL.STEP` with their phase errors (43_pll.md R207). -/

namespace Sys2Proof.Machine

/-- No fatal assertion has been raised: the premise every claim can state (R288). -/
abbrev Running (s : State) : Prop := s.halted = false

/-- The event the next step takes, and the tape without it: the head of the tape, and while a `PLL.STEP` is held the
environment's next move that is not `HOT`'s (R78, R203). -/
abbrev State.Meets (s : State) (e : Event) (rest : List Event) : Prop :=
  (s.hold = false ∧ s.tape = e :: rest) ∨ (s.hold = true ∧ nextEnv s.tape = some (e, rest))

/-! ### The outcome of a command -/

/-- The four outcomes of R10. -/
inductive Fate where
  | completes
  | fatal (cause : BitVec 4)
  | ignored
  | held
  deriving DecidableEq, Repr

/-- The sequence precondition of a command fails (R281 cause 6). -/
def outOfSequence (i : Instr) (s : State) : Bool :=
  match i with
  | .srcInit => s.srcReady
  | .srcUp _ | .srcDown _ => !s.srcReady
  | .pllInit => !s.par.pllEn || s.pll.ready
  | .pllStep => !s.par.pllEn || !s.pll.ready
  | .xferChk _ _ | .xtChk _ | .halt _ => false

/-- The cause an operand check raises (R289, item 4). -/
def operandFault (i : Instr) (s : State) : Option (BitVec 4) :=
  match i with
  | .xferChk ch len =>
    if len ≠ s.par.frameCount then some causeFrameSize else if ch ≠ nch then some causeChannelCount else none
  | .xtChk bytes => if bytes ≠ s.par.xtFrameBytes then some causeXtileDesync else none
  | .halt cause => some (if cause = 0 then causeIllegalCmd else BitVec.ofNat 4 cause)
  | .srcInit | .srcUp _ | .srcDown _ | .pllInit | .pllStep => none

/-- A reference edge is the environment's next move. -/
def edgeNext (s : State) : Bool :=
  match nextEnv s.tape with
  | some (.refEdge _ _, _) => true
  | _ => false

/-- The outcome of a command, by the priority of R289. -/
def fate (i : Instr) (s : State) : Fate :=
  if s.halted then .ignored
  else if outOfSequence i s then .fatal causeBadSequence
  else match operandFault i s with
    | some k => .fatal k
    | none => if i = .pllStep ∧ edgeNext s = false then .held else .completes

/-! ### The invariant of the reachable states -/

/-- The largest phase error R38 names. -/
def errMax (p : Params) : Int := (2 ^ p.cntW - 1) * p.ratioNum / p.ratioDen

/-- The controller is in range: R38 to R43, R45, R208. -/
structure PllInv (p : Params) (l : Pll) : Prop where
  snapshots : l.refAcc.toNat < 2 ^ p.cntW ∧ l.fbAcc.toNat < 2 ^ p.cntW
  off : l.ready = false → l.lock = false ∧ l.lockOld = false ∧ l.primed = false
  en : l.ready = true → p.pllEn = true
  err : l.ready = true → -(2 ^ p.cntW - 1) ≤ l.err.toInt ∧ l.err.toInt ≤ errMax p
  integ : l.ready = true → -(p.integMax : Int) ≤ l.integ.toInt ∧ l.integ.toInt ≤ p.integMax
  sel : l.ready = true → l.sel.toNat < p.lutLen
  osc : l.ready = true → (l.oscDiv, l.oscFrac) = lutEntry p l.sel.toNat
  lockCnt : l.ready = true → l.lockCnt.toNat ≤ p.lockCount
  lock : l.lock = true → l.lockCnt.toNat = p.lockCount
  unprimed : l.ready = true → l.primed = false →
    l.err = 0 ∧ l.integ = 0 ∧ l.sel.toNat = p.selNom ∧ l.lockCnt = 0 ∧ l.lock = false ∧ l.lockOld = false

/-- What holds in every reachable state. -/
structure State.Inv (s : State) : Prop where
  upRings : ∀ c, (s.up.get c).uh.length = s.par.t
  downRings : ∀ c, (s.down.get c).dh.p0.length = s.par.t ∧ (s.down.get c).dh.p1.length = s.par.t ∧
    (s.down.get c).dh.p2.length = s.par.t
  upPhases : s.srcReady = true → s.up.ch0.uph = s.up.ch1.uph ∧ s.up.ch0.uph.toNat < 3
  downPhases : s.srcReady = true → s.down.ch0.dph = s.down.ch1.dph ∧ s.down.ch0.dph.toNat < 3
  counts : s.upcnt.toNat ≤ 1 ∧ s.dncnt.toNat ≤ 1
  pll : PllInv s.par s.pll
  causes : s.halted = true ↔ s.cause ≠ 0
  holds : s.hold = true → s.halted = false ∧ s.pll.ready = true

/-! ### Sums without wrap (40_src_common.md R135) -/

/-- The sum of the absolute values of a coefficient row. -/
def absSum : List Word → Nat
  | [] => 0
  | c :: cs => c.toInt.natAbs + absSum cs

/-- `L1` of R135. -/
def l1 (p : Params) : Nat := absSum p.coef.p0 + absSum p.coef.p1 + absSum p.coef.p2

/-! ### Runs of control cycles (43_pll.md R207) -/

/-- Control cycles with the given snapshots. -/
def cycles (F : LoopFilter) (p : Params) : List (Word × Word) → Pll → Pll
  | [], l => l
  | (r, f) :: es, l => cycles F p es (controlCycle F p r f l)

/-- The phase errors of control cycles with the given snapshots, from the snapshots before them. -/
def cycleErrors (p : Params) : Word → Word → List (Word × Word) → List Int
  | _, _, [] => []
  | ra, fa, (r, f) :: es => phaseError p ra fa r f :: cycleErrors p r f es

/-- `PLL.STEP` commands that each meet a reference edge with the given counter answers, whatever the environment has ready
after it. -/
inductive PllRun : State → List (Word × Word) → State → Prop
  | nil (s : State) : PllRun s [] s
  | cons {s t u : State} {r f : Word} {es : List (Word × Word)} (rest : List Event)
      (run : exec .pllStep (setTape (.refEdge r f :: rest) s) = .next t) (more : PllRun t es u) :
      PllRun s ((r, f) :: es) u

/-- Every one of the last `n` of a list of phase errors is within the window. -/
abbrev lastInWindow (p : Params) (n : Nat) (es : List Int) : Prop :=
  ∀ e ∈ es.drop (es.length - n), e.natAbs ≤ p.lockWindow

end Sys2Proof.Machine
end

