-- ==== Sys2Proof/Certificates/Slice0/Obligations.lean ====
section
/-! DEFINITION. The statements for the provers, from the numbered rules of spec/. Each docstring names the rule. -/

open Sys2Proof Sys2Proof.Machine

/-! ### Encoding (30_encoding.md) -/

/-- R103, R107, R111: every well-formed command is decoded from its word, operands and all. -/
def Obligations.DecodeOfEncode : Prop :=
  ∀ i : Instr, i.WellFormed → decode (encode i) = .ok i

/-- R100, R107: a word that decodes is the word of the command it decodes to, whose operands are in range. -/
def Obligations.EncodeOfDecode : Prop :=
  ∀ (w : Word) (i : Instr), decode w = .ok i → i.WellFormed ∧ encode i = w

/-- R107: the decoder, written from the formats, selects the row of the table whose mask and match the word meets, and at
most one row matches. -/
def Obligations.DecodeAgreesWithOpcodeTable : Prop :=
  (∀ w : Word, ∀ r ∈ opcodeTable, r.selects w = true ↔ ∃ i, decode w = .ok i ∧ i.mnemonic = r.mnemonic) ∧
  ∀ w : Word, (opcodeTable.filter fun r => r.selects w).length ≤ 1

/-- R109: the illegal words are those that match no row, and each is rejected by the reason R109 gives. -/
def Obligations.IllegalWordsMatchNoRow : Prop :=
  ∀ w : Word,
    ((∃ e, decode w = .error e) ↔ ∀ r ∈ opcodeTable, r.selects w = false) ∧
    ((∃ k, decode w = .error (.reservedOpcode k)) ↔ field w 31 28 = 0 ∨ 9 ≤ field w 31 28) ∧
    (∀ k, decode w = .error (.reservedBits k) → k = field w 31 28 ∧ 1 ≤ k ∧ k ≤ 8)

/-- R110: the legal words number 17825815. -/
def Obligations.LegalWordCount : Prop :=
  ∃ l : List Word, l.Nodup ∧ (∀ w, w ∈ l ↔ ∃ i, decode w = .ok i) ∧
    l.length = 1 + 2 + 2 + 1 + 1 + 2 ^ 20 + 2 ^ 24 + 16 ∧ l.length = 17825815

/-- A few words written out from the formats R102 (vectors E2, E5, E6, E8, E12, E13, E20, E28). -/
def Obligations.SpecWordsDecode : Prop :=
  decode 0x10000000 = .ok .srcInit ∧ decode 0x20000000 = .ok (.srcUp 0) ∧ decode 0x30000001 = .ok (.srcDown 1) ∧
  decode 0x40000000 = .ok .pllInit ∧ decode 0x50000000 = .ok .pllStep ∧ decode 0x600200F0 = .ok (.xferChk 2 240) ∧
  decode 0x70FFFFFF = .ok (.xtChk 16777215) ∧ decode 0x80000003 = .ok (.halt 3) ∧
  decode 0 = .error (.reservedOpcode 0) ∧ decode 0x60100000 = .error (.reservedBits 6)

/-! ### Issue of a command (R100, R109, R286, R289) -/

/-- R100: a legal word written to CMD runs its command: the step is `exec` on the state without that event. -/
def Obligations.StepRunsTheCommand : Prop :=
  ∀ (s : State) (w : Word) (i : Instr) (rest : List Event),
    s.hold = false → s.halted = false → s.tape = wrCmd w :: rest → decode w = .ok i →
    step s = exec i { s with tape := rest }

/-- R109, R284: an illegal word written to CMD raises Fatal(ILLEGAL_CMD), cause 5, and nothing else. -/
def Obligations.IllegalWordIsFatal : Prop :=
  ∀ (s : State) (w : Word) (rest : List Event),
    s.hold = false → s.halted = false → s.tape = wrCmd w :: rest → (∀ r ∈ opcodeTable, r.selects w = false) →
    step s = .next { s with tape := rest, halted := true, cause := 5 }

/-- R286: while halted every write to CMD is ignored, legal or not, and no command does anything. -/
def Obligations.HaltedIgnoresCommands : Prop :=
  ∀ s : State, s.halted = true →
    (∀ i : Instr, exec i s = .next s) ∧
    (∀ (w : Word) (rest : List Event), s.hold = false → s.tape = wrCmd w :: rest →
      step s = .next { s with tape := rest })

/-- R286, R287: in a halted state a step is a hardware reset, or leaves everything of the block but `UPIN` and `DNIN` as it
is: `HALTED` and the first cause stay. -/
def Obligations.HaltedStateIsFrozen : Prop :=
  ∀ s t : State, s.Inv → s.halted = true → step s = .next t →
    (∃ d rest, s.tape = .hwReset d :: rest ∧ t = hardReset d { s with tape := rest }) ∨
    (t.halted = true ∧ t.cause = s.cause ∧ t.pll = s.pll ∧ t.srcReady = s.srcReady ∧ t.upcnt = s.upcnt ∧
      t.dncnt = s.dncnt ∧ t.cfg = s.cfg ∧
      ∀ c, { t.up.get c with upin := (s.up.get c).upin } = s.up.get c ∧
        { t.down.get c with dnin := (s.down.get c).dnin } = s.down.get c)

/-- R10, R289: every command has exactly one of the four outcomes, chosen by the priority of R289. -/
def Obligations.OneOutcomePerCommand : Prop :=
  ∀ (i : Instr) (s : State), i.WellFormed → s.hold = false →
    match fate i s with
    | .ignored => exec i s = .next s
    | .fatal k => k ≠ 0 ∧ exec i s = .next { s with halted := true, cause := k }
    | .held => exec i s = .next { s with hold := true }
    | .completes => ∃ t, exec i s = .next t ∧ t.halted = false ∧ t.cause = s.cause ∧ t.hold = false

/-- R136, R151, R171, R198, R201: a command whose sequence precondition fails raises Fatal(BAD_SEQUENCE), cause 6, and
`PLL.STEP` does so before any waiting. -/
def Obligations.OutOfSequenceIsFatal : Prop :=
  ∀ s : State, s.halted = false →
    let bad := Host.Outcome.next (φ := Fault) (ρ := Refusal) { s with halted := true, cause := 6 }
    (s.srcReady = true → exec .srcInit s = bad) ∧
    (s.srcReady = false → ∀ a, exec (.srcUp a) s = bad ∧ exec (.srcDown a) s = bad) ∧
    (s.par.pllEn = false ∨ s.pll.ready = true → exec .pllInit s = bad) ∧
    (s.par.pllEn = false ∨ s.pll.ready = false → exec .pllStep s = bad)

/-! ### SRC engine (40, 41, 42) -/

/-- R136: `SRC.INIT` completes before the first one and leaves the state R136 gives. -/
def Obligations.SrcInitEffect : Prop :=
  ∀ s : State, s.halted = false → s.srcReady = false →
    ∃ t, exec .srcInit s = .next t ∧ t.srcReady = true ∧ t.upcnt = 0 ∧ t.dncnt = 0 ∧
      (∀ c, (t.up.get c).uph = 0 ∧ (t.up.get c).uh = List.replicate s.par.t 0 ∧
        (t.up.get c).upin = (s.up.get c).upin ∧ (t.up.get c).upout = (s.up.get c).upout ∧
        (t.down.get c).dph = 0 ∧ (t.down.get c).dsum = 0 ∧
        (t.down.get c).dh.p0 = List.replicate s.par.t 0 ∧ (t.down.get c).dh.p1 = List.replicate s.par.t 0 ∧
        (t.down.get c).dh.p2 = List.replicate s.par.t 0 ∧
        (t.down.get c).dnin = (s.down.get c).dnin ∧ (t.down.get c).dnout = (s.down.get c).dnout) ∧
      t = { s with srcReady := true, up := t.up, upcnt := 0, down := t.down, dncnt := 0 }

/-- R152, R153: `SRC.UP a` completes in every running state after `SRC.INIT`; each channel makes the transition of the
table, `UPCNT` says whether a sample was consumed, and nothing else changes. That the flag is not read at phases 1 and 2 is
the spec's decision D16, the ring after the push its decision D11. -/
def Obligations.SrcUpTransition : Prop :=
  ∀ (s : State) (a : Nat), s.halted = false → s.srcReady = true →
    ∃ t, exec (.srcUp a) s = .next t ∧
      (∀ c, let l := s.up.get c
            let l' := t.up.get c
        l'.upin = l.upin ∧
        (l.uph = 0 → l'.uph = 1 ∧ l'.uh = push s.par.t l.uh (if a = 1 then l.upin else 0) ∧
          l'.upout = firOut (fir s.par.coef.p2 l'.uh)) ∧
        (l.uph = 1 → l'.uph = 2 ∧ l'.uh = l.uh ∧ l'.upout = firOut (fir s.par.coef.p1 l.uh)) ∧
        (l.uph = 2 → l'.uph = 0 ∧ l'.uh = l.uh ∧ l'.upout = firOut (fir s.par.coef.p0 l.uh))) ∧
      t.upcnt = (if a = 1 ∧ (s.up.ch0.uph = 0 ∨ s.up.ch1.uph = 0) then 1 else 0) ∧
      t = { s with up := t.up, upcnt := t.upcnt }

/-- R172, R173: `SRC.DOWN s` completes in every running state after `SRC.INIT`; each channel makes the transition of the
table, only the ring of the invocation phase changes, `DNCNT` says whether a sample was produced, and nothing else
changes. That the sum starts afresh at phase 0 is the spec's decision D15, that the flag is not read before phase 2 its
decision D16. -/
def Obligations.SrcDownTransition : Prop :=
  ∀ (s : State) (sp : Nat), s.halted = false → s.srcReady = true →
    ∃ t, exec (.srcDown sp) s = .next t ∧
      (∀ c, let l := s.down.get c
            let l' := t.down.get c
        l'.dnin = l.dnin ∧
        (l.dph = 0 → l'.dph = 1 ∧ l'.dh = { l.dh with p0 := push s.par.t l.dh.p0 l.dnin } ∧
          l'.dsum = fir s.par.coef.p0 l'.dh.p0 ∧ l'.dnout = l.dnout) ∧
        (l.dph = 1 → l'.dph = 2 ∧ l'.dh = { l.dh with p1 := push s.par.t l.dh.p1 l.dnin } ∧
          l'.dsum = l.dsum + fir s.par.coef.p1 l'.dh.p1 ∧ l'.dnout = l.dnout) ∧
        (l.dph = 2 → l'.dph = 0 ∧ l'.dh = { l.dh with p2 := push s.par.t l.dh.p2 l.dnin } ∧ l'.dsum = l.dsum ∧
          l'.dnout = if sp = 1 then firOut (l.dsum + fir s.par.coef.p2 l'.dh.p2) else l.dnout)) ∧
      t.dncnt = (if sp = 1 ∧ (2 ≤ s.down.ch0.dph.toNat ∨ 2 ≤ s.down.ch1.dph.toNat) then 1 else 0) ∧
      t = { s with down := t.down, dncnt := t.dncnt }

/-- R26: a phase counter advances by one modulo 3 at every invocation, whatever the flow-control flag says. -/
def Obligations.PhaseAdvancesRegardless : Prop :=
  ∀ (s t : State) (a : Nat), s.halted = false → s.srcReady = true →
    (exec (.srcUp a) s = .next t → ∀ c, (t.up.get c).uph.toNat = ((s.up.get c).uph.toNat + 1) % 3 ∧
      (t.down.get c).dph = (s.down.get c).dph) ∧
    (exec (.srcDown a) s = .next t → ∀ c, (t.down.get c).dph.toNat = ((s.down.get c).dph.toNat + 1) % 3 ∧
      (t.up.get c).uph = (s.up.get c).uph)

/-- R153, R173, D16: the availability flag is read at upsample phase 0 only, the space flag at downsample phase 2 only. -/
def Obligations.FlagReadAtOnePhaseOnly : Prop :=
  ∀ (s : State) (a b : Nat),
    ((∀ c, (s.up.get c).uph ≠ 0) → exec (.srcUp a) s = exec (.srcUp b) s) ∧
    ((∀ c, (s.down.get c).dph = 0 ∨ (s.down.get c).dph = 1) → exec (.srcDown a) s = exec (.srcDown b) s)

/-- R153, D16: a starved or fed-on `SRC.UP` that takes no input does not read `UPIN`. -/
def Obligations.UpinUnreadWithoutInput : Prop :=
  ∀ (s t u : State) (a : Nat) (c : Chan) (v : Word),
    a ≠ 1 ∨ (s.up.get c).uph ≠ 0 →
    exec (.srcUp a) s = .next t → exec (.srcUp a) (setUpin c v s) = .next u → u = setUpin c v t

/-- R155: three consecutive `SRC.UP` complete, consume at most one input sample slot, exactly one when the flag of the
invocation at phase 0 is 1, and bring the phases back. -/
def Obligations.UpsampleRateIsOneInThree : Prop :=
  ∀ (s : State) (a b c : Nat), s.Inv → s.halted = false → s.srcReady = true →
    ∃ t u v, exec (.srcUp a) s = .next t ∧ exec (.srcUp b) t = .next u ∧ exec (.srcUp c) u = .next v ∧
      t.upcnt.toNat + u.upcnt.toNat + v.upcnt.toNat =
        (if (if s.up.ch0.uph = 0 then a else if s.up.ch0.uph = 1 then c else b) = 1 then 1 else 0) ∧
      ∀ k, (v.up.get k).uph = (s.up.get k).uph

/-- R175: three consecutive `SRC.DOWN` complete and produce exactly one output sample slot when the flag of the invocation
at phase 2 is 1, none otherwise, and bring the phases back. -/
def Obligations.DownsampleRateIsThreeToOne : Prop :=
  ∀ (s : State) (a b c : Nat), s.Inv → s.halted = false → s.srcReady = true →
    ∃ t u v, exec (.srcDown a) s = .next t ∧ exec (.srcDown b) t = .next u ∧ exec (.srcDown c) u = .next v ∧
      t.dncnt.toNat + u.dncnt.toNat + v.dncnt.toNat =
        (if (if s.down.ch0.dph = 0 then c else if s.down.ch0.dph = 1 then b else a) = 1 then 1 else 0) ∧
      ∀ k, (v.down.get k).dph = (s.down.get k).dph

/-- R174: three consecutive `SRC.DOWN` from phase 0, each after HOT wrote an input to `DNIN[c]`, give the finished sample in
closed form when the third has space. -/
def Obligations.DownsampleClosedForm : Prop :=
  ∀ (s t u v : State) (c : Chan) (x0 x1 x2 : Word) (a b : Nat),
    s.halted = false → s.srcReady = true → (s.down.get c).dph = 0 →
    exec (.srcDown a) (setDnin c x0 s) = .next t → exec (.srcDown b) (setDnin c x1 t) = .next u →
    exec (.srcDown 1) (setDnin c x2 u) = .next v →
    (v.down.get c).dnout = firOut (wrap64
      ((fir s.par.coef.p0 (push s.par.t (s.down.get c).dh.p0 x0)).toInt +
       (fir s.par.coef.p1 (push s.par.t (s.down.get c).dh.p1 x1)).toInt +
       (fir s.par.coef.p2 (push s.par.t (s.down.get c).dh.p2 x2)).toInt)) ∧ v.dncnt = 1

/-- R173 last row, R176: a drop costs the output and nothing else: with and without space the same invocation leaves states
that differ in `DNOUT` and `DNCNT` alone, and without it `DNOUT` is kept. -/
def Obligations.DropCostsOnlyTheOutput : Prop :=
  ∀ s t u : State, s.halted = false → s.srcReady = true →
    exec (.srcDown 0) s = .next t → exec (.srcDown 1) s = .next u →
    t.dncnt = 0 ∧ (∀ c, (t.down.get c).dnout = (s.down.get c).dnout) ∧
    t = { u with dncnt := 0, down := ⟨{ u.down.ch0 with dnout := s.down.ch0.dnout },
      { u.down.ch1 with dnout := s.down.ch1.dnout }⟩ }

/-- R134: lanes do not mix: what `SRC.UP` and `SRC.DOWN` leave in a channel does not depend on the other channel. -/
def Obligations.ChannelsDoNotMix : Prop :=
  ∀ (s s' t t' : State) (c : Chan) (a : Nat),
    s.cfg = s'.cfg → s.halted = s'.halted → s.srcReady = s'.srcReady →
    (s.up.get c = s'.up.get c → exec (.srcUp a) s = .next t → exec (.srcUp a) s' = .next t' →
      t.up.get c = t'.up.get c) ∧
    (s.down.get c = s'.down.get c → exec (.srcDown a) s = .next t → exec (.srcDown a) s' = .next t' →
      t.down.get c = t'.down.get c)

/-- R138 (a), R156, R177: on silent history and silent input the engine's outputs are silence and its history stays
silent. `SRC.DOWN` writes `DNOUT = 0` at phase 2 with space, and keeps `DNOUT` at phases 0 and 1 and without space. -/
def Obligations.SilenceStaysSilent : Prop :=
  ∀ (s t : State) (a : Nat) (c : Chan), s.halted = false → s.srcReady = true →
    ((∀ x ∈ (s.up.get c).uh, x = 0) → (s.up.get c).upin = 0 → exec (.srcUp a) s = .next t →
      (t.up.get c).upout = 0 ∧ ∀ x ∈ (t.up.get c).uh, x = 0) ∧
    ((∀ x ∈ (s.down.get c).dh.p0 ++ (s.down.get c).dh.p1 ++ (s.down.get c).dh.p2, x = 0) → (s.down.get c).dnin = 0 →
      (s.down.get c).dsum = 0 → exec (.srcDown a) s = .next t →
      (t.down.get c).dsum = 0 ∧
      ((s.down.get c).dph = 2 → a = 1 → (t.down.get c).dnout = 0) ∧
      ((s.down.get c).dph = 0 ∨ (s.down.get c).dph = 1 ∨ a ≠ 1 → (t.down.get c).dnout = (s.down.get c).dnout) ∧
      ∀ x ∈ (t.down.get c).dh.p0 ++ (t.down.get c).dh.p1 ++ (t.down.get c).dh.p2, x = 0)

/-- R133 (the spec's decision D11): `Push` puts the sample at index 0, moves every other one up, drops the oldest and keeps the length. -/
def Obligations.PushShiftsTheRing : Prop :=
  ∀ (t : Nat) (h : List Word) (x : Word), 1 ≤ t → h.length = t →
    (push t h x).length = t ∧ (push t h x)[0]? = some x ∧ ∀ j, j + 1 < t → (push t h x)[j + 1]? = h[j]?

/-- R132 (the spec's decision D12): `FirOut` is the floor of the accumulator by 2^31 within the sample range and saturates
outside it. That it never decreases is R138 (b), the spec's own inference. -/
def Obligations.FirOutFloorsAndSaturates : Prop :=
  (∀ acc : Acc, (2 ^ 62 ≤ acc.toInt → firOut acc = 0x7FFFFFFF) ∧ (acc.toInt < -2 ^ 62 → firOut acc = 0x80000000) ∧
    (-2 ^ 62 ≤ acc.toInt → acc.toInt < 2 ^ 62 →
      (firOut acc).toInt * 2 ^ 31 ≤ acc.toInt ∧ acc.toInt < ((firOut acc).toInt + 1) * 2 ^ 31)) ∧
  ∀ acc acc' : Acc, acc.toInt ≤ acc'.toInt → (firOut acc).toInt ≤ (firOut acc').toInt

/-- R131: `Fir` is the sum of the products of coefficients and samples of equal index, modulo 2^64, and appending a tap adds
its product. -/
def Obligations.FirIsTheWrappedSum : Prop :=
  ∀ (n : Nat) (c h : List Word), c.length = n → h.length = n →
    (fir c h).toInt = (∑ j ∈ Finset.range n, (c.getD j 0).toInt * (h.getD j 0).toInt).bmod (2 ^ 64)

/-- R135: when `L1 < 2^32` no accumulator wraps: the sums of `SRC.UP` and the partial sums of `SRC.DOWN` are exact. -/
def Obligations.NoWrapUnderCoefficientBound : Prop :=
  ∀ (p : Params) (h0 h1 h2 : List Word), l1 p < 2 ^ 32 →
    (fir p.coef.p0 h0).toInt = dot p.coef.p0 h0 ∧ (fir p.coef.p1 h1).toInt = dot p.coef.p1 h1 ∧
    (fir p.coef.p2 h2).toInt = dot p.coef.p2 h2 ∧
    (wrap64 (dot p.coef.p0 h0 + dot p.coef.p1 h1)).toInt = dot p.coef.p0 h0 + dot p.coef.p1 h1 ∧
    (wrap64 (dot p.coef.p0 h0 + dot p.coef.p1 h1 + dot p.coef.p2 h2)).toInt =
      dot p.coef.p0 h0 + dot p.coef.p1 h1 + dot p.coef.p2 h2

/-! ### PLL controller (43_pll.md) -/

/-- R199: `PLL.INIT` completes on an instance with the PLL before the first one and leaves the state R199 gives. -/
def Obligations.PllInitEffect : Prop :=
  ∀ s : State, s.halted = false → s.par.pllEn = true → s.pll.ready = false →
    exec .pllInit s = .next { s with pll :=
      { refAcc := 0, fbAcc := 0, err := 0, integ := 0, sel := BitVec.ofNat 16 s.par.selNom
        oscDiv := (lutEntry s.par s.par.selNom).1, oscFrac := (lutEntry s.par s.par.selNom).2
        lockCnt := 0, lock := false, lockOld := false, ready := true, primed := false } }

/-- R208: the first `PLL.STEP` that meets a reference edge records the snapshots, sets `PRIMED`, rewrites the pair of the
present selector, and changes nothing else of the loop; in a reachable state that selector is the nominal one and error,
integral, count and lock are 0. What the first cycle does is the spec's decision D27. -/
def Obligations.PllPrimingCycle : Prop :=
  ∀ (s : State) (r f : Word) (rest : List Event), s.halted = false → s.par.pllEn = true → s.pll.ready = true →
    s.pll.primed = false → nextEnv s.tape = some (.refEdge r f, rest) →
    exec .pllStep s = .next { s with
      tape := rest, hold := false
      pll := { s.pll with
        refAcc := BitVec.ofNat 32 (r.toNat % 2 ^ s.par.cntW), fbAcc := BitVec.ofNat 32 (f.toNat % 2 ^ s.par.cntW)
        primed := true, lockOld := s.pll.lock
        oscDiv := (lutEntry s.par s.pll.sel.toNat).1, oscFrac := (lutEntry s.par s.pll.sel.toNat).2 } } ∧
    (s.Inv → s.pll.err = 0 ∧ s.pll.integ = 0 ∧ s.pll.sel.toNat = s.par.selNom ∧ s.pll.lockCnt = 0 ∧
      s.pll.lock = false)

/-- R204, R205: a control cycle computes the phase error from the modular counter progress, the clamped integral, the
clamped selector and the lock bookkeeping, stores them without truncation, and changes nothing else. The expressions are
the spec's decisions D21 to D24 and D28. -/
def Obligations.PllControlCycle : Prop :=
  ∀ (s : State) (r f : Word) (rest : List Event), s.halted = false → s.par.pllEn = true → s.pll.ready = true →
    s.pll.primed = true → nextEnv s.tape = some (.refEdge r f, rest) →
    ∃ t, exec .pllStep s = .next t ∧
      let p := s.par
      let m : Int := 2 ^ p.cntW
      let r' : Int := r.toNat % m
      let f' : Int := f.toNat % m
      let e := (r' - s.pll.refAcc.toNat) % m * p.ratioNum / p.ratioDen - (f' - s.pll.fbAcc.toNat) % m
      let i2 := max (-(p.integMax : Int)) (min (s.pll.integ.toInt + e) p.integMax)
      let u := p.kp * e + p.ki * i2
      let sel := max 0 (min (p.selNom + u / 2 ^ p.gainShift) (p.lutLen - 1))
      let inw := e.natAbs ≤ p.lockWindow
      (t.pll.refAcc.toNat : Int) = r' ∧ (t.pll.fbAcc.toNat : Int) = f' ∧ t.pll.err.toInt = e ∧
      t.pll.integ.toInt = i2 ∧ (t.pll.sel.toNat : Int) = sel ∧
      t.pll.lockCnt.toNat = (if inw then min (s.pll.lockCnt.toNat + 1) p.lockCount else 0) ∧
      (t.pll.lock = true ↔ inw ∧ t.pll.lockCnt.toNat = p.lockCount) ∧
      t.pll.lockOld = s.pll.lock ∧ (t.pll.oscDiv, t.pll.oscFrac) = lutEntry p sel.toNat ∧
      t.pll.ready = true ∧ t.pll.primed = true ∧
      t = { s with tape := rest, hold := false, pll := t.pll }

/-- R196 (e): under the ranges of R6 the filter's sum stays below 2^64 in size and every phase error below 2^48. -/
def Obligations.PllSumsStayInRange : Prop :=
  ∀ (c : Cfg) (ra fa r f : Word) (i2 : Int), i2.natAbs ≤ c.par.integMax →
    (phaseError c.par ra fa r f).natAbs < 2 ^ 48 ∧
    ((c.par.kp : Int) * phaseError c.par ra fa r f + c.par.ki * i2).natAbs < 2 ^ 64

/-- R203: without a reference edge as the environment's next move `PLL.STEP` is held and no other state changes. -/
def Obligations.PllStepIsHeldWithoutEdge : Prop :=
  ∀ s : State, s.halted = false → s.par.pllEn = true → s.pll.ready = true →
    (∀ r f rest, nextEnv s.tape ≠ some (.refEdge r f, rest)) → exec .pllStep s = .next { s with hold := true }

/-- R203, R334, R78, R80: while `PLL.STEP` is held, a tape without a move of another agent leaves the state as it is for ever
(the hang as a step to the same state is log entry 4); a read of `LOCKSTAT` by TASK is answered with the candidate drawn, and
any other access by TASK that is answered changes at most TASK's reply; an edge completes the command as if it had been there
at once; and HOT's accesses wait. -/
def Obligations.HeldCommandWaitsForTheEdge : Prop :=
  ∀ s : State, s.hold = true →
    (nextEnv s.tape = none → step s = .next s) ∧
    (∀ stale rest, nextEnv s.tape = some (trd .lockstat stale, rest) →
      step s = .next { s with
        tape := rest, taskReply := some (lockWord (if stale then s.pll.lockOld else s.pll.lock)) }) ∧
    (∀ a stale rest, nextEnv s.tape = some (.task a stale, rest) → ∀ t, step s = .next t →
      t = { s with tape := rest, taskReply := t.taskReply }) ∧
    (∀ r f rest, nextEnv s.tape = some (.refEdge r f, rest) → s.Inv → step s = exec .pllStep s)

/-- R207 (b): a control cycle whose phase error is out of the window leaves `LOCK = 0` and `LOCKCNT = 0`, whatever they
were, for any loop filter; and `LOCK = 1` after a cycle only with `LOCKCNT = LOCK_COUNT`. -/
def Obligations.OutOfWindowDropsLock : Prop :=
  ∀ (F : LoopFilter) (c : Cfg) (l : Pll) (r f : Word),
    (c.par.lockWindow < (phaseError c.par l.refAcc l.fbAcc r f).natAbs →
      (controlCycle F c.par r f l).lock = false ∧ (controlCycle F c.par r f l).lockCnt = 0) ∧
    ((controlCycle F c.par r f l).lock = true → (controlCycle F c.par r f l).lockCnt.toNat = c.par.lockCount)

/-- R207 (a), (c) for any loop filter: after control cycles from `LOCKCNT = 0`, the lock status is true if and only if at
least `LOCK_COUNT` of them have run and the last `LOCK_COUNT` phase errors were within the window. -/
def Obligations.LockIsEarnedUnderAnyFilter : Prop :=
  ∀ (F : LoopFilter) (c : Cfg) (l : Pll) (es : List (Word × Word)), l.lockCnt = 0 → l.lock = false →
    ((cycles F c.par es l).lock = true ↔
      c.par.lockCount ≤ es.length ∧ lastInWindow c.par c.par.lockCount (cycleErrors c.par l.refAcc l.fbAcc es))

/-- R207 (a): after `PLL.INIT`, a priming `PLL.STEP` and control cycles, the lock status is true if and only if at least
`LOCK_COUNT` control cycles have run and the last `LOCK_COUNT` of them were within the window. The run has nothing but
`PLL.STEP` commands, each with its edge ready: other commands between them, and a held one, are left out. -/
def Obligations.LockFollowsTheLastCycles : Prop :=
  ∀ (s t u : State) (r f : Word) (es : List (Word × Word)),
    s.halted = false → s.par.pllEn = true → s.pll.ready = false →
    exec .pllInit s = .next t → PllRun t ((r, f) :: es) u →
    (u.pll.lock = true ↔ s.par.lockCount ≤ es.length ∧
      lastInWindow s.par s.par.lockCount
        (cycleErrors s.par (readCounter s.par r) (readCounter s.par f)
          (es.map fun x => (readCounter s.par x.1, readCounter s.par x.2))))

/-! ### Contract checks and HALT (44_checks_and_halt.md) -/

/-- R231: `XFER.CHK` compares the frame size first, then the channel count (the order is the spec's decision D35), and
otherwise completes without a change; halted it is ignored. -/
def Obligations.XferChkEffect : Prop :=
  ∀ (s : State) (ch len : Nat),
    (s.halted = true → exec (.xferChk ch len) s = .next s) ∧
    (s.halted = false →
      (len ≠ s.par.frameCount → exec (.xferChk ch len) s = .next { s with halted := true, cause := 1 }) ∧
      (len = s.par.frameCount → ch ≠ 2 → exec (.xferChk ch len) s = .next { s with halted := true, cause := 2 }) ∧
      (len = s.par.frameCount → ch = 2 → exec (.xferChk ch len) s = .next s))

/-- R234: `XT.CHK` raises XTILE_DESYNC on any other announced length and otherwise completes without a change; halted it is
ignored. -/
def Obligations.XtChkEffect : Prop :=
  ∀ (s : State) (bytes : Nat),
    (s.halted = true → exec (.xtChk bytes) s = .next s) ∧
    (s.halted = false →
      (bytes ≠ s.par.xtFrameBytes → exec (.xtChk bytes) s = .next { s with halted := true, cause := 4 }) ∧
      (bytes = s.par.xtFrameBytes → exec (.xtChk bytes) s = .next s))

/-- R237: `HALT` is fatal with its operand as the cause, `HALT 0` with ILLEGAL_CMD; halted it is ignored. The rule is the
spec's decision D36. -/
def Obligations.HaltEffect : Prop :=
  ∀ (s : State) (k : Nat), k ≤ 15 →
    (s.halted = true → exec (.halt k) s = .next s) ∧
    (s.halted = false →
      ∃ t, exec (.halt k) s = .next t ∧ t.halted = true ∧ t.cause.toNat = (if k = 0 then 5 else k) ∧
        t = { s with halted := true, cause := t.cause })

/-! ### The whole machine -/

/-- R21 to R46, R207: every step from a state that meets the invariant leads to one that meets it: ring lengths, equal and
legal phases, counts of 0 or 1, PLL registers in range, the oscillator pair equal to the selected table entry, no lock
without the count, a cause exactly when halted. -/
def Obligations.EveryStepKeepsTheInvariant : Prop :=
  ∀ s t : State, s.Inv → step s = .next t → t.Inv

/-- R51: the invariant holds right after reset; it rests on the zeros of log entry 1 for the unspecified registers. -/
def Obligations.ResetMeetsTheInvariant : Prop := State.reset.Inv

/-- R51, R320: what hardware reset fixes, whatever is drawn for the rest; the invariant holds for every draw. A step whose
next event is a hardware reset makes it, and a held `PLL.STEP` is abandoned by it (log entry 10): the command is not held
after it, and what the environment does next is kept. -/
def Obligations.HardResetClearsTheFlags : Prop :=
  ∀ (d : ResetDraw) (s : State),
    let t := hardReset d s
    (t.srcReady = false ∧ t.upcnt = 0 ∧ t.dncnt = 0 ∧ t.pll.ready = false ∧ t.pll.primed = false ∧
      t.pll.lock = false ∧ t.pll.lockOld = false ∧ t.halted = false ∧ t.cause = 0 ∧ t.cfg = s.cfg ∧ t.hold = false ∧
      t.tape = s.tape ∧ t.Inv) ∧
    ∀ rest, s.Meets (.hwReset d) rest → step s = .next (hardReset d { s with tape := rest })

/-- R6, R84: no step changes a parameter or a table. -/
def Obligations.ParametersNeverChange : Prop :=
  ∀ s t : State, step s = .next t → t.cfg = s.cfg

/-- R73: a step is refused only when the event it takes is a bus access that touches the window and is not an aligned 32-bit
access in it. -/
def Obligations.OnlyBadAccessesAreRefused : Prop :=
  ∀ (s : State) (r : Refusal), step s = .refused r →
    r = .badAccess ∧ ∃ a rest, a.touches = true ∧ a.legal = false ∧
      (s.Meets (.hot a) rest ∨ ∃ stale, s.Meets (.task a stale) rest)

/-- R28, R45: a ready flag once set stays set at every step that is not a hardware reset. -/
def Obligations.ReadyFlagsAreNeverCleared : Prop :=
  ∀ s t : State, step s = .next t →
    ((s.srcReady = true → t.srcReady = true) ∧ (s.pll.ready = true → t.pll.ready = true)) ∨
    ∃ d rest, nextEnv s.tape = some (.hwReset d, rest) ∧ t = hardReset d { s with tape := rest }

/-- R23, R36, R86: frames of the commands: only the SRC commands write SRC state, each only its direction's; only the PLL
commands write PLL state; no command writes an operand register; a command that is not fatal leaves `HALTED` and `CAUSE`. -/
def Obligations.CommandFrames : Prop :=
  ∀ (i : Instr) (s t : State), exec i s = .next t →
    t.cfg = s.cfg ∧ t.hotReply = s.hotReply ∧ t.taskReply = s.taskReply ∧
    (∀ c, (t.up.get c).upin = (s.up.get c).upin ∧ (t.down.get c).dnin = (s.down.get c).dnin) ∧
    (i ≠ .srcInit → t.srcReady = s.srcReady) ∧
    (i ≠ .srcInit → (∀ a, i ≠ .srcUp a) → t.up = s.up ∧ t.upcnt = s.upcnt) ∧
    (i ≠ .srcInit → (∀ a, i ≠ .srcDown a) → t.down = s.down ∧ t.dncnt = s.dncnt) ∧
    (i ≠ .pllInit → i ≠ .pllStep → t.pll = s.pll) ∧
    (i ≠ .pllStep → t.tape = s.tape ∧ t.hold = s.hold) ∧
    (t.halted = s.halted ∧ t.cause = s.cause ∨ t = { s with halted := true, cause := t.cause })

/-- R86: `SRC.UP`, `SRC.DOWN` and `PLL.STEP` commute in states where none of them is fatal. -/
def Obligations.SteadyCommandsCommute : Prop :=
  ∀ (s : State) (i j : Instr) (a b : Nat), s.halted = false → s.srcReady = true → s.par.pllEn = true →
    s.pll.ready = true → i ∈ [.srcUp a, .srcDown b, .pllStep] → j ∈ [.srcUp a, .srcDown b, .pllStep] → i ≠ j →
    ∃ t u v, exec i s = .next t ∧ exec j t = .next v ∧ exec j s = .next u ∧ exec i u = .next v

/-! ### The register window (20_memory.md, 10_state.md R47) -/

/-- R71, R74: a read by HOT of a register returns it and of a reserved offset returns 0, and changes no state. The values:
`CMD` reads 0, `STATUS` the word of R47, `LOCKSTAT` the lock flag in bit 0 and 0 above, `PLL_SEL` the selector
zero-extended, every other register its 32 bits. -/
def Obligations.HotReadReturnsTheRegister : Prop :=
  ∀ (s : State) (rest : List Event), s.hold = false →
    let reads (r : Reg) (v : Word) : Prop :=
      s.tape = rd r :: rest → step s = .next { s with tape := rest, hotReply := some v }
    reads .cmd 0 ∧ reads .status (statusWord s) ∧ reads .upcnt s.upcnt ∧ reads .dncnt s.dncnt ∧
    (reads (.upin .c0) s.up.ch0.upin ∧ reads (.upin .c1) s.up.ch1.upin) ∧
    (reads (.upout .c0) s.up.ch0.upout ∧ reads (.upout .c1) s.up.ch1.upout) ∧
    (reads (.dnin .c0) s.down.ch0.dnin ∧ reads (.dnin .c1) s.down.ch1.dnin) ∧
    (reads (.dnout .c0) s.down.ch0.dnout ∧ reads (.dnout .c1) s.down.ch1.dnout) ∧
    reads .lockstat (if s.pll.lock then 1 else 0) ∧ reads .pllSel (BitVec.ofNat 32 s.pll.sel.toNat) ∧
    reads .oscDiv s.pll.oscDiv ∧ reads .oscFrac s.pll.oscFrac ∧
    (∀ k : Nat, 16 ≤ k → k < 64 → s.tape = .hot ⟨4 * k, 4, .read⟩ :: rest →
      step s = .next { s with tape := rest, hotReply := some 0 })

/-- R47: the fields of `STATUS`, and 0 in every reserved bit. -/
def Obligations.StatusFields : Prop :=
  ∀ s : State,
    let w := statusWord s
    field w 0 0 = s.srcReady.toNat ∧ field w 1 1 = s.pll.ready.toNat ∧ field w 2 2 = s.pll.primed.toNat ∧
    field w 3 3 = s.par.pllEn.toNat ∧ field w 4 4 = s.halted.toNat ∧ field w 7 5 = 0 ∧
    field w 11 8 = s.cause.toNat ∧ field w 15 12 = 0 ∧ field w 17 16 = s.up.ch0.uph.toNat ∧
    field w 19 18 = s.up.ch1.uph.toNat ∧ field w 21 20 = s.down.ch0.dph.toNat ∧
    field w 23 22 = s.down.ch1.dph.toNat ∧ field w 31 24 = 0

/-- R75: a write by HOT to `UPIN[c]` or `DNIN[c]` replaces it and nothing else; to any other register but CMD, or to a
reserved offset, it is ignored. The last two clauses say of `setUpin` and `setDnin` that they replace the one register of the
one channel and leave the rest of the state. -/
def Obligations.HotWriteEffect : Prop :=
  ∀ (s : State) (rest : List Event) (v : Word),
    (s.hold = false →
      (∀ c, s.tape = wr (.upin c) v :: rest → step s = .next (setUpin c v { s with tape := rest })) ∧
      (∀ c, s.tape = wr (.dnin c) v :: rest → step s = .next (setDnin c v { s with tape := rest })) ∧
      (∀ r : Reg, r ≠ .cmd → (∀ c, r ≠ .upin c ∧ r ≠ .dnin c) → s.tape = wr r v :: rest →
        step s = .next { s with tape := rest }) ∧
      (∀ k : Nat, 16 ≤ k → k < 64 → s.tape = .hot ⟨4 * k, 4, .write v⟩ :: rest →
        step s = .next { s with tape := rest })) ∧
    (∀ c, setUpin c v s = { s with up := (setUpin c v s).up } ∧
      ∀ c', (setUpin c v s).up.get c' = if c' = c then { s.up.get c' with upin := v } else s.up.get c') ∧
    (∀ c, setDnin c v s = { s with down := (setDnin c v s).down } ∧
      ∀ c', (setDnin c v s).down.get c' = if c' = c then { s.down.get c' with dnin := v } else s.down.get c')

/-- R80, R81: a read of `LOCKSTAT` by TASK returns `LOCK` or `LOCK_OLD` as drawn, a write by TASK at any aligned offset of
the window is ignored (CMD and the reserved offsets among them), and neither changes anything of the block; held or not. -/
def Obligations.TaskReadsLockWritesNothing : Prop :=
  ∀ (s : State) (rest : List Event) (stale : Bool),
    (s.Meets (trd .lockstat stale) rest →
      step s = .next { s with tape := rest, taskReply := some (lockWord (if stale then s.pll.lockOld else s.pll.lock)) }) ∧
    (∀ (k : Nat) (v : Word), k < 64 → s.Meets (.task ⟨4 * k, 4, .write v⟩ stale) rest →
      step s = .next { s with tape := rest })

/-- R72, R73: an access by HOT or TASK that begins in the window and is not an aligned 32-bit access inside it is refused; one
by TASK also while a command is held. -/
def Obligations.BadAccessIsRefused : Prop :=
  ∀ (s : State) (rest : List Event) (off : Int) (size : Nat) (op : BusOp) (stale : Bool),
    off < 256 → 0 ≤ off → (size ≠ 4 ∨ off % 4 ≠ 0 ∨ 252 < off) →
    s.Meets (.hot ⟨off, size, op⟩) rest ∨ s.Meets (.task ⟨off, size, op⟩ stale) rest →
    step s = .refused .badAccess

/-- R295, R203, D3: without an event, at a reference edge nobody waits for, and for an access by HOT or TASK outside the
window, the block keeps all its state. That an access outside the window passes by is log entry 8, that an edge nobody waits
for does is log entry 15. -/
def Obligations.UnconcernedEventsChangeNothing : Prop :=
  ∀ (s : State) (rest : List Event),
    (s.hold = false → s.tape = [] → step s = .next s) ∧
    (∀ r f, s.hold = false → s.tape = .refEdge r f :: rest → step s = .next { s with tape := rest }) ∧
    (∀ (addr size : Nat) (v : Word) (stale : Bool), addr + size ≤ s.par.base ∨ s.par.base + 256 ≤ addr → 1 ≤ size →
      s.Meets (.hot (memRead s.par addr size)) rest ∨ s.Meets (.hot (memWrite s.par addr size v)) rest ∨
      s.Meets (.task (memRead s.par addr size) stale) rest ∨ s.Meets (.task (memWrite s.par addr size v) stale) rest →
      step s = .next { s with tape := rest })

/-! ### The environment (45_environment.md, 70_reset_and_hazards.md) -/

/-- R251, R155: a transmit slot completes in every running state after `SRC.INIT` in which no command is held (R78); it loads
the head of the transmit ring into `UPIN`, removes it exactly when the engine was at phase 0 and the ring held a slot, and
puts the engine's output on the bus. The slot's accesses run with no other agent's move between them: log entry 17 (DESIGN
CHOICE). -/
def Obligations.TransmitSlotAdvancesTheRing : Prop :=
  ∀ (s : State) (r : Rings), s.Inv → s.hold = false → s.halted = false → s.srcReady = true →
    ∃ d, txSlot r s = .next d ∧
      d.rings = { r with tx := if s.up.ch0.uph = 0 then r.tx.drop 1 else r.tx } ∧
      d.out = ⟨d.state.up.ch0.upout, d.state.up.ch1.upout⟩ ∧
      ∀ c, (d.state.up.get c).uph.toNat = ((s.up.get c).uph.toNat + 1) % 3 ∧
        ∀ x xs, r.tx = x :: xs → (d.state.up.get c).upin = x.get c

/-- R252, R175: a receive slot completes in every running state after `SRC.INIT` in which no command is held (R78); it loads
the slot received into `DNIN`, appends one slot to a receive ring with room exactly at phase 2, and never exceeds the room.
The slot's accesses run with no other agent's move between them: log entry 17 (DESIGN CHOICE). -/
def Obligations.ReceiveSlotAppendsOrDrops : Prop :=
  ∀ (s : State) (room : Nat) (bus : Slot) (r : Rings), s.Inv → s.hold = false → s.halted = false → s.srcReady = true →
    r.rx.length ≤ room →
    ∃ d, rxSlot room bus r s = .next d ∧ d.rings.rx.length ≤ room ∧
      (∀ c, (d.state.down.get c).dnin = bus.get c) ∧
      d.rings = (if s.down.ch0.dph = 2 ∧ r.rx.length < room
        then { r with rx := r.rx ++ [⟨d.state.down.ch0.dnout, d.state.down.ch1.dnout⟩] } else r)

/-- R322, R266: on a device with the bus, from any state hardware reset leaves, the start-up commands complete in either
order with the same state, in which the engine and, on an instance with the PLL, the controller are ready; without the bus
the block is not used. The commands run with no other agent's move between them: log entry 17 (DESIGN CHOICE).
R323, R265: before the readiness signal no move of the hot path, of the router's task or of a sender has an effect, and only
that signal, once start-up is done, begins the audio loop. C4: in the loop the hot path's sample slot runs wherever the tasks
are in their work, and leaves each of them where it was. That senders wait for the signal too, and how fine the moves are, is
log entry 25 (DESIGN CHOICE). -/
def Obligations.StartUpMakesTheUnitsReady : Prop :=
  (∀ (k : Capabilities) (c : Cfg) (d : ResetDraw),
    ∃ t, (∀ pllFirst, perform (startUp k c.par pllFirst) (State.powerOn c d []) = .next t) ∧ t.srcReady = k.bus ∧
      t.pll.ready = (k.bus && c.par.pllEn) ∧ t.halted = false ∧ t.Inv ∧ (k.bus = false → t = State.powerOn c d [])) ∧
  ∀ (site : Site) (a : Audio),
    (a.stage ≠ .audioLoop →
      (∀ (dirs : List Direction) (bus : Slot) (ch len : Nat) (inp : RouterInput) (expired : Bool),
        ∀ m ∈ [.slot dirs bus, .control, .exchange ch len, .router inp, .sendToRouter expired, .sendToBus expired],
          move site m a = .next ⟨.nothing, a⟩) ∧
      ∀ m d, move site m a = .next d → d.audio.stage = .audioLoop → m = .ready ∧ a.stage = .bringUp) ∧
    (a.stage = .bringUp → move site .ready a = .next ⟨.nothing, { a with stage := .audioLoop }⟩) ∧
    (a.stage = .audioLoop → a.whole.state.hold = false → a.whole.state.halted = false →
      ∀ (dirs : List Direction) (bus : Slot) (e : SlotDone),
        busSlot site.caps dirs site.rxRoom bus a.whole.device.driver a.whole.state = .next e →
        move site (.slot dirs bus) a = .next
          { output := (e.out.map .onBus).getD .nothing
            audio := { a with whole := ⟨{ a.whole.device with driver := e.rings }, e.state⟩ } })

/-- R301: of the transport's moves only a turn of the receiver on the block's core changes the block, and that by an `XT.CHK`
alone. R262, R263, R264, R234, R280 (2): a period's send puts exactly one blob of the fixed size behind its length on the
channel, from the oldest frame of the ring with silence for what it lacks, or, when the bounded wait for the channel ran out
(C5), nothing.
The receiver on the block's core waits while fewer than the four bytes of a length have arrived. When a message's length has
arrived it is checked before any payload byte is read: another length than the expected one halts the block with cause 4 and
no payload is read; with the expected one the block keeps its state, and the payload is read once all of it has arrived,
unless the bounded wait for it (C5), whose end `expired` draws, runs out before. A frame the router's core sends so reaches
the driver's transmit ring as far as it has room, for any layout that carries frames. The length's four little-endian bytes
are the spec's decision D3. That a length of 2^24 or more is reported with operand 0, and that the turns run with no other
agent's move in them, is log entry 17 (DESIGN CHOICE); where silence and dropped slots stand is log entry 21; what a blob
holds, that a frame not sent is dropped, and which ring a frame comes from and goes to, is log entry 24; that a receiver's
turn waits while a `PLL.STEP` is held is log entry 25. -/
def Obligations.CrossTileLengthIsChecked : Prop :=
  (∀ (site : Site) (a : Audio) (expired : Bool) (n : Nat),
    (∀ m ∈ [Move.sendToRouter expired, .sendToBus expired, .receiveAtRouter expired, .arriveAtBus n, .arriveAtRouter n],
      ∃ d, move site m a = .next d ∧ d.audio.whole.state = a.whole.state) ∧
    ∀ d, move site (.receiveAtBus expired) a = .next d → d.audio.whole.state = a.whole.state ∨
      ∃ len, perform [announceEvent len] a.whole.state = .next d.audio.whole.state) ∧
  ∀ (k : Capabilities) (expired : Bool) (s : State), k.bus = true → k.crossTile = true → s.hold = false → s.halted = false →
    (∀ (lay : BlobLayout) (d : Device),
      let f := s.par.frameCount
      let blob (ring : List Slot) := lay.pack s.par.xtFrameBytes (ring.take f ++ List.replicate (f - ring.length) ⟨0, 0⟩)
      let put (l : Link) (ring : List Slot) : Link :=
        if expired then l else { l with inFlight := l.inFlight ++ wireBytes (blob ring) }
      let outcome : SendOutcome := if expired then .expired else .sent
      (∀ ring, (blob ring).length = s.par.xtFrameBytes) ∧
      forwardToRouter k lay s.par expired s.halted d = ⟨some outcome,
        { d with driver := { d.driver with rx := d.driver.rx.drop f }, toRouter := put d.toRouter d.driver.rx }⟩ ∧
      (d.routerHalted = false → forwardToBus k lay s.par expired d = ⟨some outcome,
        { d with router := { d.router with tx := d.router.tx.drop f }, toBus := put d.toBus d.router.tx }⟩)) ∧
    (∀ bytes : List Byte, bytes.length < 4 →
      receiverTurn k expired ⟨.awaitsLength, bytes⟩ s = .next ⟨⟨.awaitsLength, bytes⟩, none, s⟩) ∧
    (∀ blob more : List Byte, blob.length < 2 ^ 32 →
      (blob.length ≠ s.par.xtFrameBytes → ∃ t, t = { s with halted := true, cause := 4 } ∧
        receiverTurn k expired ⟨.awaitsLength, wireBytes blob ++ more⟩ s = .next ⟨⟨.stopped, blob ++ more⟩, none, t⟩ ∧
        receiverTurn k expired ⟨.stopped, blob ++ more⟩ t = .next ⟨⟨.stopped, blob ++ more⟩, none, t⟩) ∧
      (blob.length = s.par.xtFrameBytes →
        (∀ got, receiverTurn k expired ⟨.awaitsLength, (wireBytes blob).take 4 ++ got⟩ s =
          .next ⟨⟨.reads blob.length, got⟩, none, s⟩) ∧
        (∀ got : List Byte, got.length < blob.length → receiverTurn k expired ⟨.reads blob.length, got⟩ s =
          .next ⟨⟨if expired then .timedOut else .reads blob.length, got⟩, none, s⟩) ∧
        receiverTurn k expired ⟨.reads blob.length, blob ++ more⟩ s = .next ⟨⟨.awaitsLength, more⟩, some blob, s⟩)) ∧
    (∀ (lay : BlobLayout) (d : Device) (room : Nat), lay.Carries s.par.frameCount s.par.xtFrameBytes →
      d.routerHalted = false → d.toBus = {} → s.par.frameCount ≤ d.router.tx.length →
      ∃ sent checked, forwardToBus k lay s.par false d = ⟨some .sent, sent⟩ ∧
        receiveAtBus k lay expired room ⟨{ sent with toBus := sent.toBus.deliver (4 + s.par.xtFrameBytes) }, s⟩ =
          .next ⟨checked, s⟩ ∧
        receiveAtBus k lay expired room ⟨checked, s⟩ = .next
          ⟨{ d with
            driver := { d.driver with
              tx := d.driver.tx ++ (d.router.tx.take s.par.frameCount).take (room - d.driver.tx.length) }
            router := { d.router with tx := d.router.tx.drop s.par.frameCount } }, s⟩)

/-- R260, R232, R231: an exchange of another frame size or channel count than the configured one halts the block, and one
of the configured sizes completes. R260, R280: where the block's core runs the router, a dispatch callback with another frame
size or channel count, and a capture whose microphone array did not populate whole channels, are contract violations that halt
it too, with nothing between their steps and in the moves of the router's task (R265); a receive ring without a whole frame is
none, for it is filled with silence. That a channel count above 15 or a frame size above 65535, which the operands of an
exchange's check cannot hold, is reported as 0 and so is fatal, and the order of a dispatch callback's two checks, is log entry
19 (DEDUCED); that captures and dispatches are moves, and `routerCapture` and `routerDispatch` their case without a move
between, is log entry 25. -/
def Obligations.FrameExchangeIsChecked : Prop :=
  ∀ s : State, s.hold = false → s.halted = false →
    let fatal (cause : BitVec 4) : State := { s with halted := true, cause := cause }
    (∀ (ch len : Nat) (rest : List Event), s.tape = exchangeEvent ch len :: rest →
      step s = .next (if len ≠ s.par.frameCount then { s with tape := rest, halted := true, cause := 1 }
        else if ch ≠ 2 then { s with tape := rest, halted := true, cause := 2 } else { s with tape := rest })) ∧
    (∀ (k : Capabilities) (fmt : BusFormat) (room : Nat) (sel : SourceSinkSelection) (ready : Sink → Bool) (n : Counts)
      (o : OutputFrame) (d : Device), k.bus = true → k.crossTile = false →
      (n.frames ≠ s.par.frameCount ∨ ¬ o.Fits s.par.frameCount →
        routerDispatch k fmt room sel ready n o ⟨d, s⟩ = .next ⟨some (.error 1), d, fatal 1⟩) ∧
      (n.frames = s.par.frameCount → o.Fits s.par.frameCount → n.channels ≠ 6 →
        routerDispatch k fmt room sel ready n o ⟨d, s⟩ = .next ⟨some (.error 2), d, fatal 2⟩)) ∧
    (∀ (k : Capabilities) (sel : SourceSinkSelection) (mic ext : InputFrame) (rest : List (Option InputFrame)) (d : Device),
      k.bus = true → k.crossTile = false →
      (¬ mic.Fits s.par.frameCount →
        routerCapture k sel (some mic :: rest) ext ⟨d, s⟩ = .next ⟨some .violation, d, fatal 1⟩) ∧
      (mic.Fits s.par.frameCount → ext.Fits s.par.frameCount →
        ∃ i g, routerCapture k sel (some mic :: rest) ext ⟨d, s⟩ =
          .next ⟨some (.frame i rest g), { d with driver := g }, s⟩)) ∧
    (∀ (site : Site) (a : Audio) (inp : RouterInput), site.caps.bus = true → site.caps.crossTile = false →
      a.whole.state = s → a.stage = .audioLoop →
      (∀ (n : Counts) (o : OutputFrame), a.router = .awaitsProcessing → inp.processed = some (n, o) →
        (n.frames ≠ s.par.frameCount ∨ ¬ o.Fits s.par.frameCount →
          move site (.router inp) a = .next ⟨.nothing, a.setState (fatal 1)⟩) ∧
        (n.frames = s.par.frameCount → o.Fits s.par.frameCount → n.channels ≠ 6 →
          move site (.router inp) a = .next ⟨.nothing, a.setState (fatal 2)⟩)) ∧
      (∀ (mic : InputFrame) (taken : List Slot), a.router = .overlays mic taken →
        (feedsBus site.caps a.selection = true → taken.length = s.par.frameCount) →
        (¬ mic.Fits s.par.frameCount → move site (.router inp) a = .next ⟨.nothing, a.setState (fatal 1)⟩) ∧
        (mic.Fits s.par.frameCount → inp.ext.Fits s.par.frameCount →
          ∃ i, move site (.router inp) a = .next ⟨.toPipeline i, a.setRouter .awaitsProcessing⟩)))

/-- R256: in a buffer of frames of `f` samples per channel, sample `n` of channel `k` is at position `k * f + n`: processed
output in channels 0 and 1, reference in 2 and 3, raw microphone in 4 and 5; in an input frame reference, then
microphone. -/
def Obligations.FrameBufferLayout : Prop :=
  ∀ (f n : Nat) (o : OutputFrame) (i : InputFrame), o.processed.Fits f → o.reference.Fits f → o.rawMic.Fits f →
    i.reference.Fits f → i.mic.Fits f → n < f →
    o.buffer.length = 6 * f ∧ i.buffer.length = 4 * f ∧
    o.buffer[framePos f 0 n]? = o.processed.ch0[n]? ∧ o.buffer[framePos f 1 n]? = o.processed.ch1[n]? ∧
    o.buffer[framePos f 2 n]? = o.reference.ch0[n]? ∧ o.buffer[framePos f 3 n]? = o.reference.ch1[n]? ∧
    o.buffer[framePos f 4 n]? = o.rawMic.ch0[n]? ∧ o.buffer[framePos f 5 n]? = o.rawMic.ch1[n]? ∧
    i.buffer[framePos f 0 n]? = i.reference.ch0[n]? ∧ i.buffer[framePos f 1 n]? = i.reference.ch1[n]? ∧
    i.buffer[framePos f 2 n]? = i.mic.ch0[n]? ∧ i.buffer[framePos f 3 n]? = i.mic.ch1[n]?
end

