-- ==== Sys2Proof/Laws/Decode.lean ====
section
/-! SUPPORT. The encoder's words as numbers, their fields, and what decoding is by operation code. -/

namespace Sys2Proof

/-- The word of a well-formed command is a 32-bit number (R111). -/
theorem encodeNat_lt {i : Instr} (h : i.WellFormed) : encodeNat i < 2 ^ 32 := by
  cases i <;> simp [Instr.WellFormed, Instr.wellFormed, encodeNat] at h ⊢ <;> omega

theorem encode_toNat {i : Instr} (h : i.WellFormed) : (encode i).toNat = encodeNat i := by
  rw [encode, BitVec.toNat_ofNat, Nat.mod_eq_of_lt (encodeNat_lt h)]

/-- A field of a command's word is a field of its number. -/
theorem field_encode {i : Instr} (h : i.WellFormed) (hi lo : Nat) :
    field (encode i) hi lo = encodeNat i / 2 ^ lo % 2 ^ (hi + 1 - lo) := by rw [field, encode_toNat h]

/-- The command of a word whose reserved bits are 0. -/
theorem whenZero_ok {w : Word} {hi lo : Nat} {i j : Instr} :
    whenZero w hi lo i = .ok j ↔ field w hi lo = 0 ∧ i = j := by
  unfold whenZero; split <;> simp_all

/-- What the decoder reads, operation code by operation code (R102, R107). -/
theorem decode_ok_cases {w : Word} {i : Instr} (h : decode w = .ok i) :
    (field w 31 28 = 1 ∧ field w 27 0 = 0 ∧ i = .srcInit) ∨
    (field w 31 28 = 2 ∧ field w 27 1 = 0 ∧ i = .srcUp (field w 0 0)) ∨
    (field w 31 28 = 3 ∧ field w 27 1 = 0 ∧ i = .srcDown (field w 0 0)) ∨
    (field w 31 28 = 4 ∧ field w 27 0 = 0 ∧ i = .pllInit) ∨
    (field w 31 28 = 5 ∧ field w 27 0 = 0 ∧ i = .pllStep) ∨
    (field w 31 28 = 6 ∧ field w 27 20 = 0 ∧ i = .xferChk (field w 19 16) (field w 15 0)) ∨
    (field w 31 28 = 7 ∧ field w 27 24 = 0 ∧ i = .xtChk (field w 23 0)) ∨
    (field w 31 28 = 8 ∧ field w 27 4 = 0 ∧ i = .halt (field w 3 0)) := by
  unfold decode at h
  split at h <;> first
    | (rw [whenZero_ok] at h; obtain ⟨hz, rfl⟩ := h; simp_all)
    | simp at h

end Sys2Proof
end

