-- ==== Sys2Proof/Laws/Number.lean ====
section
/-! SUPPORT. The number primitives: what narrowing keeps, ranges of the counter arithmetic, the filter on silence and its
bound. -/

namespace Sys2Proof.Machine

/-! ### Narrowing -/

/-- A value in the signed 64-bit range is stored as it is. -/
theorem toInt_ofInt_64 {v : Int} (lo : -2 ^ 63 ≤ v) (hi : v < 2 ^ 63) : (BitVec.ofInt 64 v).toInt = v := by
  rw [BitVec.toInt_ofInt, Int.bmod_def]; omega

theorem toInt_wrap64 {v : Int} (lo : -2 ^ 63 ≤ v) (hi : v < 2 ^ 63) : (wrap64 v).toInt = v := toInt_ofInt_64 lo hi

/-- A value in the sample range is stored as it is. -/
theorem toInt_ofInt_32 {v : Int} (lo : -2 ^ 31 ≤ v) (hi : v < 2 ^ 31) : (BitVec.ofInt 32 v).toInt = v := by
  rw [BitVec.toInt_ofInt, Int.bmod_def]; omega

/-- Reduction modulo 2^64 commutes with addition (R131). -/
theorem wrap64_add_wrap64 (a b : Int) : wrap64 ((wrap64 a).toInt + b) = wrap64 (a + b) := by
  apply BitVec.eq_of_toInt_eq
  simp [wrap64, BitVec.toInt_ofInt]

/-- The accumulators' sum is the sum of bit vectors. -/
theorem wrap64_toInt_add (a b : Acc) : wrap64 (a.toInt + b.toInt) = a + b := by
  apply BitVec.eq_of_toInt_eq
  simp [wrap64, BitVec.toInt_ofInt, BitVec.toInt_add]

theorem clamp_eq (v lo hi : Int) (h : lo ≤ hi) : clamp v lo hi = max lo (min v hi) := by
  unfold clamp; split
  · omega
  · split <;> omega

theorem clamp_bounds {v lo hi : Int} (h : lo ≤ hi) : lo ≤ clamp v lo hi ∧ clamp v lo hi ≤ hi := by
  rw [clamp_eq _ _ _ h]; omega

@[simp] theorem countWord_toNat (b : Bool) : (countWord b).toNat = b.toNat := by cases b <;> rfl
@[simp] theorem lockWord_toNat (b : Bool) : (lockWord b).toNat = b.toNat := by cases b <;> rfl

@[simp] theorem nextPhase_toNat (q : BitVec 2) : (nextPhase q).toNat = (q.toNat + 1) % 3 := by
  simp only [nextPhase, BitVec.toNat_ofNat]; omega

theorem nextPhase_lt (q : BitVec 2) : (nextPhase q).toNat < 3 := by rw [nextPhase_toNat]; omega

/-- Three advances bring a legal phase back (R26). -/
theorem nextPhase_thrice : ∀ q : BitVec 2, q.toNat < 3 → nextPhase (nextPhase (nextPhase q)) = q := by decide

/-! ### Rings and sums -/

theorem push_length {t : Nat} {h : List Word} (x : Word) (ht : 1 ≤ t) (hl : h.length = t) : (push t h x).length = t := by
  simp [push, hl]; omega

theorem mem_push {t : Nat} {h : List Word} {x y : Word} (hy : y ∈ push t h x) : y = x ∨ y ∈ h := by
  simp only [push, List.mem_cons] at hy
  exact hy.imp id List.mem_of_mem_take

theorem fitRing_length (t : Nat) (h : List Word) : (fitRing t h).length = t := by
  simp [fitRing]

/-- The sum over a silent ring is 0 (R138). -/
theorem dot_silent : ∀ (c h : List Word), (∀ x ∈ h, x = 0) → dot c h = 0
  | [], _, _ => by simp [dot]
  | _ :: _, [], _ => by simp [dot]
  | c :: cs, h :: hs, H => by
    have hh : h = 0 := H h (by simp)
    have ih := dot_silent cs hs fun x hx => H x (by simp [hx])
    simp [dot, hh, ih]

theorem fir_silent (c h : List Word) (H : ∀ x ∈ h, x = 0) : fir c h = 0 := by
  rw [fir, dot_silent c h H]; rfl

theorem firOut_zero : firOut 0 = 0 := by decide

/-- A sample is at most 2^31 in size (R130). -/
theorem word_natAbs_le (x : Word) : x.toInt.natAbs ≤ 2 ^ 31 := by
  have h1 := BitVec.toInt_lt (x := x)
  have h2 := BitVec.le_toInt (x := x)
  simp only [Nat.reduceSub] at h1 h2
  omega

/-- A sum is at most the sum of the coefficients' sizes times 2^31 (R135). -/
theorem dot_natAbs_le : ∀ (c h : List Word), (dot c h).natAbs ≤ absSum c * 2 ^ 31
  | [], _ => by simp [dot]
  | _ :: _, [] => by simp [dot]
  | c :: cs, h :: hs => by
    have ih := dot_natAbs_le cs hs
    have hm : (c.toInt * h.toInt).natAbs ≤ c.toInt.natAbs * 2 ^ 31 := by
      rw [Int.natAbs_mul]; exact Nat.mul_le_mul_left _ (word_natAbs_le h)
    have ht := Int.natAbs_add_le (c.toInt * h.toInt) (dot cs hs)
    simp only [dot, absSum, Nat.add_mul]
    omega

/-! ### The ranges of R6, by name -/

theorem cfg_t_pos (c : Cfg) : 1 ≤ c.par.t := c.legal.1.1
theorem cfg_lutLen (c : Cfg) : 3 ≤ c.par.lutLen ∧ c.par.lutLen < 2 ^ 16 := ⟨c.legal.1.2.2.2.2.2.1, c.legal.1.2.2.2.2.2.2⟩
theorem cfg_cntW (c : Cfg) : 1 ≤ c.par.cntW ∧ c.par.cntW ≤ 32 := c.legal.2.2.2.1
theorem cfg_ratioDen (c : Cfg) : 1 ≤ c.par.ratioDen := c.legal.2.2.2.2.2.1.1
theorem cfg_kp (c : Cfg) : c.par.kp < 2 ^ 15 := c.legal.2.2.2.2.2.2.2.1
theorem cfg_ki (c : Cfg) : c.par.ki < 2 ^ 15 := c.legal.2.2.2.2.2.2.2.2.1
theorem cfg_integMax (c : Cfg) : c.par.integMax < 2 ^ 47 := c.legal.2.2.2.2.2.2.2.2.2.2.1
theorem cfg_lockCount (c : Cfg) : 1 ≤ c.par.lockCount ∧ c.par.lockCount < 2 ^ 16 :=
  c.legal.2.2.2.2.2.2.2.2.2.2.2.2.1

/-! ### Counters and the loop filter -/

theorem two_pow_cntW_pos (p : Params) : (0 : Int) < 2 ^ p.cntW := by positivity

/-- Progress is a number below 2^CNT_W (R196 (a)). -/
theorem progress_bounds (p : Params) (now before : Word) :
    0 ≤ progress p now before ∧ progress p now before < 2 ^ p.cntW :=
  ⟨Int.emod_nonneg _ (two_pow_cntW_pos p).ne', Int.emod_lt_of_pos _ (two_pow_cntW_pos p)⟩

theorem readCounter_lt (p : Params) (w : Word) (h : p.cntW ≤ 32) : (readCounter p w).toNat = w.toNat % 2 ^ p.cntW := by
  have hlt : w.toNat % 2 ^ p.cntW < 2 ^ 32 :=
    lt_of_lt_of_le (Nat.mod_lt _ (by positivity)) (Nat.pow_le_pow_right (by norm_num) h)
  simp only [readCounter, BitVec.toNat_ofNat, Nat.mod_eq_of_lt hlt]

/-- The expected progress is between 0 and what the largest reference progress gives (R204). -/
theorem expected_bounds (p : Params) (hd : 1 ≤ p.ratioDen) {d : Int} (h0 : 0 ≤ d) (h1 : d < 2 ^ p.cntW) :
    0 ≤ expected p d ∧ expected p d ≤ errMax p := by
  have hden : (0 : Int) < p.ratioDen := by exact_mod_cast hd
  constructor
  · exact Int.ediv_nonneg (mul_nonneg h0 (by positivity)) hden.le
  · exact Int.ediv_le_ediv hden (mul_le_mul_of_nonneg_right (by omega) (by positivity))

/-- The range of the phase error (R38). -/
theorem phaseError_bounds (p : Params) (hd : 1 ≤ p.ratioDen) (ra fa r f : Word) :
    -(2 ^ p.cntW - 1) ≤ phaseError p ra fa r f ∧ phaseError p ra fa r f ≤ errMax p := by
  have hr := progress_bounds p r ra
  have hf := progress_bounds p f fa
  have he := expected_bounds p hd hr.1 hr.2
  unfold phaseError
  omega

/-- The largest phase error is below 2^48 (R38). -/
theorem errMax_lt (p : Params) (h : p.NumbersLegal) : 0 ≤ errMax p ∧ errMax p < 2 ^ 48 := by
  obtain ⟨-, -, ⟨-, hc⟩, ⟨hn1, hn⟩, ⟨hd, -⟩, -⟩ := h
  have hden : (0 : Int) < p.ratioDen := by exact_mod_cast hd
  have hpow : (2 : Int) ^ p.cntW ≤ 2 ^ 32 := pow_le_pow_right₀ (by norm_num) hc
  have hpos := two_pow_cntW_pos p
  have hnum : (0 : Int) ≤ p.ratioNum ∧ (p.ratioNum : Int) < 2 ^ 16 := ⟨by positivity, by exact_mod_cast hn⟩
  have hprod : ((2 : Int) ^ p.cntW - 1) * p.ratioNum ≤ (2 ^ 32 - 1) * (2 ^ 16 - 1) :=
    mul_le_mul (by omega) (by omega) hnum.1 (by norm_num)
  have hnn : 0 ≤ ((2 : Int) ^ p.cntW - 1) * p.ratioNum := mul_nonneg (by omega) hnum.1
  refine ⟨Int.ediv_nonneg hnn hden.le, ?_⟩
  have := Int.ediv_le_self p.ratioDen hnn
  unfold errMax
  omega

end Sys2Proof.Machine
end

