-- ==== Sys2Proof/Laws/State.lean ====
section
/-! SUPPORT. One lemma per field per update: what each named update of the state writes and leaves. -/

namespace Sys2Proof.Machine

@[simp] theorem lanes_map_ch0 {α β : Type} (f : α → β) (l : Lanes α) : (l.map f).ch0 = f l.ch0 := rfl
@[simp] theorem lanes_map_ch1 {α β : Type} (f : α → β) (l : Lanes α) : (l.map f).ch1 = f l.ch1 := rfl
@[simp] theorem lanes_map_get {α β : Type} (f : α → β) (l : Lanes α) (c : Chan) : (l.map f).get c = f (l.get c) := by
  cases c <;> rfl
@[simp] theorem lanes_get_c0 {α : Type} (l : Lanes α) : l.get .c0 = l.ch0 := rfl
@[simp] theorem lanes_get_c1 {α : Type} (l : Lanes α) : l.get .c1 = l.ch1 := rfl


/-! ### setTape -/

@[simp] theorem setTape_cfg (x : List Event) (s : State) : (setTape x s).cfg = s.cfg := rfl
@[simp] theorem setTape_srcReady (x : List Event) (s : State) : (setTape x s).srcReady = s.srcReady := rfl
@[simp] theorem setTape_up (x : List Event) (s : State) : (setTape x s).up = s.up := rfl
@[simp] theorem setTape_upcnt (x : List Event) (s : State) : (setTape x s).upcnt = s.upcnt := rfl
@[simp] theorem setTape_down (x : List Event) (s : State) : (setTape x s).down = s.down := rfl
@[simp] theorem setTape_dncnt (x : List Event) (s : State) : (setTape x s).dncnt = s.dncnt := rfl
@[simp] theorem setTape_pll (x : List Event) (s : State) : (setTape x s).pll = s.pll := rfl
@[simp] theorem setTape_halted (x : List Event) (s : State) : (setTape x s).halted = s.halted := rfl
@[simp] theorem setTape_cause (x : List Event) (s : State) : (setTape x s).cause = s.cause := rfl
@[simp] theorem setTape_hold (x : List Event) (s : State) : (setTape x s).hold = s.hold := rfl
@[simp] theorem setTape_tape (x : List Event) (s : State) : (setTape x s).tape = x := rfl
@[simp] theorem setTape_hotReply (x : List Event) (s : State) : (setTape x s).hotReply = s.hotReply := rfl
@[simp] theorem setTape_taskReply (x : List Event) (s : State) : (setTape x s).taskReply = s.taskReply := rfl

/-! ### setHold -/

@[simp] theorem setHold_cfg (x : Bool) (s : State) : (setHold x s).cfg = s.cfg := rfl
@[simp] theorem setHold_srcReady (x : Bool) (s : State) : (setHold x s).srcReady = s.srcReady := rfl
@[simp] theorem setHold_up (x : Bool) (s : State) : (setHold x s).up = s.up := rfl
@[simp] theorem setHold_upcnt (x : Bool) (s : State) : (setHold x s).upcnt = s.upcnt := rfl
@[simp] theorem setHold_down (x : Bool) (s : State) : (setHold x s).down = s.down := rfl
@[simp] theorem setHold_dncnt (x : Bool) (s : State) : (setHold x s).dncnt = s.dncnt := rfl
@[simp] theorem setHold_pll (x : Bool) (s : State) : (setHold x s).pll = s.pll := rfl
@[simp] theorem setHold_halted (x : Bool) (s : State) : (setHold x s).halted = s.halted := rfl
@[simp] theorem setHold_cause (x : Bool) (s : State) : (setHold x s).cause = s.cause := rfl
@[simp] theorem setHold_hold (x : Bool) (s : State) : (setHold x s).hold = x := rfl
@[simp] theorem setHold_tape (x : Bool) (s : State) : (setHold x s).tape = s.tape := rfl
@[simp] theorem setHold_hotReply (x : Bool) (s : State) : (setHold x s).hotReply = s.hotReply := rfl
@[simp] theorem setHold_taskReply (x : Bool) (s : State) : (setHold x s).taskReply = s.taskReply := rfl

/-! ### setHotReply -/

@[simp] theorem setHotReply_cfg (x : Word) (s : State) : (setHotReply x s).cfg = s.cfg := rfl
@[simp] theorem setHotReply_srcReady (x : Word) (s : State) : (setHotReply x s).srcReady = s.srcReady := rfl
@[simp] theorem setHotReply_up (x : Word) (s : State) : (setHotReply x s).up = s.up := rfl
@[simp] theorem setHotReply_upcnt (x : Word) (s : State) : (setHotReply x s).upcnt = s.upcnt := rfl
@[simp] theorem setHotReply_down (x : Word) (s : State) : (setHotReply x s).down = s.down := rfl
@[simp] theorem setHotReply_dncnt (x : Word) (s : State) : (setHotReply x s).dncnt = s.dncnt := rfl
@[simp] theorem setHotReply_pll (x : Word) (s : State) : (setHotReply x s).pll = s.pll := rfl
@[simp] theorem setHotReply_halted (x : Word) (s : State) : (setHotReply x s).halted = s.halted := rfl
@[simp] theorem setHotReply_cause (x : Word) (s : State) : (setHotReply x s).cause = s.cause := rfl
@[simp] theorem setHotReply_hold (x : Word) (s : State) : (setHotReply x s).hold = s.hold := rfl
@[simp] theorem setHotReply_tape (x : Word) (s : State) : (setHotReply x s).tape = s.tape := rfl
@[simp] theorem setHotReply_hotReply (x : Word) (s : State) : (setHotReply x s).hotReply = some x := rfl
@[simp] theorem setHotReply_taskReply (x : Word) (s : State) : (setHotReply x s).taskReply = s.taskReply := rfl

/-! ### setTaskReply -/

@[simp] theorem setTaskReply_cfg (x : Word) (s : State) : (setTaskReply x s).cfg = s.cfg := rfl
@[simp] theorem setTaskReply_srcReady (x : Word) (s : State) : (setTaskReply x s).srcReady = s.srcReady := rfl
@[simp] theorem setTaskReply_up (x : Word) (s : State) : (setTaskReply x s).up = s.up := rfl
@[simp] theorem setTaskReply_upcnt (x : Word) (s : State) : (setTaskReply x s).upcnt = s.upcnt := rfl
@[simp] theorem setTaskReply_down (x : Word) (s : State) : (setTaskReply x s).down = s.down := rfl
@[simp] theorem setTaskReply_dncnt (x : Word) (s : State) : (setTaskReply x s).dncnt = s.dncnt := rfl
@[simp] theorem setTaskReply_pll (x : Word) (s : State) : (setTaskReply x s).pll = s.pll := rfl
@[simp] theorem setTaskReply_halted (x : Word) (s : State) : (setTaskReply x s).halted = s.halted := rfl
@[simp] theorem setTaskReply_cause (x : Word) (s : State) : (setTaskReply x s).cause = s.cause := rfl
@[simp] theorem setTaskReply_hold (x : Word) (s : State) : (setTaskReply x s).hold = s.hold := rfl
@[simp] theorem setTaskReply_tape (x : Word) (s : State) : (setTaskReply x s).tape = s.tape := rfl
@[simp] theorem setTaskReply_hotReply (x : Word) (s : State) : (setTaskReply x s).hotReply = s.hotReply := rfl
@[simp] theorem setTaskReply_taskReply (x : Word) (s : State) : (setTaskReply x s).taskReply = some x := rfl

/-! ### setSrcReady -/

@[simp] theorem setSrcReady_cfg (s : State) : (setSrcReady s).cfg = s.cfg := rfl
@[simp] theorem setSrcReady_srcReady (s : State) : (setSrcReady s).srcReady = true := rfl
@[simp] theorem setSrcReady_up (s : State) : (setSrcReady s).up = s.up := rfl
@[simp] theorem setSrcReady_upcnt (s : State) : (setSrcReady s).upcnt = s.upcnt := rfl
@[simp] theorem setSrcReady_down (s : State) : (setSrcReady s).down = s.down := rfl
@[simp] theorem setSrcReady_dncnt (s : State) : (setSrcReady s).dncnt = s.dncnt := rfl
@[simp] theorem setSrcReady_pll (s : State) : (setSrcReady s).pll = s.pll := rfl
@[simp] theorem setSrcReady_halted (s : State) : (setSrcReady s).halted = s.halted := rfl
@[simp] theorem setSrcReady_cause (s : State) : (setSrcReady s).cause = s.cause := rfl
@[simp] theorem setSrcReady_hold (s : State) : (setSrcReady s).hold = s.hold := rfl
@[simp] theorem setSrcReady_tape (s : State) : (setSrcReady s).tape = s.tape := rfl
@[simp] theorem setSrcReady_hotReply (s : State) : (setSrcReady s).hotReply = s.hotReply := rfl
@[simp] theorem setSrcReady_taskReply (s : State) : (setSrcReady s).taskReply = s.taskReply := rfl

/-! ### setUp -/

@[simp] theorem setUp_cfg (x : Lanes UpLane) (n : Word) (s : State) : (setUp x n s).cfg = s.cfg := rfl
@[simp] theorem setUp_srcReady (x : Lanes UpLane) (n : Word) (s : State) : (setUp x n s).srcReady = s.srcReady := rfl
@[simp] theorem setUp_up (x : Lanes UpLane) (n : Word) (s : State) : (setUp x n s).up = x := rfl
@[simp] theorem setUp_upcnt (x : Lanes UpLane) (n : Word) (s : State) : (setUp x n s).upcnt = n := rfl
@[simp] theorem setUp_down (x : Lanes UpLane) (n : Word) (s : State) : (setUp x n s).down = s.down := rfl
@[simp] theorem setUp_dncnt (x : Lanes UpLane) (n : Word) (s : State) : (setUp x n s).dncnt = s.dncnt := rfl
@[simp] theorem setUp_pll (x : Lanes UpLane) (n : Word) (s : State) : (setUp x n s).pll = s.pll := rfl
@[simp] theorem setUp_halted (x : Lanes UpLane) (n : Word) (s : State) : (setUp x n s).halted = s.halted := rfl
@[simp] theorem setUp_cause (x : Lanes UpLane) (n : Word) (s : State) : (setUp x n s).cause = s.cause := rfl
@[simp] theorem setUp_hold (x : Lanes UpLane) (n : Word) (s : State) : (setUp x n s).hold = s.hold := rfl
@[simp] theorem setUp_tape (x : Lanes UpLane) (n : Word) (s : State) : (setUp x n s).tape = s.tape := rfl
@[simp] theorem setUp_hotReply (x : Lanes UpLane) (n : Word) (s : State) : (setUp x n s).hotReply = s.hotReply := rfl
@[simp] theorem setUp_taskReply (x : Lanes UpLane) (n : Word) (s : State) : (setUp x n s).taskReply = s.taskReply := rfl

/-! ### setDown -/

@[simp] theorem setDown_cfg (x : Lanes DownLane) (n : Word) (s : State) : (setDown x n s).cfg = s.cfg := rfl
@[simp] theorem setDown_srcReady (x : Lanes DownLane) (n : Word) (s : State) : (setDown x n s).srcReady = s.srcReady := rfl
@[simp] theorem setDown_up (x : Lanes DownLane) (n : Word) (s : State) : (setDown x n s).up = s.up := rfl
@[simp] theorem setDown_upcnt (x : Lanes DownLane) (n : Word) (s : State) : (setDown x n s).upcnt = s.upcnt := rfl
@[simp] theorem setDown_down (x : Lanes DownLane) (n : Word) (s : State) : (setDown x n s).down = x := rfl
@[simp] theorem setDown_dncnt (x : Lanes DownLane) (n : Word) (s : State) : (setDown x n s).dncnt = n := rfl
@[simp] theorem setDown_pll (x : Lanes DownLane) (n : Word) (s : State) : (setDown x n s).pll = s.pll := rfl
@[simp] theorem setDown_halted (x : Lanes DownLane) (n : Word) (s : State) : (setDown x n s).halted = s.halted := rfl
@[simp] theorem setDown_cause (x : Lanes DownLane) (n : Word) (s : State) : (setDown x n s).cause = s.cause := rfl
@[simp] theorem setDown_hold (x : Lanes DownLane) (n : Word) (s : State) : (setDown x n s).hold = s.hold := rfl
@[simp] theorem setDown_tape (x : Lanes DownLane) (n : Word) (s : State) : (setDown x n s).tape = s.tape := rfl
@[simp] theorem setDown_hotReply (x : Lanes DownLane) (n : Word) (s : State) : (setDown x n s).hotReply = s.hotReply := rfl
@[simp] theorem setDown_taskReply (x : Lanes DownLane) (n : Word) (s : State) : (setDown x n s).taskReply = s.taskReply := rfl

/-! ### setPll -/

@[simp] theorem setPll_cfg (x : Pll) (s : State) : (setPll x s).cfg = s.cfg := rfl
@[simp] theorem setPll_srcReady (x : Pll) (s : State) : (setPll x s).srcReady = s.srcReady := rfl
@[simp] theorem setPll_up (x : Pll) (s : State) : (setPll x s).up = s.up := rfl
@[simp] theorem setPll_upcnt (x : Pll) (s : State) : (setPll x s).upcnt = s.upcnt := rfl
@[simp] theorem setPll_down (x : Pll) (s : State) : (setPll x s).down = s.down := rfl
@[simp] theorem setPll_dncnt (x : Pll) (s : State) : (setPll x s).dncnt = s.dncnt := rfl
@[simp] theorem setPll_pll (x : Pll) (s : State) : (setPll x s).pll = x := rfl
@[simp] theorem setPll_halted (x : Pll) (s : State) : (setPll x s).halted = s.halted := rfl
@[simp] theorem setPll_cause (x : Pll) (s : State) : (setPll x s).cause = s.cause := rfl
@[simp] theorem setPll_hold (x : Pll) (s : State) : (setPll x s).hold = s.hold := rfl
@[simp] theorem setPll_tape (x : Pll) (s : State) : (setPll x s).tape = s.tape := rfl
@[simp] theorem setPll_hotReply (x : Pll) (s : State) : (setPll x s).hotReply = s.hotReply := rfl
@[simp] theorem setPll_taskReply (x : Pll) (s : State) : (setPll x s).taskReply = s.taskReply := rfl

/-! ### raiseFatal -/

@[simp] theorem raiseFatal_cfg (k : BitVec 4) (s : State) : (raiseFatal k s).cfg = s.cfg := rfl
@[simp] theorem raiseFatal_srcReady (k : BitVec 4) (s : State) : (raiseFatal k s).srcReady = s.srcReady := rfl
@[simp] theorem raiseFatal_up (k : BitVec 4) (s : State) : (raiseFatal k s).up = s.up := rfl
@[simp] theorem raiseFatal_upcnt (k : BitVec 4) (s : State) : (raiseFatal k s).upcnt = s.upcnt := rfl
@[simp] theorem raiseFatal_down (k : BitVec 4) (s : State) : (raiseFatal k s).down = s.down := rfl
@[simp] theorem raiseFatal_dncnt (k : BitVec 4) (s : State) : (raiseFatal k s).dncnt = s.dncnt := rfl
@[simp] theorem raiseFatal_pll (k : BitVec 4) (s : State) : (raiseFatal k s).pll = s.pll := rfl
@[simp] theorem raiseFatal_halted (k : BitVec 4) (s : State) : (raiseFatal k s).halted = true := rfl
@[simp] theorem raiseFatal_cause (k : BitVec 4) (s : State) : (raiseFatal k s).cause = k := rfl
@[simp] theorem raiseFatal_hold (k : BitVec 4) (s : State) : (raiseFatal k s).hold = s.hold := rfl
@[simp] theorem raiseFatal_tape (k : BitVec 4) (s : State) : (raiseFatal k s).tape = s.tape := rfl
@[simp] theorem raiseFatal_hotReply (k : BitVec 4) (s : State) : (raiseFatal k s).hotReply = s.hotReply := rfl
@[simp] theorem raiseFatal_taskReply (k : BitVec 4) (s : State) : (raiseFatal k s).taskReply = s.taskReply := rfl

/-! ### setUpin, setDnin -/

@[simp] theorem setUpin_cfg (c : Chan) (v : Word) (s : State) : (setUpin c v s).cfg = s.cfg := by cases c <;> rfl
@[simp] theorem setUpin_srcReady (c : Chan) (v : Word) (s : State) : (setUpin c v s).srcReady = s.srcReady := by cases c <;> rfl
@[simp] theorem setUpin_upcnt (c : Chan) (v : Word) (s : State) : (setUpin c v s).upcnt = s.upcnt := by cases c <;> rfl
@[simp] theorem setUpin_down (c : Chan) (v : Word) (s : State) : (setUpin c v s).down = s.down := by cases c <;> rfl
@[simp] theorem setUpin_dncnt (c : Chan) (v : Word) (s : State) : (setUpin c v s).dncnt = s.dncnt := by cases c <;> rfl
@[simp] theorem setUpin_pll (c : Chan) (v : Word) (s : State) : (setUpin c v s).pll = s.pll := by cases c <;> rfl
@[simp] theorem setUpin_halted (c : Chan) (v : Word) (s : State) : (setUpin c v s).halted = s.halted := by cases c <;> rfl
@[simp] theorem setUpin_cause (c : Chan) (v : Word) (s : State) : (setUpin c v s).cause = s.cause := by cases c <;> rfl
@[simp] theorem setUpin_hold (c : Chan) (v : Word) (s : State) : (setUpin c v s).hold = s.hold := by cases c <;> rfl
@[simp] theorem setUpin_tape (c : Chan) (v : Word) (s : State) : (setUpin c v s).tape = s.tape := by cases c <;> rfl
@[simp] theorem setUpin_hotReply (c : Chan) (v : Word) (s : State) : (setUpin c v s).hotReply = s.hotReply := by cases c <;> rfl
@[simp] theorem setUpin_taskReply (c : Chan) (v : Word) (s : State) : (setUpin c v s).taskReply = s.taskReply := by cases c <;> rfl
@[simp] theorem setDnin_cfg (c : Chan) (v : Word) (s : State) : (setDnin c v s).cfg = s.cfg := by cases c <;> rfl
@[simp] theorem setDnin_srcReady (c : Chan) (v : Word) (s : State) : (setDnin c v s).srcReady = s.srcReady := by cases c <;> rfl
@[simp] theorem setDnin_up (c : Chan) (v : Word) (s : State) : (setDnin c v s).up = s.up := by cases c <;> rfl
@[simp] theorem setDnin_upcnt (c : Chan) (v : Word) (s : State) : (setDnin c v s).upcnt = s.upcnt := by cases c <;> rfl
@[simp] theorem setDnin_dncnt (c : Chan) (v : Word) (s : State) : (setDnin c v s).dncnt = s.dncnt := by cases c <;> rfl
@[simp] theorem setDnin_pll (c : Chan) (v : Word) (s : State) : (setDnin c v s).pll = s.pll := by cases c <;> rfl
@[simp] theorem setDnin_halted (c : Chan) (v : Word) (s : State) : (setDnin c v s).halted = s.halted := by cases c <;> rfl
@[simp] theorem setDnin_cause (c : Chan) (v : Word) (s : State) : (setDnin c v s).cause = s.cause := by cases c <;> rfl
@[simp] theorem setDnin_hold (c : Chan) (v : Word) (s : State) : (setDnin c v s).hold = s.hold := by cases c <;> rfl
@[simp] theorem setDnin_tape (c : Chan) (v : Word) (s : State) : (setDnin c v s).tape = s.tape := by cases c <;> rfl
@[simp] theorem setDnin_hotReply (c : Chan) (v : Word) (s : State) : (setDnin c v s).hotReply = s.hotReply := by cases c <;> rfl
@[simp] theorem setDnin_taskReply (c : Chan) (v : Word) (s : State) : (setDnin c v s).taskReply = s.taskReply := by cases c <;> rfl

/-- The lane a write to `UPIN[c]` leaves in each channel. -/
theorem setUpin_get (c c' : Chan) (v : Word) (s : State) :
    (setUpin c v s).up.get c' = if c' = c then { s.up.get c' with upin := v } else s.up.get c' := by
  cases c <;> cases c' <;> rfl

/-- The lane a write to `DNIN[c]` leaves in each channel. -/
theorem setDnin_get (c c' : Chan) (v : Word) (s : State) :
    (setDnin c v s).down.get c' = if c' = c then { s.down.get c' with dnin := v } else s.down.get c' := by
  cases c <;> cases c' <;> rfl

/-! ### Lanes -/

/-- Two pairs of lanes are equal when they agree in each channel. -/
theorem lanes_ext {α : Type} {l l' : Lanes α} (h : ∀ c, l.get c = l'.get c) : l = l' := by
  cases l; cases l'
  have h0 := h .c0
  have h1 := h .c1
  simp only [lanes_get_c0, lanes_get_c1] at h0 h1
  rw [h0, h1]

end Sys2Proof.Machine
end

