-- ==== Sys2Proof/Laws/Command.lean ====
section
/-! SUPPORT. What a command can do: every command answers a next state, ignored when halted, and otherwise by one equation
per command; what a lane of `SRC.UP` and `SRC.DOWN` leaves alone. -/

namespace Sys2Proof.Machine

/-- The state a command leaves. Said once: no command faults or is refused. -/
theorem exec_answers (i : Instr) (s : State) : ∃ t, exec i s = .next t := by cases i <;> exact ⟨_, rfl⟩

/-- A command is ignored while halted (R286). -/
theorem exec_halted (i : Instr) {s : State} (h : s.halted = true) : exec i s = .next s := by
  cases i <;>
    simp [exec, execSrcInit, execSrcUp, execSrcDown, execPllInit, execPllStep, execXferChk, execXtChk, execHalt, h]

/-! ### One equation per command in a running state -/

theorem exec_srcInit {s : State} (h : s.halted = false) :
    exec .srcInit s = .next (if s.srcReady = true then raiseFatal causeBadSequence s else srcInitBody s) := by
  simp [exec, execSrcInit, h]

theorem exec_srcUp (a : Nat) {s : State} (h : s.halted = false) (r : s.srcReady = true) :
    exec (.srcUp a) s = .next (srcUpBody srcArith a s) := by simp [exec, execSrcUp, h, r]

theorem exec_srcDown (a : Nat) {s : State} (h : s.halted = false) (r : s.srcReady = true) :
    exec (.srcDown a) s = .next (srcDownBody srcArith a s) := by simp [exec, execSrcDown, h, r]

theorem exec_srcUp_early (a : Nat) {s : State} (h : s.halted = false) (r : s.srcReady = false) :
    exec (.srcUp a) s = .next (raiseFatal causeBadSequence s) := by simp [exec, execSrcUp, h, r]

theorem exec_srcDown_early (a : Nat) {s : State} (h : s.halted = false) (r : s.srcReady = false) :
    exec (.srcDown a) s = .next (raiseFatal causeBadSequence s) := by simp [exec, execSrcDown, h, r]

theorem exec_pllInit {s : State} (h : s.halted = false) :
    exec .pllInit s = .next (if s.par.pllEn = false ∨ s.pll.ready = true then raiseFatal causeBadSequence s
      else setPll (pllInitial s.par s.pll) s) := by
  cases h1 : s.par.pllEn <;> cases h2 : s.pll.ready <;> simp [exec, execPllInit, h, h1, h2]

theorem exec_pllStep {s : State} (h : s.halted = false) :
    exec .pllStep s = .next (if s.par.pllEn = false ∨ s.pll.ready = false then raiseFatal causeBadSequence s
      else awaitEdge piFilter s) := by
  cases h1 : s.par.pllEn <;> cases h2 : s.pll.ready <;> simp [exec, execPllStep, h, h1, h2]

/-- What the wait does (R203): it completes with the edge that is the environment's next move, or holds. -/
theorem awaitEdge_cases (F : LoopFilter) (s : State) :
    (∃ r f rest, nextEnv s.tape = some (.refEdge r f, rest) ∧
      awaitEdge F s = setPll (pllCycle F s.par r f s.pll) (setHold false (setTape rest s))) ∨
    ((∀ r f rest, nextEnv s.tape ≠ some (.refEdge r f, rest)) ∧ awaitEdge F s = setHold true s) := by
  unfold awaitEdge
  split
  · exact .inl ⟨_, _, _, ‹_›, rfl⟩
  · rename_i h
    exact .inr ⟨fun r f rest e => h r f rest e, rfl⟩

/-! ### Lanes -/

theorem flagSet_iff (a : Nat) : flagSet a = true ↔ a = 1 := by simp [flagSet]

/-- A lane of `SRC.UP` at each invocation phase (R153). -/
theorem upLane_zero (A : SrcArith) (p : Params) (a : Nat) {l : UpLane} (h : l.uph = 0) :
    upLane A p a l = { l with
      uh := A.push p.t l.uh (if a = 1 then l.upin else 0)
      upout := A.firOut (A.fir p.coef.p2 (A.push p.t l.uh (if a = 1 then l.upin else 0)))
      uph := 1 } := by
  rw [upLane, if_pos h, h]; simp only [flagSet_iff]; rfl

theorem upLane_one (A : SrcArith) (p : Params) (a : Nat) {l : UpLane} (h : l.uph = 1) :
    upLane A p a l = { l with upout := A.firOut (A.fir p.coef.p1 l.uh), uph := 2 } := by
  rw [upLane, if_neg (by rw [h]; decide), if_pos h, h]; rfl

theorem upLane_two (A : SrcArith) (p : Params) (a : Nat) {l : UpLane} (h : l.uph = 2) :
    upLane A p a l = { l with upout := A.firOut (A.fir p.coef.p0 l.uh), uph := 0 } := by
  rw [upLane, if_neg (by rw [h]; decide), if_neg (by rw [h]; decide), h]; rfl

/-- The availability flag is read at phase 0 only. -/
theorem upLane_flag (A : SrcArith) (p : Params) (a b : Nat) {l : UpLane} (h : l.uph ≠ 0) :
    upLane A p a l = upLane A p b l := by rw [upLane, if_neg h, upLane, if_neg h]

/-- `UPIN` is read only when the lane consumes it. -/
theorem upLane_upin_unread (A : SrcArith) (p : Params) (a : Nat) (v : Word) {l : UpLane} (h : a ≠ 1 ∨ l.uph ≠ 0) :
    upLane A p a { l with upin := v } = { upLane A p a l with upin := v } := by
  by_cases h0 : l.uph = 0
  · have ha : a ≠ 1 := by tauto
    rw [upLane_zero A p a h0, upLane_zero A p a (l := { l with upin := v }) h0, if_neg ha, if_neg ha]
  · unfold upLane
    rw [if_neg h0, if_neg h0]
    split <;> rfl

/-- `UPCNT` (R34): a sample slot was consumed, or not. -/
theorem upConsumes_count (a : Nat) (l m : UpLane) :
    countWord (upConsumes a l || upConsumes a m) = if a = 1 ∧ (l.uph = 0 ∨ m.uph = 0) then 1 else 0 := by
  by_cases ha : a = 1
  · by_cases h0 : l.uph = 0
    · rw [if_pos ⟨ha, .inl h0⟩]; simp [upConsumes, flagSet, ha, h0]; rfl
    · by_cases h1 : m.uph = 0
      · rw [if_pos ⟨ha, .inr h1⟩]; simp [upConsumes, flagSet, ha, h1]; rfl
      · rw [if_neg (by tauto), upConsumes, upConsumes, beq_eq_false_iff_ne.2 h0, beq_eq_false_iff_ne.2 h1]; rfl
  · rw [if_neg (by tauto), upConsumes, upConsumes, flagSet, beq_eq_false_iff_ne.2 ha]; simp; rfl

/-- A lane of `SRC.DOWN` at each invocation phase (R173). -/
theorem downLane_zero (A : SrcArith) (p : Params) (sp : Nat) {l : DownLane} (h : l.dph = 0) :
    downLane A p sp l = { l with
      dh := { l.dh with p0 := A.push p.t l.dh.p0 l.dnin }
      dsum := A.fir p.coef.p0 (A.push p.t l.dh.p0 l.dnin)
      dph := 1 } := by
  simp only [downLane, downRing, downTerm, downTotal, phaseGet, phaseSet, h]; rfl

theorem downLane_one (A : SrcArith) (p : Params) (sp : Nat) {l : DownLane} (h : l.dph = 1) :
    downLane A p sp l = { l with
      dh := { l.dh with p1 := A.push p.t l.dh.p1 l.dnin }
      dsum := wrap64 (l.dsum.toInt + (A.fir p.coef.p1 (A.push p.t l.dh.p1 l.dnin)).toInt)
      dph := 2 } := by
  simp only [downLane, downRing, downTerm, downTotal, phaseGet, phaseSet, h]; rfl

theorem downLane_two (A : SrcArith) (p : Params) (sp : Nat) {l : DownLane} (h : l.dph = 2) :
    downLane A p sp l = { l with
      dh := { l.dh with p2 := A.push p.t l.dh.p2 l.dnin }
      dnout := if sp = 1 then A.firOut (wrap64 (l.dsum.toInt + (A.fir p.coef.p2 (A.push p.t l.dh.p2 l.dnin)).toInt))
        else l.dnout
      dph := 0 } := by
  simp only [downLane, downRing, downTerm, downTotal, phaseGet, phaseSet, h, flagSet_iff]; rfl

/-- The space flag is read at phase 2 only. -/
theorem downLane_flag (A : SrcArith) (p : Params) (a b : Nat) {l : DownLane} (h : l.dph = 0 ∨ l.dph = 1) :
    downLane A p a l = downLane A p b l := by rw [downLane, if_pos h, downLane, if_pos h]

/-- `DNCNT` (R35): a sample slot was produced, or not. -/
theorem downProduces_count (sp : Nat) (l m : DownLane) :
    countWord (downProduces sp l || downProduces sp m) =
      if sp = 1 ∧ (2 ≤ l.dph.toNat ∨ 2 ≤ m.dph.toNat) then 1 else 0 := by
  have key : ∀ q r : BitVec 2, ∀ f : Bool, countWord ((q != 0 && q != 1 && f) || (r != 0 && r != 1 && f)) =
      if f = true ∧ (2 ≤ q.toNat ∨ 2 ≤ r.toNat) then 1 else 0 := by decide
  rw [downProduces, downProduces, key]; simp only [flagSet_iff]

@[simp] theorem upLane_upin (A : SrcArith) (p : Params) (a : Nat) (l : UpLane) : (upLane A p a l).upin = l.upin := by
  unfold upLane; split
  · rfl
  · split <;> rfl

@[simp] theorem upLane_uph (A : SrcArith) (p : Params) (a : Nat) (l : UpLane) :
    (upLane A p a l).uph = nextPhase l.uph := by
  unfold upLane; split
  · rfl
  · split <;> rfl

/-- The ring of a lane keeps its length if `Push` does (R21). -/
theorem upLane_ring_length (p : Params) (a : Nat) (l : UpLane) (ht : 1 ≤ p.t) (h : l.uh.length = p.t) :
    (upLane srcArith p a l).uh.length = p.t := by
  unfold upLane; split
  · exact push_length _ ht h
  · split <;> exact h

@[simp] theorem downLane_dnin (A : SrcArith) (p : Params) (a : Nat) (l : DownLane) :
    (downLane A p a l).dnin = l.dnin := rfl

@[simp] theorem downLane_dph (A : SrcArith) (p : Params) (a : Nat) (l : DownLane) :
    (downLane A p a l).dph = nextPhase l.dph := rfl

/-- The rings of a lane keep their lengths if `Push` does (R22). -/
theorem downLane_ring_lengths (p : Params) (a : Nat) (l : DownLane) (ht : 1 ≤ p.t)
    (h : l.dh.p0.length = p.t ∧ l.dh.p1.length = p.t ∧ l.dh.p2.length = p.t) :
    (downLane srcArith p a l).dh.p0.length = p.t ∧ (downLane srcArith p a l).dh.p1.length = p.t ∧
      (downLane srcArith p a l).dh.p2.length = p.t := by
  obtain ⟨h0, h1, h2⟩ := h
  simp only [downLane, phaseSet, downRing, phaseGet, srcArith]
  split
  · exact ⟨push_length _ ht h0, h1, h2⟩
  · split
    · exact ⟨h0, push_length _ ht h1, h2⟩
    · exact ⟨h0, h1, push_length _ ht h2⟩

/-! ### The controller -/

@[simp] theorem oscWrite_pair (p : Params) (i : Nat) (l : Pll) :
    ((oscWrite p i l).oscDiv, (oscWrite p i l).oscFrac) = lutEntry p i := rfl

/-- The length of the table as a bound for selectors that 16 bits hold (R6). -/
theorem sel_toNat {p : Params} (h : p.TablesLegal) {i : Nat} (hi : i < p.lutLen) : (BitVec.ofNat 16 i).toNat = i := by
  rw [BitVec.toNat_ofNat, Nat.mod_eq_of_lt]; exact lt_trans hi h.2.2.2.2.2.2

/-- The selector is an index of the table (R205). -/
theorem selNext_bounds {p : Params} (h : p.TablesLegal) (e i2 : Int) :
    0 ≤ selNext p e i2 ∧ selNext p e i2 < p.lutLen := by
  have h3 : 3 ≤ p.lutLen := h.2.2.2.2.2.1
  have := clamp_bounds (v := p.selNom + asr (p.kp * e + p.ki * i2) p.gainShift) (lo := 0)
    (hi := (p.lutLen : Int) - 1) (by omega)
  unfold selNext; omega

/-- The integral accumulator is within its clamp (R39). -/
theorem integNext_bounds (p : Params) (i e : Int) :
    -(p.integMax : Int) ≤ integNext p i e ∧ integNext p i e ≤ p.integMax := clamp_bounds (by omega)

@[simp] theorem inWindow_iff (p : Params) (e : Int) : inWindow p e = true ↔ e.natAbs ≤ p.lockWindow := by
  simp [inWindow]

/-- The consecutive count is at most `LOCK_COUNT` (R42). -/
theorem lockCountNext_le (p : Params) (inw : Bool) (c : Nat) : lockCountNext p inw c ≤ p.lockCount := by
  unfold lockCountNext; split <;> omega

/-- The lock bookkeeping of a control cycle, for any loop filter (R205): the count and the status it leaves. -/
theorem controlCycle_lockCnt (F : LoopFilter) (c : Cfg) (r f : Word) (l : Pll) :
    (controlCycle F c.par r f l).lockCnt.toNat =
      if (phaseError c.par l.refAcc l.fbAcc r f).natAbs ≤ c.par.lockWindow
      then min (l.lockCnt.toNat + 1) c.par.lockCount else 0 := by
  have hc := cfg_lockCount c
  have := lockCountNext_le c.par (inWindow c.par (phaseError c.par l.refAcc l.fbAcc r f)) l.lockCnt.toNat
  simp only [controlCycle, oscWrite, BitVec.toNat_ofNat]
  rw [Nat.mod_eq_of_lt (by omega), lockCountNext]
  simp only [inWindow_iff]

theorem controlCycle_lock (F : LoopFilter) (c : Cfg) (r f : Word) (l : Pll) :
    (controlCycle F c.par r f l).lock = true ↔
      (phaseError c.par l.refAcc l.fbAcc r f).natAbs ≤ c.par.lockWindow ∧ c.par.lockCount ≤ l.lockCnt.toNat + 1 := by
  simp only [controlCycle, oscWrite, lockNext, lockCountNext, Bool.and_eq_true, inWindow_iff, beq_iff_eq]
  constructor
  · rintro ⟨h, h'⟩; rw [if_pos h] at h'; omega
  · rintro ⟨h, h'⟩; rw [if_pos h]; omega

@[simp] theorem controlCycle_snapshots (F : LoopFilter) (p : Params) (r f : Word) (l : Pll) :
    (controlCycle F p r f l).refAcc = r ∧ (controlCycle F p r f l).fbAcc = f := ⟨rfl, rfl⟩

/-- The wait when the edge is there. -/
theorem awaitEdge_edge (F : LoopFilter) {s : State} {r f : Word} {rest : List Event}
    (h : nextEnv s.tape = some (.refEdge r f, rest)) :
    awaitEdge F s = setPll (pllCycle F s.par r f s.pll) (setHold false (setTape rest s)) := by rw [awaitEdge, h]

/-! ### Everything a command can do -/

/-- A command is ignored while halted, raises a fatal assertion (with a cause that is not 0 if its operands are in range),
or has the effect of its section. -/
theorem exec_cases {i : Instr} {s t : State} (h : exec i s = .next t) :
    (s.halted = true ∧ t = s) ∨
    (s.halted = false ∧ ∃ k : BitVec 4, (i.WellFormed → k ≠ 0) ∧ t = raiseFatal k s) ∨
    (s.halted = false ∧
      ((i = .srcInit ∧ s.srcReady = false ∧ t = srcInitBody s) ∨
       (∃ a, i = .srcUp a ∧ s.srcReady = true ∧ t = srcUpBody srcArith a s) ∨
       (∃ a, i = .srcDown a ∧ s.srcReady = true ∧ t = srcDownBody srcArith a s) ∨
       (i = .pllInit ∧ s.par.pllEn = true ∧ s.pll.ready = false ∧ t = setPll (pllInitial s.par s.pll) s) ∨
       (i = .pllStep ∧ s.par.pllEn = true ∧ s.pll.ready = true ∧ t = awaitEdge piFilter s) ∨
       (i = .xferChk nch s.par.frameCount ∧ t = s) ∨
       (i = .xtChk s.par.xtFrameBytes ∧ t = s))) := by
  cases hl : s.halted with
  | true => rw [exec_halted i hl] at h; cases h; exact .inl ⟨rfl, rfl⟩
  | false =>
    have fatal : ∀ k : BitVec 4, k ≠ 0 → t = raiseFatal k s →
        ∃ k : BitVec 4, (i.WellFormed → k ≠ 0) ∧ t = raiseFatal k s := fun k hk e => ⟨k, fun _ => hk, e⟩
    cases i with
    | srcInit =>
      rw [exec_srcInit hl] at h
      split at h
      · cases h; exact .inr (.inl ⟨rfl, fatal _ (by decide) rfl⟩)
      · rename_i hr
        cases h; exact .inr (.inr ⟨rfl, .inl ⟨rfl, by simpa using hr, rfl⟩⟩)
    | srcUp a =>
      cases hr : s.srcReady with
      | false =>
        rw [exec_srcUp_early _ hl hr] at h; cases h
        exact .inr (.inl ⟨rfl, fatal _ (by decide) rfl⟩)
      | true =>
        rw [exec_srcUp _ hl hr] at h; cases h
        exact .inr (.inr ⟨rfl, .inr (.inl ⟨a, rfl, rfl, rfl⟩)⟩)
    | srcDown a =>
      cases hr : s.srcReady with
      | false =>
        rw [exec_srcDown_early _ hl hr] at h; cases h
        exact .inr (.inl ⟨rfl, fatal _ (by decide) rfl⟩)
      | true =>
        rw [exec_srcDown _ hl hr] at h; cases h
        exact .inr (.inr ⟨rfl, .inr (.inr (.inl ⟨a, rfl, rfl, rfl⟩))⟩)
    | pllInit =>
      rw [exec_pllInit hl] at h
      split at h
      · cases h; exact .inr (.inl ⟨rfl, fatal _ (by decide) rfl⟩)
      · rename_i hc
        simp only [not_or, Bool.not_eq_false, Bool.not_eq_true] at hc
        cases h; exact .inr (.inr ⟨rfl, .inr (.inr (.inr (.inl ⟨rfl, hc.1, hc.2, rfl⟩)))⟩)
    | pllStep =>
      rw [exec_pllStep hl] at h
      split at h
      · cases h; exact .inr (.inl ⟨rfl, fatal _ (by decide) rfl⟩)
      · rename_i hc
        simp only [not_or, Bool.not_eq_false] at hc
        cases h; exact .inr (.inr ⟨rfl, .inr (.inr (.inr (.inr (.inl ⟨rfl, hc.1, hc.2, rfl⟩))))⟩)
    | xferChk ch len =>
      simp only [exec, execXferChk, hl, Bool.false_eq_true, if_false] at h
      split at h
      · cases h; exact .inr (.inl ⟨rfl, fatal _ (by decide) rfl⟩)
      · rename_i h1
        split at h
        · cases h; exact .inr (.inl ⟨rfl, fatal _ (by decide) rfl⟩)
        · rename_i h2
          simp only [ne_eq, not_not] at h1 h2
          cases h; exact .inr (.inr ⟨rfl, .inr (.inr (.inr (.inr (.inr (.inl ⟨by rw [h1, h2], rfl⟩)))))⟩)
    | xtChk b =>
      simp only [exec, execXtChk, hl, Bool.false_eq_true, if_false] at h
      split at h
      · cases h; exact .inr (.inl ⟨rfl, fatal _ (by decide) rfl⟩)
      · rename_i h1
        simp only [ne_eq, not_not] at h1
        cases h; exact .inr (.inr ⟨rfl, .inr (.inr (.inr (.inr (.inr (.inr ⟨by rw [h1], rfl⟩)))))⟩)
    | halt k =>
      simp only [exec, execHalt, hl, Bool.false_eq_true, if_false] at h
      split at h
      · cases h; exact .inr (.inl ⟨rfl, fatal _ (by decide) rfl⟩)
      · rename_i h1
        cases h
        refine .inr (.inl ⟨rfl, BitVec.ofNat 4 k, fun hw hc => ?_, rfl⟩)
        simp only [Instr.WellFormed, Instr.wellFormed, decide_eq_true_eq] at hw
        have := congrArg BitVec.toNat hc
        simp at this
        omega

end Sys2Proof.Machine
end

