-- ==== Sys2Proof/Laws/Bus.lean ====
section
/-! SUPPORT. What an event can do to the block, said once, and accesses at the offsets of registers. -/

namespace Sys2Proof.Machine

/-- The offset of a register names it (R71). -/
@[simp] theorem regAt_offset (r : Reg) : regAt r.offset = some r := by
  rcases r with _ | _ | _ | _ | c | c | c | c | _ | _ | _ | _ <;> first | rfl | (cases c <;> rfl)

/-- Registers lie at aligned offsets in the first 64 bytes of the window (R71). -/
theorem offset_aligned (r : Reg) : r.offset % 4 = 0 ∧ r.offset < 64 := by
  rcases r with _ | _ | _ | _ | c | c | c | c | _ | _ | _ | _ <;> first | decide | (cases c <;> decide)

/-- An aligned 32-bit access at a register's offset is an access that exists (R72). -/
theorem reg_access_legal (r : Reg) (op : BusOp) :
    Access.touches ⟨r.offset, 4, op⟩ = true ∧ Access.legal ⟨r.offset, 4, op⟩ = true := by
  have h := offset_aligned r
  constructor
  · simp [Access.touches]; omega
  · simp [Access.legal]; omega

theorem offset_ne_zero {r : Reg} (h : r ≠ .cmd) : r.offset ≠ 0 := by
  rcases r with _ | _ | _ | _ | c | c | c | c | _ | _ | _ | _ <;> first | exact absurd rfl h | decide | (cases c <;> decide)

/-- The same for any offset a multiple of 4 in the window. -/
theorem aligned_access_legal {k : Nat} (h : k < 64) (op : BusOp) :
    Access.touches ⟨4 * k, 4, op⟩ = true ∧ Access.legal ⟨4 * k, 4, op⟩ = true := by
  constructor
  · simp [Access.touches]; omega
  · simp [Access.legal]; omega

/-- A legal access is served. -/
theorem busAccess_legal {off : Int} {op : BusOp} (s : State)
    (serve : Nat → BusOp → State → Host.Outcome State Fault Refusal)
    (h : Access.touches ⟨off, 4, op⟩ = true ∧ Access.legal ⟨off, 4, op⟩ = true) :
    busAccess ⟨off, 4, op⟩ s serve = serve off.toNat op s := by simp [busAccess, h]

/-- An access by `HOT` at a register's offset. -/
theorem handle_hot_reg (r : Reg) (op : BusOp) (s : State) :
    handle (.hot ⟨r.offset, 4, op⟩) s = hotAccess r.offset op s := by
  simp only [handle]; rw [busAccess_legal s _ (reg_access_legal r op)]; rfl

/-- An access by `TASK` at a register's offset. -/
theorem handle_task_reg (r : Reg) (op : BusOp) (stale : Bool) (s : State) :
    handle (.task ⟨r.offset, 4, op⟩ stale) s = taskAccess r.offset op stale s := by
  simp only [handle]; rw [busAccess_legal s _ (reg_access_legal r op)]; rfl

/-- A write by `HOT` to a register that is not `CMD` (R75). -/
theorem handle_wr {r : Reg} (h : r ≠ .cmd) (v : Word) (s : State) : handle (wr r v) s = .next (regWrite r v s) := by
  rw [wr, handle_hot_reg, hotAccess, if_neg (offset_ne_zero h), windowWrite, regAt_offset]

/-- A write of a word to `CMD` issues it (R49, R100). -/
theorem handle_wrCmd (w : Word) (s : State) : handle (wrCmd w) s = issue w s := by
  rw [wrCmd, wr, handle_hot_reg]; rfl

/-- What an issued word does, outcome by outcome (R286, R109, R100). -/
theorem issue_halted (w : Word) {s : State} (h : s.halted = true) : issue w s = .next s := by rw [issue, if_pos h]

theorem issue_illegal {w : Word} {e : DecodeError} {s : State} (h : s.halted = false) (he : decode w = .error e) :
    issue w s = .next (raiseFatal causeIllegalCmd s) := by rw [issue, if_neg (by rw [h]; decide), he]

theorem issue_legal {w : Word} {i : Instr} {s : State} (h : s.halted = false) (hi : decode w = .ok i) :
    issue w s = exec i s := by rw [issue, if_neg (by rw [h]; decide), hi]

/-- What an issued word does (R289). -/
theorem issue_cases {w : Word} {s t : State} (h : issue w s = .next t) :
    (s.halted = true ∧ t = s) ∨
    (s.halted = false ∧ t = raiseFatal causeIllegalCmd s) ∨
    (s.halted = false ∧ ∃ i, decode w = .ok i ∧ exec i s = .next t) := by
  unfold issue at h
  split at h
  · simp_all
  · split at h
    · simp_all
    · exact .inr (.inr ⟨by simp_all, _, ‹_›, h⟩)

/-- A write to the window that is not to `CMD`: an operand register, or nothing (R75). -/
theorem windowWrite_cases (off : Nat) (v : Word) (s : State) :
    windowWrite off v s = s ∨ (∃ c, windowWrite off v s = setUpin c v s) ∨ ∃ c, windowWrite off v s = setDnin c v s := by
  unfold windowWrite
  split
  · unfold regWrite; split <;> first | exact .inl rfl | exact .inr (.inl ⟨_, rfl⟩) | exact .inr (.inr ⟨_, rfl⟩)
  · exact .inl rfl

/-- What an event does when it does not stop the step: nothing, a reply to `HOT` or to `TASK`, an operand register, an
issued word, or hardware reset. -/
theorem handle_cases {e : Event} {s t : State} (h : handle e s = .next t) :
    t = s ∨ (∃ v, t = setHotReply v s) ∨ (∃ v, t = setTaskReply v s) ∨ (∃ c v, t = setUpin c v s) ∨
    (∃ c v, t = setDnin c v s) ∨ (∃ w, issue w s = .next t) ∨ ∃ d, e = .hwReset d ∧ t = hardReset d s := by
  unfold handle at h
  split at h
  · unfold busAccess hotAccess at h
    split at h
    · simp_all
    · split at h
      · simp at h
      · split at h
        · simp at h; exact .inr (.inl ⟨_, h.symm⟩)
        · split at h
          · exact .inr (.inr (.inr (.inr (.inr (.inl ⟨_, h⟩)))))
          · simp only [Host.Outcome.next.injEq] at h
            subst h
            rcases windowWrite_cases _ _ s with h | ⟨c, h⟩ | ⟨c, h⟩
            · exact .inl h
            · exact .inr (.inr (.inr (.inl ⟨c, _, h⟩)))
            · exact .inr (.inr (.inr (.inr (.inl ⟨c, _, h⟩))))
  · unfold busAccess taskAccess at h
    split at h
    · simp_all
    · split at h
      · simp at h
      · dsimp only at h
        split at h
        · simp at h; exact .inr (.inr (.inl ⟨_, h.symm⟩))
        · simp_all
  · simp_all
  · simp only [Host.Outcome.next.injEq] at h
    exact .inr (.inr (.inr (.inr (.inr (.inr ⟨_, rfl, h.symm⟩)))))

/-- The environment's next move is an event of the tape. -/
theorem nextEnv_mem : ∀ {es : List Event} {e : Event} {rest : List Event}, nextEnv es = some (e, rest) → e ∈ es
  | [], _, _, h => by simp [nextEnv] at h
  | .hot a :: es, e, rest, h => by
    simp only [nextEnv] at h
    split at h
    · simp at h
    · rename_i e' rest' he
      simp only [Option.some.injEq, Prod.mk.injEq] at h
      exact List.mem_cons_of_mem _ (h.1 ▸ nextEnv_mem he)
  | .task a st :: es, _, _, h => by simp [nextEnv] at h; simp [← h.1]
  | .refEdge r f :: es, _, _, h => by simp [nextEnv] at h; simp [← h.1]
  | .hwReset d :: es, _, _, h => by simp [nextEnv] at h; simp [← h.1]

/-- It is never a move of `HOT` (R78). -/
theorem nextEnv_hot : ∀ {es : List Event} {a rest}, nextEnv es ≠ some (.hot a, rest)
  | [], a, rest => by simp [nextEnv]
  | .hot b :: es, a, rest => by
    simp only [nextEnv]; split
    · simp
    · rename_i e r h
      intro hc; simp only [Option.some.injEq, Prod.mk.injEq] at hc
      obtain ⟨rfl, _⟩ := hc
      exact nextEnv_hot h
  | .task a st :: es, _, _ => by simp [nextEnv]
  | .refEdge r f :: es, _, _ => by simp [nextEnv]
  | .hwReset d :: es, _, _ => by simp [nextEnv]

/-- What a move of another agent than `HOT` does. -/
theorem handle_env {e : Event} {s t : State} (h : handle e s = .next t) (hn : ∀ a, e ≠ .hot a) :
    t = s ∨ (∃ v, t = setTaskReply v s) ∨ ∃ d, e = .hwReset d ∧ t = hardReset d s := by
  cases e with
  | hot a => exact absurd rfl (hn a)
  | task a st =>
    dsimp only [handle, busAccess, taskAccess] at h
    split at h
    · left; cases h; rfl
    · split at h
      · simp at h
      · split at h
        · cases h; exact .inr (.inl ⟨_, rfl⟩)
        · left; cases h; rfl
  | refEdge r f => left; cases h; rfl
  | hwReset d => cases h; exact .inr (.inr ⟨d, rfl, rfl⟩)

/-- A step without a held command and without an event (R295). -/
theorem step_idle {s : State} (hh : s.hold = false) (ht : s.tape = []) : step s = .next s := by
  rw [step, if_neg (by rw [hh]; decide), stepFree, ht]

/-- A step without a held command takes the event at the head of the tape. -/
theorem step_event {s : State} {e : Event} {rest : List Event} (hh : s.hold = false) (ht : s.tape = e :: rest) :
    step s = handle e (setTape rest s) := by rw [step, if_neg (by rw [hh]; decide), stepFree, ht]

/-- While a command is held, a step takes the environment's next move, if it is not the awaited edge (R203). -/
theorem step_held_event {s : State} {e : Event} {rest : List Event} (hh : s.hold = true)
    (ht : nextEnv s.tape = some (e, rest)) (he : ∀ r f, e ≠ .refEdge r f) : step s = handle e (setTape rest s) := by
  rw [step, if_pos hh, stepHeld, ht]
  cases e <;> first | rfl | exact absurd rfl (he _ _)

/-- What a step does: the event at the head of the tape, or nothing when there is none; while held, the environment's next
move, or the wait. -/
theorem step_cases {s t : State} (h : step s = .next t) :
    (s.hold = false ∧ s.tape = [] ∧ t = s) ∨
    (s.hold = false ∧ ∃ e rest, s.tape = e :: rest ∧ handle e (setTape rest s) = .next t) ∨
    (s.hold = true ∧ t = awaitEdge piFilter s) ∨
    (s.hold = true ∧ ∃ e rest, nextEnv s.tape = some (e, rest) ∧ (∀ r f, e ≠ .refEdge r f) ∧
      handle e (setTape rest s) = .next t) := by
  unfold step at h
  split at h
  · rename_i hh
    unfold stepHeld at h
    split at h
    · simp only [Host.Outcome.next.injEq] at h
      exact .inr (.inr (.inl ⟨hh, h.symm⟩))
    · simp only [Host.Outcome.next.injEq] at h
      exact .inr (.inr (.inl ⟨hh, h.symm⟩))
    · rename_i e rest he hne
      exact .inr (.inr (.inr ⟨hh, e, rest, hne, fun r f hc => he r f hc, h⟩))
  · rename_i hh
    unfold stepFree at h
    split at h
    · simp_all
    · rename_i e rest he
      exact .inr (.inl ⟨by simpa using hh, e, rest, he, h⟩)

end Sys2Proof.Machine
end

