-- ==== Sys2Proof/Laws/Environment.lean ====
section
/-! SUPPORT. What the environment's sequences do: the event a step takes, events one after the other, an announced length,
what a link's sender and receiver can do,
and what the router takes from and gives to the rings of its core. -/

namespace Sys2Proof.Machine

@[simp] theorem andThen_next {α β : Type} (a : α) (f : α → Host.Outcome β Fault Refusal) :
    andThen (.next a) f = f a := rfl

/-- A step takes the event it meets, held or not, unless it is an edge. -/
theorem step_meets {s : State} {e : Event} {rest : List Event} (h : s.Meets e rest) (he : ∀ r f, e ≠ .refEdge r f) :
    step s = handle e (setTape rest s) := h.elim (fun h => step_event h.1 h.2) fun h => step_held_event h.1 h.2 he

/-- While no command is held, events are handled one after the other. -/
theorem perform_cons {s : State} (h : s.hold = false) (e : Event) (es : List Event) :
    perform (e :: es) s = andThen (handle e s) (perform es) := by
  rw [perform, step_event (s := setTape (e :: s.tape) s) h rfl]; rfl

/-- A write of an operand register among them (R75). -/
theorem perform_wr {s : State} (h : s.hold = false) {r : Reg} (hr : r ≠ .cmd) (v : Word) (es : List Event) :
    perform (wr r v :: es) s = perform es (regWrite r v s) := by rw [perform_cons h, handle_wr hr, andThen_next]

@[simp] theorem perform_nil (s : State) : perform [] s = .next s := rfl

/-- The length of a message is announced by its first four bytes (R264). -/
theorem announced_wireBytes (blob more : List (BitVec 8)) (h : blob.length < 2 ^ 32) :
    announced (wireBytes blob ++ more) = some (blob.length, blob ++ more) := by
  simp only [wireBytes, List.cons_append, List.nil_append, announced, BitVec.toNat_ofNat]
  congr 2
  omega

/-- Nothing is announced before four bytes have arrived. -/
theorem announced_short {bytes : List (BitVec 8)} (h : bytes.length < 4) : announced bytes = none := by
  match bytes, h with
  | [], _ | [_], _ | [_, _], _ | [_, _, _], _ => rfl
  | _ :: _ :: _ :: _ :: _, h => simp at h; omega

/-- A payload is read only when all of a checked length has arrived. -/
theorem Receiver.read_blob {x : Bool} {r : Receiver} {b : List Byte} (h : (r.read x).2 = some b) :
    r.phase = .reads b.length ∧ r.arrived = b ++ (r.read x).1.arrived := by
  unfold Receiver.read at h ⊢
  split at h
  · split at h
    · rename_i hl
      cases h
      simp_all
    · cases h
  all_goals cases h

/-- A receiver with a length to check is not reading a payload. -/
theorem Receiver.toCheck_reads {len : Nat} {bytes : List Byte} : Receiver.toCheck ⟨.reads len, bytes⟩ = none := rfl

/-- The receiver on the block's core reads a payload only on a running device, after the check, and leaves the block alone. -/
theorem receiverTurn_blob {k : Capabilities} {x : Bool} {r : Receiver} {s : State} {d : ReceiverDone} {b : List Byte}
    (h : receiverTurn k x r s = .next d) (hb : d.blob = some b) :
    s.halted = false ∧ k.announces = true ∧ r.phase = .reads b.length ∧ d.state = s ∧ r.arrived = b ++ d.receiver.arrived := by
  unfold receiverTurn at h
  split at h
  · cases h; cases hb
  · rename_i hc
    simp only [Bool.or_eq_true, not_or, Bool.not_eq_true, Bool.not_eq_eq_eq_not] at hc
    split at h
    · unfold andThen at h
      split at h
      · cases h; cases hb
      · cases h
      · cases h
    · cases h
      exact ⟨hc.1, by simpa using hc.2, (Receiver.read_blob hb).1, rfl, (Receiver.read_blob hb).2⟩

/-- A frame taken from a ring has `f` slots, whatever the ring holds (R280 (2)). -/
@[simp] theorem wholeFrame_length (f : Nat) (ring : List Slot) : (wholeFrame f ring).length = f := by
  simp [wholeFrame]; omega

/-- From a ring that holds a frame, it is that frame. -/
theorem wholeFrame_eq_take {f : Nat} {ring : List Slot} (h : f ≤ ring.length) : wholeFrame f ring = ring.take f := by
  simp [wholeFrame, h]

/-- A ring never exceeds its room (R280 (2)). -/
theorem appendWithin_length {room : Nat} {ring : List Slot} (h : ring.length ≤ room) (xs : List Slot) :
    (appendWithin room ring xs).length ≤ room := by simp [appendWithin]; omega

@[simp] theorem appendWithin_nil (room : Nat) (ring : List Slot) : appendWithin room ring [] = ring := by
  simp [appendWithin]

/-- The frame of a ring fits, whatever the ring holds. -/
theorem groupOfSlots_wholeFrame (f : Nat) (ring : List Slot) : (groupOfSlots (wholeFrame f ring)).Fits f := by
  simp [Group.Fits, groupOfSlots]

/-- Everything a send can do (R263): the frame as one blob of the fixed size, or nothing. -/
theorem send_cases (lay : BlobLayout) (p : Params) (x : Bool) (frame : List Slot) (l : Link) :
    (x = false ∧ ∃ blob : List Byte, blob = lay.pack p.xtFrameBytes frame ∧ blob.length = p.xtFrameBytes ∧
      send lay p x frame l = ⟨.sent, { l with inFlight := l.inFlight ++ wireBytes blob }⟩) ∨
    (x = true ∧ send lay p x frame l = ⟨.expired, l⟩) := by
  cases x
  · exact .inl ⟨rfl, _, rfl, lay.fixed _ _, rfl⟩
  · exact .inr ⟨rfl, rfl⟩

/-- Bytes neither vanish nor appear on the way (R264). -/
theorem Link.deliver_bytes (n : Nat) (l : Link) :
    (l.deliver n).receiver.arrived ++ (l.deliver n).inFlight = l.receiver.arrived ++ l.inFlight := by
  simp [Link.deliver]

/-- The router's rings are the ones it left (R255). -/
@[simp] theorem routerRings_setRouterRings (k : Capabilities) (r : Rings) (d : Device) :
    (d.setRouterRings k r).routerRings k = r := by
  unfold Device.routerRings Device.setRouterRings; split <;> rfl

/-- With the bus on another core the router does not touch the driver's rings: the cores share no memory (R262). -/
theorem setRouterRings_driver {k : Capabilities} (h : k.oneCore = false) (r : Rings) (d : Device) :
    (d.setRouterRings k r).driver = d.driver := by rw [Device.setRouterRings, if_neg (by rw [h]; decide)]

/-- The bus feeds a group only on a device with the bus (R266). -/
theorem source_bus {k : Capabilities} {x : Source} (h : k.source x = .bus) : k.bus = true := by
  obtain ⟨b, a, c⟩ := k
  cases x <;> cases b <;> cases a <;> first | rfl | cases h

/-- An assembled frame holds `f` samples in each channel. -/
theorem assemble_fits {k : Capabilities} {f : Nat} {sel : SourceSinkSelection} {mic ext i : InputFrame} {bus : Group}
    (h : assemble k f sel mic bus ext = some i) : i.Fits f := by
  unfold assemble at h
  dsimp only at h
  split at h
  · rename_i hf
    cases h
    exact hf.2
  · cases h

/-- A captured frame holds `f` samples in each channel, and the rings lose at most the receive ring's first `f` slots. -/
theorem capture_frame {k : Capabilities} {f : Nat} {sel : SourceSinkSelection} {rs rest : List (Option InputFrame)}
    {ext i : InputFrame} {g g' : Rings} (h : capture k f sel rs ext g = .frame i rest g') :
    i.Fits f ∧ g'.tx = g.tx ∧ (g'.rx = g.rx ∨ g'.rx = g.rx.drop f ∧ k.bus = true) := by
  unfold capture at h
  split at h
  · cases h
  · split at h
    · rename_i hf
      cases h
      refine ⟨assemble_fits hf, by split <;> rfl, ?_⟩
      split
      · rename_i hb
        simp only [feedsBus, Bool.or_eq_true, decide_eq_true_eq] at hb
        exact .inr ⟨rfl, hb.elim source_bus source_bus⟩
      · exact .inl rfl
    · cases h

/-- A frame that the bus does not feed is assembled without it. -/
theorem assemble_bus {k : Capabilities} {f : Nat} {sel : SourceSinkSelection} {mic ext : InputFrame} {bus bus' : Group}
    (h : ¬ feedsBus k sel = true) : assemble k f sel mic bus ext = assemble k f sel mic bus' ext := by
  have hp : ∀ x : Source, x ≠ .bus → x.pick mic bus ext = x.pick mic bus' ext := fun x hx => by
    cases x <;> first | rfl | exact absurd rfl hx
  simp only [feedsBus, Bool.or_eq_true, decide_eq_true_eq, not_or] at h
  unfold assemble
  rw [hp _ h.1, hp _ h.2]

/-- Whole channels are assembled to a frame. -/
theorem assemble_some {k : Capabilities} {f : Nat} (sel : SourceSinkSelection) {mic ext : InputFrame} {bus : Group}
    (hm : mic.Fits f) (hb : feedsBus k sel = true → bus.Fits f) (he : ext.Fits f) :
    ∃ i, assemble k f sel mic bus ext = some i := by
  have hp : ∀ x : Source, (x = .bus → bus.Fits f) → (x.pick mic bus ext).Fits f := fun x h => by
    cases x
    · exact hm
    · exact ⟨h rfl, h rfl⟩
    · exact he
  exact ⟨_, if_pos ⟨hm, (hp _ fun h => hb (by simp [feedsBus, h])).1, (hp _ fun h => hb (by simp [feedsBus, h])).2⟩⟩

/-- A capture is never a violation when the callbacks populated whole channels (R260): a ring's starvation is none. -/
theorem capture_fits {k : Capabilities} {f : Nat} (sel : SourceSinkSelection) {mic ext : InputFrame}
    (rest : List (Option InputFrame)) (g : Rings) (hm : mic.Fits f) (he : ext.Fits f) :
    ∃ i g', capture k f sel (some mic :: rest) ext g = .frame i rest g' := by
  obtain ⟨i, h⟩ := assemble_some (k := k) sel hm (fun _ => groupOfSlots_wholeFrame f g.rx) he
  exact ⟨i, _, by simp only [capture, drainMic, h]; rfl⟩

/-- A capture takes its bus frames from the rings of the router's core, whichever they are, and leaves the block alone. -/
theorem routerCapture_frame {k : Capabilities} {sel : SourceSinkSelection} {rs rest : List (Option InputFrame)}
    {ext i : InputFrame} {w : Whole} {g : Rings} {c : CaptureDone}
    (h : routerCapture k sel rs ext w = .next c) (hc : c.captured = some (.frame i rest g)) :
    i.Fits w.state.par.frameCount ∧ c.whole = { w with device := w.device.setRouterRings k g } := by
  unfold routerCapture at h
  split at h
  · cases h; cases hc
  · split at h
    · cases h; cases hc
      exact ⟨(capture_frame ‹_›).1, rfl⟩
    · cases h; cases hc
    · unfold andThen at h
      split at h <;> cases h
      cases hc

theorem slotsOfChannels_length : ∀ (xs ys : List Word), xs.length = ys.length →
    (slotsOfChannels xs ys).length = xs.length
  | [], [], _ => rfl
  | x :: xs, y :: ys, h => by simp [slotsOfChannels, slotsOfChannels_length xs ys (by simpa using h)]
  | [], _ :: _, h | _ :: _, [], h => by simp at h

@[simp] theorem tagFrom_length (t : Tagging) (k : OutChan) : ∀ (n : Nat) (ws : List Word),
    (tagFrom t k n ws).length = ws.length
  | _, [] => rfl
  | n, w :: ws => by simp [tagFrom, tagFrom_length t k (n + 1) ws]

/-- The marker stands in bit 0, and the other bits are the sample's (R258). -/
theorem setLsb_bits (b : Bool) (w : Word) : (setLsb b w).toNat % 2 = b.toNat ∧ (setLsb b w).toNat / 2 = w.toNat / 2 := by
  have := w.isLt
  have := Bool.toNat_lt b
  simp only [setLsb, BitVec.toNat_ofNat]
  omega

theorem OutputFrame.channel_length {f : Nat} {o : OutputFrame} (h : o.Fits f) (k : OutChan) : (o.channel k).length = f := by
  obtain ⟨⟨h0, h1⟩, ⟨h2, h3⟩, h4, h5⟩ := h
  rcases k with c | c | c <;> cases c <;> assumption

/-- A frame reaches the transmit ring as exactly `f` sample slots (R256, R258). -/
theorem BusFormat.slots_length {f : Nat} {o : OutputFrame} (h : o.Fits f) (b : BusFormat) : (b.slots o).length = f := by
  have hc : ∀ c, (b.channel o c).length = f := fun c => by
    unfold BusFormat.channel; split <;> simp [OutputFrame.channel_length h]
  rw [BusFormat.slots, slotsOfChannels_length _ _ ((hc _).trans (hc _).symm), hc]

end Sys2Proof.Machine
end

