-- ==== Sys2Proof/Laws/PerInstr.lean ====
section
/-! SUPPORT. Per command: the word of a well-formed command carries its operation code (30_encoding.md R102, R107). -/

namespace Sys2Proof.Laws.OpcodeField

/-- The field `OPC` of the command's word is its operation code. -/
def Statement (i : Instr) : Prop := i.WellFormed → field (encode i) 31 28 = i.opc

theorem srcInit : Statement .srcInit := fun h => by rw [field_encode h]; rfl

theorem srcUp (a : Nat) : Statement (.srcUp a) := fun h => by
  rw [field_encode h]; simp [Instr.WellFormed, Instr.wellFormed] at h; simp only [encodeNat, Instr.opc]; omega

theorem srcDown (s : Nat) : Statement (.srcDown s) := fun h => by
  rw [field_encode h]; simp [Instr.WellFormed, Instr.wellFormed] at h; simp only [encodeNat, Instr.opc]; omega

theorem pllInit : Statement .pllInit := fun h => by rw [field_encode h]; rfl

theorem pllStep : Statement .pllStep := fun h => by rw [field_encode h]; rfl

theorem xferChk (ch len : Nat) : Statement (.xferChk ch len) := fun h => by
  rw [field_encode h]; simp [Instr.WellFormed, Instr.wellFormed] at h; simp only [encodeNat, Instr.opc]; omega

theorem xtChk (bytes : Nat) : Statement (.xtChk bytes) := fun h => by
  rw [field_encode h]; simp [Instr.WellFormed, Instr.wellFormed] at h; simp only [encodeNat, Instr.opc]; omega

theorem halt (cause : Nat) : Statement (.halt cause) := fun h => by
  rw [field_encode h]; simp [Instr.WellFormed, Instr.wellFormed] at h; simp only [encodeNat, Instr.opc]; omega

end Sys2Proof.Laws.OpcodeField
end

