-- ==== Sys2Proof/Laws/Schedule.lean ====
section
/-! SUPPORT. The tasks of the audio loop in moves: taking slot by slot is taking a frame, appending slot by slot is appending a
frame, and a capture whose moves nothing interrupts is `routerCapture`. -/

namespace Sys2Proof.Machine

@[simp] theorem Audio.setDevice_router (d : Device) (a : Audio) : (a.setDevice d).router = a.router := rfl
@[simp] theorem Audio.setDevice_stage (d : Device) (a : Audio) : (a.setDevice d).stage = a.stage := rfl
@[simp] theorem Audio.setDevice_selection (d : Device) (a : Audio) : (a.setDevice d).selection = a.selection := rfl
@[simp] theorem Audio.setDevice_state (d : Device) (a : Audio) : (a.setDevice d).whole.state = a.whole.state := rfl
@[simp] theorem Audio.setDevice_device (d : Device) (a : Audio) : (a.setDevice d).whole.device = d := rfl
@[simp] theorem Audio.setState_router (t : State) (a : Audio) : (a.setState t).router = a.router := rfl
@[simp] theorem Audio.setState_stage (t : State) (a : Audio) : (a.setState t).stage = a.stage := rfl
@[simp] theorem Audio.setState_selection (t : State) (a : Audio) : (a.setState t).selection = a.selection := rfl
@[simp] theorem Audio.setState_state (t : State) (a : Audio) : (a.setState t).whole.state = t := rfl
@[simp] theorem Audio.setState_device (t : State) (a : Audio) : (a.setState t).whole.device = a.whole.device := rfl

/-- A frame taken slot by slot, with nothing in between. -/
theorem wholeFrame_succ (n : Nat) (ring : List Slot) :
    wholeFrame (n + 1) ring = (takeSlot ring).1 :: wholeFrame n (takeSlot ring).2 := by
  cases ring <;> simp [wholeFrame, takeSlot, List.replicate_succ]

theorem drop_takeSlot (n : Nat) (ring : List Slot) : (takeSlot ring).2.drop n = ring.drop (n + 1) := by
  cases ring <;> simp [takeSlot]

/-- Slots appended one by one, with nothing in between. -/
theorem appendWithin_cons (room : Nat) (ring : List Slot) (x : Slot) (xs : List Slot) :
    appendWithin room ring (x :: xs) = appendWithin room (appendWithin room ring [x]) xs := by
  unfold appendWithin
  by_cases h : ring.length < room
  · obtain ⟨m, hm⟩ : ∃ m, room - ring.length = m + 1 := ⟨room - ring.length - 1, by omega⟩
    have : room - (ring.length + 1) = m := by omega
    simp [hm, this]
  · simp [show room - ring.length = 0 by omega]

@[simp] theorem moves_nil (site : Site) (a : Audio) : moves site [] a = .next a := rfl

theorem moves_append (site : Site) (ms ns : List Move) (a : Audio) :
    moves site (ms ++ ns) a = andThen (moves site ms a) (moves site ns) := by
  induction ms generalizing a with
  | nil => rfl
  | cons m ms ih =>
    show andThen (move site m a) (fun d => moves site (ms ++ ns) d.audio) =
      andThen (andThen (move site m a) fun d => moves site ms d.audio) (moves site ns)
    cases move site m a <;> simp [andThen, ih]

theorem moves_cons (site : Site) (m : Move) (ms : List Move) (a : Audio) :
    moves site (m :: ms) a = andThen (move site m a) fun d => moves site ms d.audio := rfl

@[simp] theorem setRouterRings_self (k : Capabilities) (d : Device) : d.setRouterRings k (d.routerRings k) = d := by
  unfold Device.setRouterRings Device.routerRings
  split <;> rfl

/-- Whether the router's core runs does not depend on its rings. -/
@[simp] theorem Audio.setRings_stopped (k : Capabilities) (r : Rings) (a : Audio) :
    (a.setRings k r).whole.routerStopped k = a.whole.routerStopped k := by
  unfold Whole.routerStopped Audio.setRings Audio.setDevice Device.setRouterRings
  split <;> rfl

@[simp] theorem Audio.setRings_rings (k : Capabilities) (r : Rings) (a : Audio) : (a.setRings k r).rings k = r := by
  simp [Audio.rings, Audio.setRings]

@[simp] theorem Audio.setRings_setRings (k : Capabilities) (r r' : Rings) (a : Audio) :
    (a.setRings k r).setRings k r' = a.setRings k r' := by
  unfold Audio.setRings Audio.setDevice Device.setRouterRings
  split <;> rfl

@[simp] theorem Audio.setRings_self (k : Capabilities) (a : Audio) : a.setRings k (a.rings k) = a := by
  unfold Audio.setRings Audio.setDevice Device.setRouterRings Audio.rings Device.routerRings
  split <;> rfl

@[simp] theorem Audio.setRouter_setRings (k : Capabilities) (x : RouterPhase) (r : Rings) (a : Audio) :
    (a.setRouter x).setRings k r = (a.setRings k r).setRouter x := rfl

@[simp] theorem Audio.setRouter_setRouter (x y : RouterPhase) (a : Audio) : (a.setRouter x).setRouter y = a.setRouter y := rfl
@[simp] theorem Audio.setRouter_router (x : RouterPhase) (a : Audio) : (a.setRouter x).router = x := rfl
@[simp] theorem Audio.setRouter_whole (x : RouterPhase) (a : Audio) : (a.setRouter x).whole = a.whole := rfl
@[simp] theorem Audio.setRouter_stage (x : RouterPhase) (a : Audio) : (a.setRouter x).stage = a.stage := rfl
@[simp] theorem Audio.setRouter_selection (x : RouterPhase) (a : Audio) : (a.setRouter x).selection = a.selection := rfl
@[simp] theorem Audio.setRouter_rings (k : Capabilities) (x : RouterPhase) (a : Audio) : (a.setRouter x).rings k = a.rings k := rfl
@[simp] theorem Audio.setRings_stage (k : Capabilities) (r : Rings) (a : Audio) : (a.setRings k r).stage = a.stage := rfl
@[simp] theorem Audio.setRings_state (k : Capabilities) (r : Rings) (a : Audio) :
    (a.setRings k r).whole.state = a.whole.state := rfl
@[simp] theorem Audio.setRings_selection (k : Capabilities) (r : Rings) (a : Audio) :
    (a.setRings k r).selection = a.selection := rfl

/-- A move of the router's task in the loop on a running core. -/
theorem routerMove_runs {site : Site} {inp : RouterInput} {a : Audio} (hs : a.stage = .audioLoop)
    (hw : a.whole.routerStopped site.caps = false) : move site (.router inp) a = match a.router with
    | .readsMic => .next { audio := match inp.receive with
        | some mic => a.setRouter (.overlays mic [])
        | none => a }
    | .overlays mic taken => overlayMove site inp mic taken a
    | .awaitsProcessing => drainMove site inp a
    | .dispatches o toBus others => .next (dispatchMove site inp o toBus others a) := by
  unfold move routerMove
  exact if_neg (by simp [hs, hw])

/-- Taking the slots of a frame that the bus feeds, when nothing comes in between. -/
theorem moves_overlay {site : Site} {inp : RouterInput} {mic : InputFrame} (n : Nat) {taken : List Slot} {a : Audio}
    (hr : a.router = .overlays mic taken) (hs : a.stage = .audioLoop) (hw : a.whole.routerStopped site.caps = false)
    (hb : feedsBus site.caps a.selection = true) (hn : taken.length + n ≤ a.whole.state.par.frameCount) :
    moves site (List.replicate n (.router inp)) a = .next ((a.setRings site.caps
      { a.rings site.caps with rx := (a.rings site.caps).rx.drop n }).setRouter
        (.overlays mic (taken ++ wholeFrame n (a.rings site.caps).rx))) := by
  induction n generalizing taken a with
  | zero =>
    show Host.Outcome.next a = .next ((a.setRings site.caps (a.rings site.caps)).setRouter (.overlays mic (taken ++ _)))
    simp [wholeFrame, ← hr, Audio.setRouter]
  | succ n ih =>
    rw [List.replicate_succ, moves_cons, routerMove_runs hs hw]
    simp only [hr, overlayMove]
    rw [if_pos (by simp [hb]; omega), andThen_next]
    dsimp only
    refine (ih (by rfl) (by exact hs) (by simpa using hw) (by exact hb) (by simp; omega)).trans ?_
    simp [wholeFrame_succ, drop_takeSlot]

/-- The slots of a dispatch to the transmit ring, when nothing comes in between. -/
theorem moves_dispatch {site : Site} {inp : RouterInput} {o : OutputFrame} {others : List Sink} {xs : List Slot} {a : Audio}
    (hr : a.router = .dispatches o xs others) (hs : a.stage = .audioLoop) (hw : a.whole.routerStopped site.caps = false)
    (hi : inp.sink = .bus) (he : inp.expired = false) :
    moves site (List.replicate xs.length (.router inp)) a = .next ((a.setRings site.caps
      { a.rings site.caps with tx := appendWithin site.txRoom (a.rings site.caps).tx xs }).setRouter
        (.dispatches o [] others)) := by
  induction xs generalizing a with
  | nil =>
    show Host.Outcome.next a = .next ((a.setRings site.caps { tx := appendWithin _ _ _, rx := _ }).setRouter _)
    rw [appendWithin_nil]
    show Host.Outcome.next a = .next ((a.setRings site.caps (a.rings site.caps)).setRouter _)
    simp [← hr, Audio.setRouter]
  | cons x xs ih =>
    rw [List.length_cons, List.replicate_succ, moves_cons, routerMove_runs hs hw]
    simp only [hr, dispatchMove, hi, he]
    rw [if_neg (by simp), andThen_next, if_neg (by decide)]
    refine (ih (by rfl) (by exact hs) (by simpa using hw)).trans ?_
    simp [← appendWithin_cons]

/-- A capture whose moves nothing interrupts is `routerCapture` (log entry 25). -/
theorem moves_capture {site : Site} {inp : RouterInput} {mic i : InputFrame} {rest : List (Option InputFrame)} {a : Audio}
    {g : Rings} {w : Whole} (hr : a.router = .readsMic) (hs : a.stage = .audioLoop) (hm : inp.receive = some mic)
    (h : routerCapture site.caps a.selection (some mic :: rest) inp.ext a.whole = .next ⟨some (.frame i rest g), w⟩) :
    moves site (List.replicate ((if feedsBus site.caps a.selection then a.whole.state.par.frameCount else 0) + 2)
      (.router inp)) a = .next { a with whole := w, router := .awaitsProcessing } := by
  unfold routerCapture at h
  split at h
  · cases h
  · rename_i hw
    rw [Bool.not_eq_true] at hw
    split at h
    · rename_i hc
      simp only [capture, drainMic] at hc
      split at hc
      · rename_i ha
        cases hc
        cases h
        rw [List.replicate_succ, moves_cons, routerMove_runs hs hw, hr, hm]
        simp only [andThen_next]
        split at *
        · rename_i hb
          rw [List.replicate_succ', moves_append, moves_overlay _ (Audio.setRouter_router _ _) hs hw hb (by simp),
            andThen_next, moves_cons, routerMove_runs (by exact hs) (by simpa using hw)]
          simp only [Audio.setRouter_router, overlayMove]
          rw [if_neg (by simp)]
          simp only [Audio.setRouter_whole, Audio.setRings_state, Audio.setRings_selection, Audio.setRouter_selection,
            Audio.rings, List.nil_append, ha]
          rfl
        · rw [Nat.zero_add, List.replicate_one, moves_cons, routerMove_runs (by exact hs) (by exact hw)]
          simp only [Audio.setRouter_router, overlayMove]
          rename_i hb
          rw [if_neg (by simp [hb]), Audio.setRouter_whole, Audio.setRouter_selection, assemble_bus hb, ha]
          simp [Audio.setRouter, hs]
      · cases hc
    · cases h
    · unfold andThen at h
      split at h <;> cases h

end Sys2Proof.Machine
end

