-- ==== Sys2Proof/Tests/Slice0.lean ====
section
/-! SUPPORT. Tests on the instance CFG-T of 95_test_vectors.md (its vector ids stand at the tests): which commands are
words, decoding, one step per command; and for each obligation with hypotheses a witness that meets them all. -/

namespace Sys2Proof.Tests

open Sys2Proof.Machine

/-! ### Helpers -/

/-- CFG-T (95_test_vectors.md section 0). -/
def parT : Params :=
  { t := 2
    coef := ⟨[0x10000000, 0x08000000], [0x20000000, 0x10000000], [0x40000000, 0x20000000]⟩
    frameCount := 240, xtFrameBytes := 1920, pllEn := true, cntW := 32, ratioNum := 8, ratioDen := 1
    kp := 2, ki := 1, gainShift := 2, integMax := 16, lockWindow := 1, lockCount := 3
    lut := [(0x30, 0x100), (0x30, 0x110), (0x30, 0x120), (0x30, 0x130), (0x30, 0x140), (0x30, 0x150), (0x30, 0x160),
      (0x30, 0x170), (0x30, 0x180)] }

def cfgT : Cfg := { par := parT }

/-- CFG-T without the PLL. -/
def cfgOff : Cfg := { par := { parT with pllEn := false } }

/-- After hardware reset, and after `SRC.INIT`, with `es` to come. -/
def cold (es : List Event) : State := State.powerOn cfgT {} es
def warm (es : List Event) : State := srcInitBody (cold es)

/-- After `SRC.INIT` and `PLL.INIT`. -/
def locked (p : Pll) (es : List Event) : State := setPll p (warm es)
def fresh : Pll := pllInitial parT {}

/-- A controller after its priming cycle, with snapshots `r` and `f`. -/
def primed (r f : Word) : Pll := primingCycle parT r f fresh

/-- Both upsample lanes at phase `q` with the given rings and inputs; the same for the downsample lanes. -/
def upAt (q : BitVec 2) (x y : Word) (h k : List Word) (es : List Event) : State :=
  { warm es with up := ⟨⟨x, 0, q, h⟩, ⟨y, 0, q, k⟩⟩ }
def downAt (q : BitVec 2) (x : Word) (out : Word) (d : Phases (List Word)) (sum : Acc) (es : List Event) : State :=
  { warm es with down := ⟨⟨x, out, q, d, sum⟩, ⟨0, 0, q, ⟨[0, 0], [0, 0], [0, 0]⟩, 0⟩⟩ }

/-- The step answers a next state of which `f` holds. -/
def gives (o : Host.Outcome State Fault Refusal) (f : State → Bool) : Bool :=
  match o with
  | .next s => f s
  | .fault _ | .refused _ => false

/-- The issue of a command. -/
def cmd (i : Instr) : Event := wrCmd (encode i)

/-! ### Which commands are words (R111) -/

theorem test_wellFormed :
    Instr.WellFormed (.srcUp 1) ∧ Instr.WellFormed (.srcDown 1) ∧ Instr.WellFormed (.xferChk 15 65535) ∧
    Instr.WellFormed (.xtChk 16777215) ∧ Instr.WellFormed (.halt 15) := by decide

theorem test_illFormed_srcUp : ¬ Instr.WellFormed (.srcUp 2) := by decide
theorem test_illFormed_srcDown : ¬ Instr.WellFormed (.srcDown 2) := by decide
theorem test_illFormed_xferChk_ch : ¬ Instr.WellFormed (.xferChk 16 0) := by decide
theorem test_illFormed_xferChk_len : ¬ Instr.WellFormed (.xferChk 0 65536) := by decide
theorem test_illFormed_xtChk : ¬ Instr.WellFormed (.xtChk 16777216) := by decide
theorem test_illFormed_halt : ¬ Instr.WellFormed (.halt 16) := by decide

/-! ### Decoding: the words are written out from the formats R102 -/

/-- E1 to E7. -/
theorem test_decode_flags :
    decode 0x10000000 = .ok .srcInit ∧ decode 0x20000000 = .ok (.srcUp 0) ∧ decode 0x20000001 = .ok (.srcUp 1) ∧
    decode 0x30000000 = .ok (.srcDown 0) ∧ decode 0x30000001 = .ok (.srcDown 1) ∧
    decode 0x40000000 = .ok .pllInit ∧ decode 0x50000000 = .ok .pllStep := by decide

/-- E8 to E15. -/
theorem test_decode_operands :
    decode 0x600200F0 = .ok (.xferChk 2 240) ∧ decode 0x60000000 = .ok (.xferChk 0 0) ∧
    decode 0x600FFFFF = .ok (.xferChk 15 65535) ∧ decode 0x70000780 = .ok (.xtChk 1920) ∧
    decode 0x70FFFFFF = .ok (.xtChk 16777215) ∧ decode 0x80000003 = .ok (.halt 3) ∧
    decode 0x8000000F = .ok (.halt 15) ∧ decode 0x80000000 = .ok (.halt 0) := by decide

/-- E20 to E22. -/
theorem test_decode_reservedOpcode :
    decode 0 = .error (.reservedOpcode 0) ∧ decode 0xFFFFFFFF = .error (.reservedOpcode 15) ∧
    decode 0x90000000 = .error (.reservedOpcode 9) := by decide

/-- E23 to E30. -/
theorem test_decode_reservedBits :
    decode 0x10000001 = .error (.reservedBits 1) ∧ decode 0x20000002 = .error (.reservedBits 2) ∧
    decode 0x38000001 = .error (.reservedBits 3) ∧ decode 0x40000100 = .error (.reservedBits 4) ∧
    decode 0x50000001 = .error (.reservedBits 5) ∧ decode 0x60100000 = .error (.reservedBits 6) ∧
    decode 0x71000000 = .error (.reservedBits 7) ∧ decode 0x80000010 = .error (.reservedBits 8) := by decide

/-- The assembler words of E8, E11, E14. -/
theorem test_encode :
    encode (.xferChk 2 240) = 0x600200F0 ∧ encode (.xtChk 1920) = 0x70000780 ∧ encode (.halt 15) = 0x8000000F := by decide

/-- A table word runs as the first command after reset, whatever the instance. -/
theorem test_withFetchWord : gives (step (State.reset.withFetchWord 32 0x10000000)) (fun s => s.srcReady) = true := by
  decide

/-! ### One step per command -/

/-- S1, S3. -/
theorem test_srcInit : gives (step (cold [cmd .srcInit])) (fun s => statusWord s == 0x00000009) = true := by decide
theorem test_srcInit_twice :
    gives (step (warm [cmd .srcInit])) (fun s => statusWord s == 0x00000619 && s.up == (warm []).up) = true := by decide

/-- U4: the second fed period. -/
theorem test_srcUp_feeds :
    gives (step (upAt 0 0x2000 0x800 [0x1000, 0] [0xFFFFF000, 0] [cmd (.srcUp 1)])) (fun s =>
      s.up.ch0.upout == 0x1400 && s.up.ch1.upout == 0 && s.upcnt == 1 &&
      s.up.ch1.uh == [0x800, 0xFFFFF000]) = true := by decide

/-- U7: the starved period; the stale input is not read. -/
theorem test_srcUp_starves :
    gives (step (upAt 0 0x7777 0x7777 [0x2000, 0x1000] [0x800, 0xFFFFF000] [cmd (.srcUp 0)])) (fun s =>
      s.up.ch0.upout == 0x800 && s.up.ch1.upout == 0x200 && s.upcnt == 0 && s.up.ch0.uh == [0, 0x2000]) = true := by
  decide

/-- W9: the sample finished with the dropped period's inputs in its history. -/
theorem test_srcDown_emits :
    gives (step (downAt 2 0x900 0x220 ⟨[0x700, 0x400], [0x800, 0x500], [0x600, 0x300]⟩ 0x000001E000000000
      [cmd (.srcDown 1)])) (fun s =>
        s.down.ch0.dnout == 0x9C0 && s.dncnt == 1 && s.down.ch0.dh.p2 == [0x900, 0x600]) = true := by decide

/-- W4: `DSUM` is assigned, not added to. -/
theorem test_srcDown_starts :
    gives (step (downAt 0 0x400 0x220 ⟨[0x100, 0], [0x200, 0], [0x300, 0]⟩ 0x0000005000000000
      [cmd (.srcDown 0)])) (fun s =>
        s.down.ch0.dsum == 0x0000004800000000 && s.down.ch0.dnout == 0x220 && s.dncnt == 0) = true := by decide

/-- L0. -/
theorem test_pllInit :
    gives (step (cold [cmd .pllInit])) (fun s =>
      s.pll.sel == 4 && s.pll.oscDiv == 0x30 && s.pll.oscFrac == 0x140 && !s.pll.lock &&
      statusWord s == 0x0000000A) = true := by decide

/-- L22. -/
theorem test_pllInit_absent :
    gives (step (State.powerOn cfgOff {} [cmd .pllInit])) (fun s => statusWord s == 0x00000610) = true := by decide

/-- L2: the first control cycle. -/
theorem test_pllStep :
    gives (step (locked (primed 1000 8000) [cmd .pllStep, .refEdge 1100 8797])) (fun s =>
      s.pll.err.toInt == 3 && s.pll.integ.toInt == 3 && s.pll.sel == 6 && s.pll.lockCnt == 0 &&
      s.pll.oscFrac == 0x160) = true := by decide

/-- L8 from L7: a negative filter sum is floored, the lock falls at once, the old value is kept for `TASK`. -/
theorem test_pllStep_unlocks :
    gives (step (locked { primed 1600 12797 with integ := 3, lockCnt := 3, lock := true, lockOld := true }
      [cmd .pllStep, .refEdge 1700 13600])) (fun s =>
        s.pll.err.toInt == -3 && s.pll.integ == 0 && s.pll.sel == 2 && !s.pll.lock && s.pll.lockOld &&
        s.pll.lockCnt == 0) = true := by decide

/-- K3, K3b. -/
theorem test_xferChk : gives (step (warm [cmd (.xferChk 6 240)])) (fun s => statusWord s == 0x00000219) = true := by decide
theorem test_xferChk_order :
    gives (step (warm [cmd (.xferChk 1 0)])) (fun s => statusWord s == 0x00000119) = true := by decide

/-- K4, K5. -/
theorem test_xtChk : gives (step (warm [cmd (.xtChk 1916)])) (fun s => statusWord s == 0x00000419) = true := by decide
theorem test_xtChk_ok : gives (step (warm [cmd (.xtChk 1920)])) (fun s => statusWord s == 0x00000009) = true := by decide

/-- K7, K8. -/
theorem test_halt : gives (step (warm [cmd (.halt 9)])) (fun s => statusWord s == 0x00000919) = true := by decide
theorem test_halt_zero : gives (step (warm [cmd (.halt 0)])) (fun s => statusWord s == 0x00000519) = true := by decide

/-- K9, and P4: an illegal word is ignored while halted. -/
theorem test_illegal : gives (step (warm [wrCmd 0])) (fun s => statusWord s == 0x00000519) = true := by decide
theorem test_illegal_halted :
    gives (step (raiseFatal 1 (warm [wrCmd 0]))) (fun s => statusWord s == 0x00000119) = true := by decide

/-- M3, M5, M8 to M11. -/
theorem test_window :
    gives (step (warm [.hot ⟨0x40, 4, .read⟩])) (fun s => s.hotReply == some 0) = true ∧
    gives (step (warm [wr (.upin .c0) 0x12345678])) (fun s => s.up.ch0.upin == 0x12345678) = true ∧
    step (warm [.hot ⟨0x04, 2, .read⟩]) = .refused .badAccess ∧ step (warm [.hot ⟨0x06, 4, .read⟩]) = .refused .badAccess ∧
    step (warm [.hot ⟨0x38, 8, .read⟩]) = .refused .badAccess ∧
    step (warm [.hot ⟨0xFC, 8, .read⟩]) = .refused .badAccess := ⟨by decide, by decide, rfl, rfl, rfl, rfl⟩

/-- The read by `TASK` after L5: both candidates. -/
theorem test_task :
    gives (step (locked { fresh with lock := true } [trd .lockstat false])) (fun s => s.taskReply == some 1) = true ∧
    gives (step (locked { fresh with lock := true } [trd .lockstat true])) (fun s => s.taskReply == some 0) = true := by
  decide

/-- U10, U12, U13 and U14: saturation, the wrap of the accumulator, the floor. -/
theorem test_firOut_corners :
    firOut (fir [0x7FFFFFFF, 0x7FFFFFFF] [0x80000000, 0]) = 0x80000001 ∧
    firOut (fir [0x80000000, 0x80000000] [0x80000000, 0]) = 0x7FFFFFFF ∧
    firOut (fir [0x80000000, 0x80000000] [0x80000000, 0x80000000]) = 0x80000000 ∧
    firOut (fir [0x40000000] [0xFFFFFFFD]) = 0xFFFFFFFE := by decide

/-! ### Witnesses: states that meet the invariant -/

theorem inv_of_controller {s : State} (hu : ∀ c, (s.up.get c).uh.length = s.par.t ∧ (s.up.get c).uph.toNat < 3)
    (hd : ∀ c, ((s.down.get c).dh.p0.length = s.par.t ∧ (s.down.get c).dh.p1.length = s.par.t ∧
      (s.down.get c).dh.p2.length = s.par.t) ∧ (s.down.get c).dph.toNat < 3)
    (he : s.up.ch0.uph = s.up.ch1.uph ∧ s.down.ch0.dph = s.down.ch1.dph) (hc : s.upcnt.toNat ≤ 1 ∧ s.dncnt.toNat ≤ 1)
    (hp : PllInv s.par s.pll) (hk : s.halted = true ↔ s.cause ≠ 0)
    (hh : s.hold = true → s.halted = false ∧ s.pll.ready = true) : s.Inv :=
  ⟨fun c => (hu c).1, fun c => (hd c).1, fun _ => ⟨he.1, (hu .c0).2⟩, fun _ => ⟨he.2, (hd .c0).2⟩, hc, hp, hk, hh⟩

/-- The controller after hardware reset, after `PLL.INIT`, and in lock after a few cycles. -/
theorem inv_pll_off : PllInv parT {} := by constructor <;> decide
theorem inv_pll_fresh : PllInv parT fresh := by constructor <;> decide

/-- L7: in lock, with the snapshots of that row. -/
def inLock : Pll := { primed 1600 12797 with integ := 3, lockCnt := 3, lock := true, lockOld := true }
theorem inv_pll_inLock : PllInv parT inLock := by constructor <;> decide

/-- States on CFG-T: `q`, `r` the phases, the controller `p`. -/
def at_ (q r : BitVec 2) (p : Pll) (es : List Event) : State :=
  { warm es with
    up := ⟨⟨5, 6, q, [1, 2]⟩, ⟨7, 8, q, [3, 4]⟩⟩
    down := ⟨⟨5, 6, r, ⟨[1, 2], [3, 4], [5, 6]⟩, 9⟩, ⟨7, 8, r, ⟨[0, 1], [0, 1], [0, 1]⟩, 10⟩⟩
    pll := p }

theorem inv_at {q r : BitVec 2} {p : Pll} (es : List Event) (hq : q.toNat < 3) (hr : r.toNat < 3) (hp : PllInv parT p) :
    (at_ q r p es).Inv :=
  inv_of_controller (fun c => by cases c <;> exact ⟨rfl, hq⟩) (fun c => by cases c <;> exact ⟨⟨rfl, rfl, rfl⟩, hr⟩)
    ⟨rfl, rfl⟩ ⟨Nat.zero_le _, Nat.zero_le _⟩ hp (by simp [at_, warm, cold, srcInitBody, State.powerOn])
    (by simp [at_, warm, cold, srcInitBody, State.powerOn])

/-- A state met while `PLL.STEP` is held. -/
theorem inv_held (es : List Event) : (setHold true (at_ 1 2 inLock es)).Inv :=
  let h := inv_at es (q := 1) (r := 2) (by decide) (by decide) inv_pll_inLock
  ⟨h.upRings, h.downRings, h.upPhases, h.downPhases, h.counts, h.pll, h.causes, fun _ => ⟨rfl, rfl⟩⟩

theorem inv_halted (es : List Event) : (raiseFatal 1 (at_ 1 2 inLock es)).Inv :=
  let h := inv_at es (q := 1) (r := 2) (by decide) (by decide) inv_pll_inLock
  ⟨h.upRings, h.downRings, h.upPhases, h.downPhases, h.counts, h.pll, by simp [raiseFatal], by
    intro hc; exact absurd hc (by simp [raiseFatal, at_, warm, cold, srcInitBody, State.powerOn])⟩

/-- The state most witnesses speak of: running, both units ready, phases 0 and 2. -/
def run0 (es : List Event) : State := at_ 0 2 inLock es
theorem inv_run0 (es : List Event) : (run0 es).Inv := inv_at es (by decide) (by decide) inv_pll_inLock

/-! ### Witnesses, one per obligation with hypotheses -/

theorem witness_DecodeOfEncode :
    ∀ i ∈ [Instr.srcInit, .srcUp 1, .srcDown 1, .pllInit, .pllStep, .xferChk 15 65535, .xtChk 16777215, .halt 15],
      i.WellFormed := by decide

theorem witness_EncodeOfDecode : decode 0x600FFFFF = .ok (.xferChk 15 65535) := by decide

theorem witness_DecodeAgreesWithOpcodeTable : (⟨"HALT", 0x80000000, 0xFFFFFFF0⟩ : OpcodeRow) ∈ opcodeTable := by decide

theorem witness_IllegalWordsMatchNoRow :
    decode 0x80000010 = .error (.reservedBits 8) ∧ decode 0x90000000 = .error (.reservedOpcode 9) ∧
    (∀ r ∈ opcodeTable, r.selects 0x80000010 = false) := by decide

theorem witness_StepRunsTheCommand :
    (run0 [cmd .srcInit]).hold = false ∧ (run0 [cmd .srcInit]).halted = false ∧
    (run0 [cmd .srcInit]).tape = wrCmd (encode .srcInit) :: [] ∧ decode (encode .srcInit) = .ok .srcInit :=
  ⟨rfl, rfl, rfl, by decide⟩

theorem witness_IllegalWordIsFatal :
    (run0 [wrCmd 0]).hold = false ∧ (run0 [wrCmd 0]).halted = false ∧ (run0 [wrCmd 0]).tape = wrCmd 0 :: [] ∧
    ∀ r ∈ opcodeTable, r.selects 0 = false := ⟨rfl, rfl, rfl, by decide⟩

theorem witness_HaltedIgnoresCommands :
    (raiseFatal 1 (run0 [wrCmd 0])).halted = true ∧ (raiseFatal 1 (run0 [wrCmd 0])).hold = false ∧
    (raiseFatal 1 (run0 [wrCmd 0])).tape = wrCmd 0 :: [] := ⟨rfl, rfl, rfl⟩

/-- An ignored command, and hardware reset. -/
theorem witness_HaltedStateIsFrozen :
    (raiseFatal 1 (at_ 1 2 inLock [wrCmd 0])).Inv ∧ (raiseFatal 1 (at_ 1 2 inLock [wrCmd 0])).halted = true ∧
    step (raiseFatal 1 (at_ 1 2 inLock [wrCmd 0])) = .next (raiseFatal 1 (at_ 1 2 inLock [])) ∧
    step (raiseFatal 1 (at_ 1 2 inLock [.hwReset {}])) = .next (hardReset {} (raiseFatal 1 (at_ 1 2 inLock []))) :=
  ⟨inv_halted _, rfl, rfl, rfl⟩

/-- Each of the four outcomes. -/
theorem witness_OneOutcomePerCommand :
    Instr.WellFormed (.halt 15) ∧ (run0 []).hold = false ∧ fate (.halt 15) (run0 []) = .fatal 15 ∧
    fate .srcInit (run0 []) = .fatal 6 ∧ fate (.xferChk 2 240) (run0 []) = .completes ∧ fate .pllStep (run0 []) = .held ∧
    fate .pllStep (run0 [.refEdge 0 0]) = .completes ∧ fate .pllStep (raiseFatal 1 (run0 [])) = .ignored := by decide

theorem witness_OutOfSequenceIsFatal :
    (run0 []).halted = false ∧ (run0 []).srcReady = true ∧ (run0 []).pll.ready = true ∧ (cold []).halted = false ∧
    (cold []).srcReady = false ∧ (cold []).pll.ready = false ∧ (State.powerOn cfgOff {} []).par.pllEn = false := by decide

theorem witness_SrcInitEffect : (cold []).halted = false ∧ (cold []).srcReady = false := by decide

/-- Each row of the table R153. -/
theorem witness_SrcUpTransition :
    ∀ q ∈ [(0 : BitVec 2), 1, 2], (at_ q 0 fresh []).halted = false ∧ (at_ q 0 fresh []).srcReady = true ∧
      (at_ q 0 fresh []).up.ch1.uph = q := by decide

/-- Each row of the table R173. -/
theorem witness_SrcDownTransition :
    ∀ q ∈ [(0 : BitVec 2), 1, 2], (at_ 0 q fresh []).halted = false ∧ (at_ 0 q fresh []).srcReady = true ∧
      (at_ 0 q fresh []).down.ch1.dph = q := by decide

theorem witness_PhaseAdvancesRegardless :
    (run0 []).halted = false ∧ (run0 []).srcReady = true ∧
    exec (.srcUp 0) (run0 []) = .next (srcUpBody srcArith 0 (run0 [])) ∧
    exec (.srcDown 0) (run0 []) = .next (srcDownBody srcArith 0 (run0 [])) := ⟨rfl, rfl, rfl, rfl⟩

theorem witness_FlagReadAtOnePhaseOnly :
    (∀ c, ((at_ 1 0 fresh []).up.get c).uph ≠ 0) ∧ (∀ c, ((at_ 2 0 fresh []).up.get c).uph ≠ 0) ∧
    (∀ c, ((at_ 0 0 fresh []).down.get c).dph = 0 ∨ ((at_ 0 0 fresh []).down.get c).dph = 1) ∧
    ∀ c, ((at_ 0 1 fresh []).down.get c).dph = 0 ∨ ((at_ 0 1 fresh []).down.get c).dph = 1 := by
  refine ⟨fun c => ?_, fun c => ?_, fun c => ?_, fun c => ?_⟩ <;> cases c <;> decide

/-- A starved invocation at phase 0, and a fed one at phase 1. -/
theorem witness_UpinUnreadWithoutInput :
    ((0 : Nat) ≠ 1 ∨ ((run0 []).up.get .c0).uph ≠ 0) ∧ ((1 : Nat) ≠ 1 ∨ ((at_ 1 0 fresh []).up.get .c1).uph ≠ 0) ∧
    exec (.srcUp 0) (run0 []) = .next (srcUpBody srcArith 0 (run0 [])) ∧
    exec (.srcUp 0) (setUpin .c0 9 (run0 [])) = .next (srcUpBody srcArith 0 (setUpin .c0 9 (run0 []))) :=
  ⟨by decide, by decide, rfl, rfl⟩

theorem witness_UpsampleRateIsOneInThree :
    (run0 []).Inv ∧ (run0 []).halted = false ∧ (run0 []).srcReady = true := ⟨inv_run0 _, rfl, rfl⟩

theorem witness_DownsampleRateIsThreeToOne :
    (run0 []).Inv ∧ (run0 []).halted = false ∧ (run0 []).srcReady = true := ⟨inv_run0 _, rfl, rfl⟩

/-- Three inputs from phase 0. -/
def down1 (x : Word) (s : State) : State := srcDownBody srcArith 1 (setDnin .c0 x s)
theorem witness_DownsampleClosedForm :
    (at_ 0 0 fresh []).halted = false ∧ (at_ 0 0 fresh []).srcReady = true ∧
    ((at_ 0 0 fresh []).down.get .c0).dph = 0 ∧
    exec (.srcDown 1) (setDnin .c0 1 (at_ 0 0 fresh [])) = .next (down1 1 (at_ 0 0 fresh [])) ∧
    exec (.srcDown 1) (setDnin .c0 2 (down1 1 (at_ 0 0 fresh []))) = .next (down1 2 (down1 1 (at_ 0 0 fresh []))) ∧
    exec (.srcDown 1) (setDnin .c0 3 (down1 2 (down1 1 (at_ 0 0 fresh [])))) =
      .next (down1 3 (down1 2 (down1 1 (at_ 0 0 fresh [])))) := ⟨rfl, rfl, rfl, rfl, rfl, rfl⟩

theorem witness_DropCostsOnlyTheOutput :
    (run0 []).halted = false ∧ (run0 []).srcReady = true ∧
    exec (.srcDown 0) (run0 []) = .next (srcDownBody srcArith 0 (run0 [])) ∧
    exec (.srcDown 1) (run0 []) = .next (srcDownBody srcArith 1 (run0 [])) := ⟨rfl, rfl, rfl, rfl⟩

/-- Two states that differ in channel 1 alone. -/
def otherLane : State := setDnin .c1 99 (setUpin .c1 99 (run0 []))
theorem witness_ChannelsDoNotMix :
    (run0 []).cfg = otherLane.cfg ∧ (run0 []).halted = otherLane.halted ∧ (run0 []).srcReady = otherLane.srcReady ∧
    (run0 []).up.get .c0 = otherLane.up.get .c0 ∧ (run0 []).down.get .c0 = otherLane.down.get .c0 ∧
    (run0 []).up.get .c1 ≠ otherLane.up.get .c1 ∧
    exec (.srcUp 1) (run0 []) = .next (srcUpBody srcArith 1 (run0 [])) ∧
    exec (.srcUp 1) otherLane = .next (srcUpBody srcArith 1 otherLane) ∧
    exec (.srcDown 1) (run0 []) = .next (srcDownBody srcArith 1 (run0 [])) ∧
    exec (.srcDown 1) otherLane = .next (srcDownBody srcArith 1 otherLane) :=
  ⟨rfl, rfl, rfl, rfl, rfl, by decide, rfl, rfl, rfl, rfl⟩

/-- A silent channel 1 at phase 2, with an old output. -/
def silentAt2 : State := { warm [] with down := ⟨{}, ⟨0, 6, 2, ⟨[0, 0], [0, 0], [0, 0]⟩, 0⟩⟩ }

/-- Silence at phase 0, and at phase 2, with space. -/
theorem witness_SilenceStaysSilent :
    (warm []).halted = false ∧ (warm []).srcReady = true ∧ (∀ x ∈ ((warm []).up.get .c0).uh, x = 0) ∧
    ((warm []).up.get .c0).upin = 0 ∧
    (∀ x ∈ ((warm []).down.get .c0).dh.p0 ++ ((warm []).down.get .c0).dh.p1 ++ ((warm []).down.get .c0).dh.p2, x = 0) ∧
    ((warm []).down.get .c0).dnin = 0 ∧ ((warm []).down.get .c0).dsum = 0 ∧ ((warm []).down.get .c0).dph = 0 ∧
    exec (.srcUp 1) (warm []) = .next (srcUpBody srcArith 1 (warm [])) ∧
    exec (.srcDown 1) (warm []) = .next (srcDownBody srcArith 1 (warm [])) ∧
    (silentAt2.down.get .c1).dph = 2 ∧ (silentAt2.down.get .c1).dnout = 6 ∧ (silentAt2.down.get .c1).dsum = 0 ∧
    (∀ x ∈ (silentAt2.down.get .c1).dh.p0 ++ (silentAt2.down.get .c1).dh.p1 ++ (silentAt2.down.get .c1).dh.p2, x = 0) ∧
    exec (.srcDown 1) silentAt2 = .next (srcDownBody srcArith 1 silentAt2) :=
  ⟨rfl, rfl, fun x hx => List.eq_of_mem_replicate (show x ∈ List.replicate 2 0 from hx), rfl,
    fun x hx => List.eq_of_mem_replicate (show x ∈ List.replicate 6 0 from hx), rfl, rfl, rfl, rfl, rfl, rfl, rfl, rfl,
    fun x hx => List.eq_of_mem_replicate (show x ∈ List.replicate 6 0 from hx), rfl⟩

/-- A ring of one sample and a ring of two. -/
theorem witness_PushShiftsTheRing : 1 ≤ 1 ∧ [(4 : Word)].length = 1 ∧ [(4 : Word), 5].length = 2 ∧ 0 + 1 < 2 := by decide

/-- Accumulators at the edges of the sample range. -/
theorem witness_FirOutFloorsAndSaturates :
    2 ^ 62 ≤ (0x4000000000000000 : Acc).toInt ∧ (0xBFFFFFFFFFFFFFFF : Acc).toInt < -2 ^ 62 ∧
    -2 ^ 62 ≤ (0xC000000000000000 : Acc).toInt ∧ (0x3FFFFFFFFFFFFFFF : Acc).toInt < 2 ^ 62 ∧
    (0xC000000000000000 : Acc).toInt ≤ (0x3FFFFFFFFFFFFFFF : Acc).toInt := by decide

theorem witness_FirIsTheWrappedSum : [(1 : Word), 2].length = 2 ∧ [(3 : Word), 4].length = 2 := by decide

theorem witness_NoWrapUnderCoefficientBound : l1 parT < 2 ^ 32 := by decide

theorem witness_PllInitEffect :
    (cold []).halted = false ∧ (cold []).par.pllEn = true ∧ (cold []).pll.ready = false := by decide

/-- The edge behind an access of `HOT`, which waits. -/
theorem witness_PllPrimingCycle :
    (at_ 0 0 fresh [cmd .pllInit, .refEdge 7 8]).halted = false ∧ (at_ 0 0 fresh [cmd .pllInit, .refEdge 7 8]).par.pllEn = true ∧
    (at_ 0 0 fresh [cmd .pllInit, .refEdge 7 8]).pll.ready = true ∧
    (at_ 0 0 fresh [cmd .pllInit, .refEdge 7 8]).pll.primed = false ∧
    nextEnv (at_ 0 0 fresh [cmd .pllInit, .refEdge 7 8]).tape = some (.refEdge 7 8, [cmd .pllInit]) ∧
    (at_ 0 0 fresh [cmd .pllInit, .refEdge 7 8]).Inv :=
  ⟨rfl, rfl, rfl, rfl, rfl, inv_at _ (by decide) (by decide) inv_pll_fresh⟩

theorem witness_PllControlCycle :
    (run0 [.refEdge 1700 13600]).par.pllEn = true ∧ (run0 [.refEdge 1700 13600]).halted = false ∧
    (run0 [.refEdge 1700 13600]).pll.ready = true ∧ (run0 [.refEdge 1700 13600]).pll.primed = true ∧
    nextEnv (run0 [.refEdge 1700 13600]).tape = some (.refEdge 1700 13600, []) := ⟨rfl, rfl, rfl, rfl, rfl⟩

theorem witness_PllSumsStayInRange : (-16 : Int).natAbs ≤ cfgT.par.integMax := by decide

/-- An empty tape, and a read of `TASK` before the edge. -/
theorem witness_PllStepIsHeldWithoutEdge :
    (run0 []).halted = false ∧ (run0 []).par.pllEn = true ∧ (run0 []).pll.ready = true ∧
    (∀ r f rest, nextEnv (run0 []).tape ≠ some (.refEdge r f, rest)) ∧
    ∀ r f rest, nextEnv (run0 [trd .lockstat true, .refEdge 0 0]).tape ≠ some (.refEdge r f, rest) :=
  ⟨rfl, rfl, rfl, fun _ _ _ h => absurd h nofun, fun r f rest => by
    show some (trd .lockstat true, [Event.refEdge 0 0]) ≠ _; simp [trd]⟩

/-- A write of `HOT` that waits; reads of `TASK`, one of them behind that write; the edge. -/
theorem witness_HeldCommandWaitsForTheEdge :
    (setHold true (at_ 1 2 inLock [cmd .pllStep])).hold = true ∧
    nextEnv (setHold true (at_ 1 2 inLock [cmd .pllStep])).tape = none ∧
    nextEnv (setHold true (at_ 1 2 inLock [cmd .pllStep, trd .lockstat true])).tape =
      some (trd .lockstat true, [cmd .pllStep]) ∧
    nextEnv (setHold true (at_ 1 2 inLock [trd .status true])).tape = some (.task ⟨0x04, 4, .read⟩ true, []) ∧
    step (setHold true (at_ 1 2 inLock [trd .lockstat true])) = .next (setTaskReply 1 (setHold true (at_ 1 2 inLock []))) ∧
    nextEnv (setHold true (at_ 1 2 inLock [cmd .pllStep, .refEdge 1 2])).tape = some (.refEdge 1 2, [cmd .pllStep]) ∧
    (setHold true (at_ 1 2 inLock [cmd .pllStep, .refEdge 1 2])).Inv := ⟨rfl, rfl, rfl, rfl, rfl, rfl, inv_held _⟩

/-- Out of the window by one (the window is 1), and a cycle that earns the lock. -/
theorem witness_OutOfWindowDropsLock :
    cfgT.par.lockWindow < (phaseError cfgT.par inLock.refAcc inLock.fbAcc 1700 13599).natAbs ∧
    (controlCycle piFilter cfgT.par 1700 13598 inLock).lock = true := by decide

theorem witness_LockIsEarnedUnderAnyFilter : fresh.lockCnt = 0 ∧ fresh.lock = false := by decide

/-- `PLL.INIT`, the priming cycle, a control cycle. -/
def stepped (r f : Word) (s : State) : State := awaitEdge piFilter (setTape [.refEdge r f] s)
theorem witness_LockFollowsTheLastCycles :
    (cold []).halted = false ∧ (cold []).par.pllEn = true ∧ (cold []).pll.ready = false ∧
    exec .pllInit (cold []) = .next (setPll fresh (cold [])) ∧
    PllRun (setPll fresh (cold [])) [(1000, 8000), (1100, 8797)]
      (stepped 1100 8797 (stepped 1000 8000 (setPll fresh (cold [])))) :=
  ⟨rfl, rfl, rfl, rfl, .cons [] rfl (.cons [] rfl (.nil _))⟩

theorem witness_XferChkEffect :
    (run0 []).halted = false ∧ (raiseFatal 1 (run0 [])).halted = true ∧ 239 ≠ (run0 []).par.frameCount ∧
    240 = (run0 []).par.frameCount ∧ 3 ≠ 2 := by decide

theorem witness_XtChkEffect :
    (run0 []).halted = false ∧ (raiseFatal 1 (run0 [])).halted = true ∧ 1919 ≠ (run0 []).par.xtFrameBytes ∧ 1920 = (run0 []).par.xtFrameBytes := by decide

theorem witness_HaltEffect :
    (run0 []).halted = false ∧ (raiseFatal 1 (run0 [])).halted = true ∧ 0 ≤ 15 ∧ 15 ≤ 15 := by decide

theorem witness_EveryStepKeepsTheInvariant :
    (run0 [cmd .pllStep]).Inv ∧ step (run0 [cmd .pllStep]) = .next (setHold true (run0 [])) := ⟨inv_run0 _, rfl⟩

theorem witness_ParametersNeverChange : step (run0 [cmd .pllStep]) = .next (setHold true (run0 [])) := rfl

/-- A reset at the head of the tape, and one behind a write of `HOT` while a command is held. -/
theorem witness_HardResetClearsTheFlags :
    (run0 [.hwReset {}]).Meets (.hwReset {}) [] ∧
    (setHold true (at_ 1 2 inLock [cmd .pllStep, .hwReset {}])).Meets (.hwReset {}) [cmd .pllStep] :=
  ⟨.inl ⟨rfl, rfl⟩, .inr ⟨rfl, rfl⟩⟩

/-- An access by `HOT`, one by `TASK`, and one by `TASK` while a legal access of `HOT` waits. -/
theorem witness_OnlyBadAccessesAreRefused :
    step (run0 [.hot ⟨254, 4, .read⟩]) = .refused .badAccess ∧
    step (run0 [.task ⟨-1, 2, .read⟩ false]) = .refused .badAccess ∧
    step (setHold true (at_ 1 2 inLock [cmd .pllStep, .task ⟨2, 4, .read⟩ false])) = .refused .badAccess := ⟨rfl, rfl, rfl⟩

/-- A step that keeps the flags, and hardware reset. -/
theorem witness_ReadyFlagsAreNeverCleared :
    step (run0 [cmd .pllStep]) = .next (setHold true (run0 [])) ∧ (run0 [cmd .pllStep]).srcReady = true ∧
    (run0 [cmd .pllStep]).pll.ready = true ∧ step (run0 [.hwReset {}]) = .next (hardReset {} (run0 [])) :=
  ⟨rfl, rfl, rfl, rfl⟩

/-- A command of each unit. -/
theorem witness_CommandFrames :
    exec (.srcUp 1) (run0 []) = .next (srcUpBody srcArith 1 (run0 [])) ∧
    exec .pllStep (run0 []) = .next (setHold true (run0 [])) ∧
    exec (.halt 3) (run0 []) = .next (raiseFatal 3 (run0 [])) := ⟨rfl, rfl, rfl⟩

theorem witness_SteadyCommandsCommute :
    (run0 []).halted = false ∧ (run0 []).srcReady = true ∧ (run0 []).par.pllEn = true ∧ (run0 []).pll.ready = true ∧
    Instr.pllStep ∈ [Instr.srcUp 1, .srcDown 0, .pllStep] ∧ Instr.srcUp 1 ∈ [Instr.srcUp 1, .srcDown 0, .pllStep] ∧
    Instr.pllStep ≠ Instr.srcUp 1 := by decide

/-- Registers, and the first and the last reserved offset. -/
theorem witness_HotReadReturnsTheRegister :
    (run0 [rd .oscFrac]).hold = false ∧ (run0 [rd .oscFrac]).tape = rd .oscFrac :: [] ∧
    (run0 [rd (.dnin .c1)]).tape = rd (.dnin .c1) :: [] ∧ (run0 [rd .lockstat]).tape = rd .lockstat :: [] ∧
    16 ≤ 16 ∧ 63 < 64 ∧ (run0 [.hot ⟨0x40, 4, .read⟩]).tape = .hot ⟨4 * (16 : Nat), 4, .read⟩ :: [] ∧
    (run0 [.hot ⟨0xFC, 4, .read⟩]).tape = .hot ⟨4 * (63 : Nat), 4, .read⟩ :: [] :=
  ⟨rfl, rfl, rfl, rfl, by decide, by decide, rfl, rfl⟩

theorem witness_HotWriteEffect :
    (run0 []).hold = false ∧ (run0 [wr (.upin .c1) 1]).tape = wr (.upin .c1) 1 :: [] ∧
    (run0 [wr (.dnin .c0) 1]).tape = wr (.dnin .c0) 1 :: [] ∧ Reg.status ≠ .cmd ∧
    (∀ c, Reg.status ≠ .upin c ∧ Reg.status ≠ .dnin c) ∧ (run0 [wr .status 1]).tape = wr .status 1 :: [] ∧
    (run0 [.hot ⟨0x44, 4, .write 1⟩]).tape = .hot ⟨4 * (17 : Nat), 4, .write 1⟩ :: [] :=
  ⟨rfl, rfl, rfl, by decide, fun c => by cases c <;> decide, rfl, rfl⟩

/-- A read and a held read; writes to `CMD`, to the last reserved offset, and to one while a command is held. -/
theorem witness_TaskReadsLockWritesNothing :
    (run0 [trd .lockstat true]).Meets (trd .lockstat true) [] ∧
    (setHold true (at_ 1 2 inLock [cmd .pllStep, trd .lockstat false])).Meets (trd .lockstat false) [cmd .pllStep] ∧
    (run0 [.task ⟨0, 4, .write 0x10000000⟩ false]).Meets (.task ⟨4 * (0 : Nat), 4, .write 0x10000000⟩ false) [] ∧
    (run0 [.task ⟨0xFC, 4, .write 1⟩ false]).Meets (.task ⟨4 * (63 : Nat), 4, .write 1⟩ false) [] ∧
    (setHold true (at_ 1 2 inLock [.task ⟨0x40, 4, .write 1⟩ true])).Meets (.task ⟨4 * (16 : Nat), 4, .write 1⟩ true) [] :=
  ⟨.inl ⟨rfl, rfl⟩, .inr ⟨rfl, rfl⟩, .inl ⟨rfl, rfl⟩, .inl ⟨rfl, rfl⟩, .inr ⟨rfl, rfl⟩⟩

/-- Wrong size at the first byte, misalignment, and straddling the window's end. -/
theorem witness_BadAccessIsRefused :
    ((0 : Int) < 256 ∧ (0 : Int) ≤ 0 ∧ ((1 : Nat) ≠ 4 ∨ (0 : Int) % 4 ≠ 0 ∨ 252 < (0 : Int))) ∧
    ((255 : Int) < 256 ∧ (0 : Int) ≤ 255 ∧ ((4 : Nat) ≠ 4 ∨ (255 : Int) % 4 ≠ 0 ∨ 252 < (255 : Int))) ∧
    (run0 [.hot ⟨255, 4, .read⟩]).Meets (.hot ⟨255, 4, .read⟩) [] ∧
    (run0 [.task ⟨0, 1, .read⟩ true]).Meets (.task ⟨0, 1, .read⟩ true) [] ∧
    (setHold true (at_ 1 2 inLock [.task ⟨0, 1, .read⟩ true])).Meets (.task ⟨0, 1, .read⟩ true) [] :=
  ⟨by decide, by decide, .inl ⟨rfl, rfl⟩, .inl ⟨rfl, rfl⟩, .inr ⟨rfl, rfl⟩⟩

/-- No event; an edge nobody waits for; the first byte after the window, by `HOT`, by `TASK`, and by `TASK` while held. -/
theorem witness_UnconcernedEventsChangeNothing :
    (run0 []).hold = false ∧ (run0 []).tape = [] ∧ (run0 [.refEdge 1 2]).tape = .refEdge 1 2 :: [] ∧
    (run0 []).par.base + 256 ≤ 256 ∧
    (run0 [.hot (memRead parT 256 4)]).Meets (.hot (memRead (run0 []).par 256 4)) [] ∧
    (run0 [.task (memWrite parT 256 4 9) true]).Meets (.task (memWrite (run0 []).par 256 4 9) true) [] ∧
    (setHold true (at_ 1 2 inLock [.task (memRead parT 256 4) true])).Meets (.task (memRead (run0 []).par 256 4) true) [] :=
  ⟨rfl, rfl, rfl, by decide, .inl ⟨rfl, rfl⟩, .inl ⟨rfl, rfl⟩, .inr ⟨rfl, rfl⟩⟩

theorem witness_TransmitSlotAdvancesTheRing :
    (run0 []).Inv ∧ (run0 []).hold = false ∧ (run0 []).halted = false ∧ (run0 []).srcReady = true ∧
    (Rings.mk [⟨1, 2⟩] []).tx = ⟨1, 2⟩ :: [] := ⟨inv_run0 _, rfl, rfl, rfl, rfl⟩

/-- A full ring and one with room. -/
theorem witness_ReceiveSlotAppendsOrDrops :
    (run0 []).Inv ∧ (run0 []).hold = false ∧ (run0 []).halted = false ∧ (run0 []).srcReady = true ∧
    (Rings.mk [] [⟨1, 2⟩]).rx.length ≤ 1 ∧ (Rings.mk [] []).rx.length ≤ 1 := ⟨inv_run0 _, rfl, rfl, rfl, by decide, by decide⟩

/-- A device with cross-tile transport. -/
def tiles : Capabilities := ⟨true, false, true⟩

/-- A layout: a slot as its two samples, the low byte first (every layout of 8 bytes a slot would do). -/
def packWord (w : Word) : List Byte :=
  [w.setWidth 8, (w >>> 8).setWidth 8, (w >>> 16).setWidth 8, (w >>> 24).setWidth 8]
def unpackWord (a b c d : Byte) : Word :=
  BitVec.ofNat 32 (a.toNat + b.toNat * 2 ^ 8 + c.toNat * 2 ^ 16 + d.toNat * 2 ^ 24)
def packSlots : List Slot → List Byte
  | [] => []
  | x :: xs => packWord x.ch0 ++ packWord x.ch1 ++ packSlots xs
def unpackSlots : List Byte → List Slot
  | a :: b :: c :: d :: e :: f :: g :: h :: rest => ⟨unpackWord a b c d, unpackWord e f g h⟩ :: unpackSlots rest
  | _ => []
def layT : BlobLayout :=
  ⟨fun n xs => (packSlots xs ++ List.replicate n 0).take n, unpackSlots, fun n xs => by simp⟩

theorem unpack_packWord (w : Word) :
    unpackWord (w.setWidth 8) ((w >>> 8).setWidth 8) ((w >>> 16).setWidth 8) ((w >>> 24).setWidth 8) = w := by
  apply BitVec.eq_of_toNat_eq
  have := w.isLt
  simp only [unpackWord, BitVec.toNat_ofNat, BitVec.toNat_setWidth, BitVec.toNat_ushiftRight, Nat.shiftRight_eq_div_pow]
  omega

theorem packSlots_length : ∀ xs : List Slot, (packSlots xs).length = 8 * xs.length
  | [] => rfl
  | x :: xs => by simp [packSlots, packWord, packSlots_length xs]; omega

theorem unpack_packSlots : ∀ xs : List Slot, unpackSlots (packSlots xs) = xs
  | [] => rfl
  | x :: xs => by
    simp only [packSlots, packWord, List.cons_append, List.nil_append, unpackSlots, unpack_packWord, unpack_packSlots xs]

theorem layT_carries (n : Nat) : layT.Carries n (8 * n) := by
  intro xs h
  subst h
  show unpackSlots ((packSlots xs ++ _).take (8 * xs.length)) = xs
  rw [← packSlots_length, List.take_left, unpack_packSlots]

/-- A router's core with one frame for the bus. -/
def oneFrame : Device := { router := ⟨List.replicate 240 ⟨1, 2⟩, []⟩ }

/-- A device around a running block, in the audio loop. -/
def siteT (k : Capabilities) : Site := ⟨k, ⟨⟨.processed .c0, .processed .c1⟩, none⟩, layT, 4, 4⟩
def loop (d : Device) (s : State) (x : RouterPhase) : Audio :=
  { whole := ⟨d, s⟩, selection := ⟨.bus, .micArray, [.bus, .inference]⟩, stage := .audioLoop, router := x }

/-- Three bytes of a length, one byte of payload too few, the expected size, a length that no operand holds, a frame to forward,
and turns of the receiver that wait and that check. -/
theorem witness_CrossTileLengthIsChecked :
    tiles.bus = true ∧ tiles.crossTile = true ∧ (run0 []).hold = false ∧ (run0 []).halted = false ∧
    [(0x80 : BitVec 8), 7, 0].length < 4 ∧ (List.replicate 1919 (0 : BitVec 8)).length < 2 ^ 32 ∧
    (List.replicate 1919 (0 : BitVec 8)).length ≠ (run0 []).par.xtFrameBytes ∧
    (List.replicate 1920 (0 : BitVec 8)).length = (run0 []).par.xtFrameBytes ∧
    (List.replicate 1919 (0 : BitVec 8)).length < (List.replicate 1920 (0 : BitVec 8)).length ∧
    layT.Carries (run0 []).par.frameCount (run0 []).par.xtFrameBytes ∧ oneFrame.routerHalted = false ∧
    oneFrame.toBus = {} ∧ (run0 []).par.frameCount ≤ oneFrame.router.tx.length ∧
    move (siteT tiles) (.receiveAtBus false) (loop {} (run0 []) .readsMic) = .next { audio := loop {} (run0 []) .readsMic } ∧
    move (siteT tiles) (.receiveAtBus false) (loop { toBus := ⟨[], ⟨.awaitsLength, [0x80, 7, 0, 0]⟩⟩ } (run0 []) .readsMic) =
      .next { audio := loop { toBus := ⟨[], ⟨.reads 1920, []⟩⟩ } (run0 []) .readsMic } ∧
    2 ^ 24 ≤ (List.replicate (2 ^ 24) (0 : Byte)).length ∧ (List.replicate (2 ^ 24) (0 : Byte)).length < 2 ^ 32 ∧
    (List.replicate (2 ^ 24) (0 : Byte)).length ≠ (run0 []).par.xtFrameBytes := by
  refine ⟨rfl, rfl, rfl, rfl, by decide, ?_, ?_, ?_, ?_, layT_carries 240, rfl, rfl, ?_, rfl, rfl, ?_, ?_, ?_⟩ <;>
    simp only [oneFrame, List.length_replicate] <;> decide

/-- Channels of `n` samples. -/
def chans (n : Nat) : Group := ⟨List.replicate n 0, List.replicate n 0⟩

theorem chans_fits (n f : Nat) : (chans n).Fits f ↔ n = f := by simp [Group.Fits, chans]

/-- Each case of the checks. -/
theorem witness_FrameExchangeIsChecked :
    (run0 [exchangeEvent 16 240]).hold = false ∧ (run0 [exchangeEvent 16 240]).halted = false ∧
    (run0 [exchangeEvent 16 240]).tape = exchangeEvent 16 240 :: [] ∧
    (run0 [exchangeEvent 2 70000]).tape = exchangeEvent 2 70000 :: [] ∧ 70000 ≠ (run0 []).par.frameCount ∧
    240 = (run0 []).par.frameCount ∧ 16 ≠ 2 ∧ (⟨true, true, false⟩ : Capabilities).bus = true ∧
    (⟨true, true, false⟩ : Capabilities).crossTile = false ∧
    (OutputFrame.mk (chans 240) (chans 240) (chans 240)).Fits (run0 []).par.frameCount ∧
    ¬ (OutputFrame.mk (chans 240) (chans 239) (chans 240)).Fits (run0 []).par.frameCount ∧
    (InputFrame.mk (chans 240) (chans 240)).Fits (run0 []).par.frameCount ∧
    ¬ (InputFrame.mk (chans 240) (chans 0)).Fits (run0 []).par.frameCount ∧
    (siteT ⟨true, true, false⟩).caps.bus = true ∧ (siteT ⟨true, true, false⟩).caps.crossTile = false ∧
    (loop {} (run0 []) .awaitsProcessing).whole.state = run0 [] ∧ (loop {} (run0 []) .awaitsProcessing).stage = .audioLoop ∧
    (loop {} (run0 []) .awaitsProcessing).router = .awaitsProcessing ∧
    (loop {} (run0 []) (.overlays ⟨chans 240, chans 0⟩ (List.replicate 240 ⟨0, 0⟩))).router =
      .overlays ⟨chans 240, chans 0⟩ (List.replicate 240 ⟨0, 0⟩) ∧
    (List.replicate 240 (⟨0, 0⟩ : Slot)).length = (run0 []).par.frameCount :=
  have hf : (run0 []).par.frameCount = 240 := rfl
  ⟨rfl, rfl, rfl, rfl, by decide, rfl, by decide, rfl, rfl, by simp [OutputFrame.Fits, chans_fits, hf],
    by simp [OutputFrame.Fits, chans_fits, hf], by simp [InputFrame.Fits, chans_fits, hf],
    by simp [InputFrame.Fits, chans_fits, hf], rfl, rfl, rfl, rfl, rfl, rfl, by rw [List.length_replicate, hf]⟩

/-- The wait for readiness, the signal that ends it, and a transmit slot while the router's task is taking slots. -/
theorem witness_StartUpMakesTheUnitsReady :
    ({ loop {} (warm []) .readsMic with stage := .bringUp } : Audio).stage ≠ .audioLoop ∧
    move (siteT tiles) .ready { loop {} (warm []) .readsMic with stage := .bringUp } =
      .next { audio := loop {} (warm []) .readsMic } ∧
    (loop {} (warm []) (.overlays ⟨chans 240, chans 240⟩ [⟨1, 2⟩])).stage = .audioLoop ∧
    (warm []).hold = false ∧ (warm []).halted = false ∧
    ∃ e, busSlot tiles [.transmit] 4 ⟨0, 0⟩ {} (warm []) = .next e :=
  ⟨by decide, rfl, rfl, rfl, rfl, _, rfl⟩

/-- Channels of two samples, the last position of each. -/
def group (a b c d : Word) : Group := ⟨[a, b], [c, d]⟩
theorem witness_FrameBufferLayout :
    (group 0 1 2 3).Fits 2 ∧ (group 4 5 6 7).Fits 2 ∧ 1 < 2 := by decide

/-- X5 of section 1 on a frame of two samples per channel: reference channel 0 starts at 2F. -/
theorem test_frame_layout :
    (OutputFrame.mk (group 0 1 2 3) (group 4 5 6 7) (group 8 9 10 11)).buffer[framePos 2 2 0]? = some 4 := by decide

/-- A device with every capability, and one with none. -/
def full : Capabilities := ⟨true, true, true⟩
def bare : Capabilities := ⟨false, false, false⟩

/-- R257, R255: an empty receive is retried, the microphone array is drained though the bus is selected, and the bus's two
channels come from the oldest two slots of the receive ring, which gives them up. -/
theorem test_capture :
    capture full 2 ⟨.bus, .micArray, []⟩ [none, some ⟨group 0 0 0 0, group 1 1 1 1⟩] ⟨group 9 9 9 9, group 9 9 9 9⟩
      ⟨[], [⟨2, 3⟩, ⟨4, 5⟩, ⟨6, 7⟩]⟩ = .frame ⟨group 2 4 3 5, group 1 1 1 1⟩ [] ⟨[], [⟨6, 7⟩]⟩ := by decide

/-- R280 (2): a ring without a whole frame is filled with silence; R266: without the bus the microphone array stays; R260: a
microphone array that populated half a channel is a violation. -/
theorem test_capture_short :
    capture full 2 ⟨.bus, .micArray, []⟩ [some ⟨group 0 0 0 0, group 1 1 1 1⟩] ⟨group 9 9 9 9, group 9 9 9 9⟩
      ⟨[], [⟨2, 3⟩]⟩ = .frame ⟨group 2 0 3 0, group 1 1 1 1⟩ [] ⟨[], []⟩ ∧
    capture bare 2 ⟨.bus, .micArray, []⟩ [some ⟨group 0 0 0 0, group 1 1 1 1⟩] ⟨group 9 9 9 9, group 9 9 9 9⟩
      ⟨[], [⟨2, 3⟩]⟩ = .frame ⟨group 0 0 0 0, group 1 1 1 1⟩ [] ⟨[], [⟨2, 3⟩]⟩ ∧
    capture full 2 ⟨.bus, .micArray, []⟩ [some ⟨group 0 0 0 0, ⟨[1], [1, 1]⟩⟩] ⟨group 9 9 9 9, group 9 9 9 9⟩
      ⟨[], [⟨2, 3⟩]⟩ = .violation := by decide

/-- A bus format with processed channel 1 first, marked at every sample, and raw microphone channel 0. -/
def formatT : BusFormat :=
  ⟨⟨.processed .c1, .rawMic .c0⟩, some ⟨fun c _ => if c = .c1 then some true else none, true⟩⟩

/-- R258: the marker is set on the processed channel, the bit is cleared on the raw one, and the slots stand at the end of
the transmit ring; the inference sink gets the frame as it is, though the external bus is not ready. R280 (2): a ring with
room for two slots drops the second. -/
theorem test_dispatch :
    (∀ room ∈ [(2 : Nat), 3],
      (match dispatch full formatT room 2 ⟨.bus, .micArray, [.bus, .externalBus, .inference]⟩ (fun x => x ≠ .externalBus) ⟨6, 2⟩
          ⟨group 0 0 4 6, group 8 8 8 8, group 3 5 9 9⟩ ⟨[⟨1, 1⟩], []⟩ with
        | .ok d => d == ⟨[(.inference, ⟨group 0 0 4 6, group 8 8 8 8, group 3 5 9 9⟩)],
            ⟨[⟨1, 1⟩, ⟨5, 2⟩, ⟨7, 4⟩].take room, []⟩, .mayBeFreed⟩
        | .error _ => false) = true) := by decide

/-- R266: without the bus no slot is driven and no command is issued. -/
theorem test_bare :
    busSlot bare [.transmit, .receive] 4 ⟨1, 2⟩ ⟨[⟨3, 4⟩], []⟩ (warm []) =
      .next { rings := ⟨[⟨3, 4⟩], []⟩, state := warm [] } ∧
    startUp bare parT true = [] ∧ exchange bare 2 240 = [] ∧
    receiverTurn bare false ⟨.awaitsLength, [0, 0, 0, 0]⟩ (warm []) =
      .next { receiver := ⟨.awaitsLength, [0, 0, 0, 0]⟩, state := warm [] } := ⟨rfl, rfl, rfl, rfl⟩

/-- CFG-T with frames of one slot. -/
def par1 : Params := { parT with frameCount := 1, xtFrameBytes := 8 }
def warm1 : State := srcInitBody (State.powerOn { par := par1 } {} [])

/-- R262, R263: in a period each sender puts one blob of 8 bytes behind its length on its channel, and takes one slot. -/
theorem test_forwardPeriod :
    forwardPeriod tiles layT par1 false false false
        { driver := ⟨[], [⟨0x01020304, 5⟩]⟩, router := ⟨[⟨6, 7⟩, ⟨8, 9⟩], []⟩ } =
      ⟨some .sent, some .sent,
        { router := ⟨[⟨8, 9⟩], []⟩
          toRouter := ⟨[8, 0, 0, 0, 4, 3, 2, 1, 5, 0, 0, 0], {}⟩
          toBus := ⟨[8, 0, 0, 0, 6, 0, 0, 0, 7, 0, 0, 0], {}⟩ }⟩ := rfl

/-- R280 (2): an empty ring sends silence; C5: the bounded wait for the channel to the bus runs out. -/
theorem test_forwardPeriod_absorbs :
    forwardPeriod tiles layT par1 false true false { router := ⟨[⟨6, 7⟩, ⟨8, 9⟩], []⟩ } =
      ⟨some .sent, some .expired,
        { router := ⟨[⟨8, 9⟩], []⟩, toRouter := ⟨[8, 0, 0, 0, 0, 0, 0, 0, 0, 0, 0, 0], {}⟩ }⟩ := rfl

/-- R263 on the router's core: the length is checked, then the payload reaches that core's receive ring; a length of 7
halts that core. -/
theorem test_receiveAtRouter :
    receiveAtRouter tiles layT false 4 par1
      (receiveAtRouter tiles layT false 4 par1 { toRouter := ⟨[], ⟨.awaitsLength, [8, 0, 0, 0, 4, 3, 2, 1, 5, 0, 0, 0]⟩⟩ }) =
      { router := ⟨[], [⟨0x01020304, 5⟩]⟩ } ∧
    receiveAtRouter tiles layT false 4 par1 { toRouter := ⟨[], ⟨.awaitsLength, [7, 0, 0, 0]⟩⟩ } =
      { toRouter := ⟨[], ⟨.stopped, []⟩⟩, routerHalted := true } := by decide

/-- R262: the router works on the rings of its own core. R260, R280 (1): a violation halts that core, and it captures no
more. -/
theorem test_routerCapture :
    routerCapture tiles ⟨.bus, .bus, []⟩ [some ⟨⟨[0], [0]⟩, ⟨[0], [0]⟩⟩] ⟨⟨[9], [9]⟩, ⟨[9], [9]⟩⟩
      ⟨{ driver := ⟨[], [⟨1, 2⟩]⟩, router := ⟨[], [⟨3, 4⟩]⟩ }, warm1⟩ =
      .next ⟨some (.frame ⟨⟨[3], [4]⟩, ⟨[3], [4]⟩⟩ [] ⟨[], []⟩), { driver := ⟨[], [⟨1, 2⟩]⟩ }, warm1⟩ ∧
    routerCapture tiles ⟨.bus, .bus, []⟩ [some ⟨⟨[], [0]⟩, ⟨[0], [0]⟩⟩] ⟨⟨[9], [9]⟩, ⟨[9], [9]⟩⟩ ⟨{}, warm1⟩ =
      .next ⟨some .violation, { routerHalted := true }, warm1⟩ ∧
    routerCapture tiles ⟨.bus, .bus, []⟩ [some ⟨⟨[0], [0]⟩, ⟨[0], [0]⟩⟩] ⟨⟨[9], [9]⟩, ⟨[9], [9]⟩⟩
      ⟨{ routerHalted := true }, warm1⟩ = .next ⟨none, { routerHalted := true }, warm1⟩ := ⟨rfl, rfl, rfl⟩

/-- R260, R280 (1): on one core with the block, a dispatch of seven channels halts the block with cause 2. -/
theorem test_routerDispatch :
    routerDispatch ⟨true, false, false⟩ formatT 4 ⟨.bus, .bus, []⟩ (fun _ => true) ⟨7, 1⟩
      ⟨⟨[0], [0]⟩, ⟨[0], [0]⟩, ⟨[0], [0]⟩⟩ ⟨{}, warm1⟩ =
      .next ⟨some (.error 2), {}, raiseFatal 2 warm1⟩ := rfl

/-- R323: before the readiness signal no slot is driven and the router's task does not start. -/
theorem test_bringUp :
    moves (siteT full) [.start true false, .slot [.transmit] ⟨1, 2⟩, .router { receive := some ⟨chans 1, chans 1⟩ }]
        { whole := ⟨{}, State.powerOn { par := { par1 with pllEn := false } } {} []⟩, selection := ⟨.bus, .bus, []⟩ } =
      .next { whole := ⟨{}, srcInitBody (State.powerOn { par := { par1 with pllEn := false } } {} [])⟩
              selection := ⟨.bus, .bus, []⟩, stage := .bringUp } := rfl

/-- R321: an allocation that fails at start-up halts the block with cause 3. -/
theorem test_allocationFailed :
    moves (siteT full) [.start false false, .start true false]
        { whole := ⟨{}, State.powerOn { par := par1 } {} []⟩, selection := ⟨.bus, .bus, []⟩ } =
      .next { whole := ⟨{}, raiseFatal 3 (State.powerOn { par := par1 } {} [])⟩, selection := ⟨.bus, .bus, []⟩ } := rfl

/-- C4: a slot the hot path appends between two moves of a capture is taken into its frame: the ring was empty when the capture
began. -/
theorem test_slot_inside_capture :
    (match moves (siteT ⟨true, false, false⟩) [.router { receive := some ⟨chans 1, chans 1⟩ },
          .slot [.receive] ⟨0x1000, 0⟩, .slot [.receive] ⟨0x1000, 0⟩, .slot [.receive] ⟨0x1000, 0⟩, .router {}, .router {}]
        (loop {} warm1 .readsMic) with
      | .next a => a.router == .awaitsProcessing && a.whole.device.driver.rx == []
      | .fault _ | .refused _ => false) = true := by decide

/-- R258, C4: a transmit slot between two moves of a dispatch takes the first slot off the ring, and the inference sink is served
before the second; then the buffer may be freed. -/
theorem test_slot_inside_dispatch :
    (match moves (siteT ⟨true, false, false⟩)
        [.router {}, .slot [.transmit] ⟨0, 0⟩, .router { sink := .inference }, .router {}]
        (loop {} warm1 (.dispatches ⟨chans 1, chans 1, chans 1⟩ [⟨1, 2⟩, ⟨3, 4⟩] [.inference])) with
      | .next a => a.router == .dispatches ⟨chans 1, chans 1, chans 1⟩ [] [] && a.whole.device.driver.tx == [⟨3, 4⟩]
      | .fault _ | .refused _ => false) = true ∧
    move (siteT ⟨true, false, false⟩) (.router {}) (loop {} warm1 (.dispatches ⟨chans 1, chans 1, chans 1⟩ [] [])) =
      .next ⟨.freed .mayBeFreed, loop {} warm1 .readsMic⟩ := ⟨by decide, rfl⟩

/-- R251: a fed slot at phase 0 (U1: the sample through filter phase 2's first coefficient, here with an empty history). -/
theorem test_busSlot :
    (match busSlot full [.transmit] 4 ⟨1, 2⟩ ⟨[⟨0x1000, 0xFFFFF000⟩, ⟨3, 4⟩], []⟩ (warm []) with
      | .next d => d.out == some ⟨0x800, 0xFFFFF800⟩ && d.rings == ⟨[⟨3, 4⟩], []⟩
      | .fault _ | .refused _ => false) = true := by decide

end Sys2Proof.Tests
end

section
/-! The outcome of a command (00_scope.md R10, 60_exceptions.md R289): what `fate` asks, question by question, and what `exec`
does in each case. -/

namespace Sys2Proof.Machine

/-! ### The awaited edge (R203) -/

/-- Without an edge as the environment's next move, the wait is a hold. -/
theorem awaitEdge_of_not_edgeNext (F : LoopFilter) {s : State} (h : edgeNext s = false) :
    awaitEdge F s = setHold true s := by
  obtain ⟨r, f, rest, he, -⟩ | ⟨-, hold⟩ := awaitEdge_cases F s
  · simp [edgeNext, he] at h
  · exact hold

/-- With the edge there, the wait is over and the cycle writes the controller alone. -/
theorem awaitEdge_of_edgeNext (F : LoopFilter) {s : State} (h : edgeNext s = true) :
    ∃ l rest, awaitEdge F s = setPll l (setHold false (setTape rest s)) := by
  unfold edgeNext at h
  split at h
  · rename_i he
    exact ⟨_, _, awaitEdge_edge F he⟩
  · cases h

/-! ### What `fate` answers -/

/-- The questions of R289 in their order, each with the answer it leads to. -/
theorem fate_cases (i : Instr) (s : State) :
    (s.halted = true ∧ fate i s = .ignored) ∨
    (s.halted = false ∧ outOfSequence i s = true ∧ fate i s = .fatal causeBadSequence) ∨
    (s.halted = false ∧ ∃ k, operandFault i s = some k ∧ fate i s = .fatal k) ∨
    (s.halted = false ∧ outOfSequence i s = false ∧ i = .pllStep ∧ edgeNext s = false ∧ fate i s = .held) ∨
    (s.halted = false ∧ outOfSequence i s = false ∧ operandFault i s = none ∧ (i = .pllStep → edgeNext s = true) ∧
      fate i s = .completes) := by
  cases hl : s.halted with
  | true => exact .inl ⟨rfl, by simp [fate, hl]⟩
  | false =>
    cases hq : outOfSequence i s with
    | true => exact .inr (.inl ⟨rfl, rfl, by simp [fate, hl, hq]⟩)
    | false =>
      cases hf : operandFault i s with
      | some k => exact .inr (.inr (.inl ⟨rfl, k, rfl, by simp [fate, hl, hq, hf]⟩))
      | none =>
        by_cases hw : i = .pllStep ∧ edgeNext s = false
        · exact .inr (.inr (.inr (.inl ⟨rfl, rfl, hw.1, hw.2, by simp only [fate, hl, hq, hf, if_pos hw]; rfl⟩)))
        · exact .inr (.inr (.inr (.inr ⟨rfl, rfl, rfl, by simpa using hw, by simp [fate, hl, hq, hf, hw]⟩)))

/-! ### What `exec` does, outcome by outcome -/

/-- A command whose sequence precondition fails is fatal with cause 6 (R136, R151, R171, R198, R201). -/
theorem exec_outOfSequence {i : Instr} {s : State} (hl : s.halted = false) (h : outOfSequence i s = true) :
    exec i s = .next (raiseFatal causeBadSequence s) := by
  cases i with
  | srcInit => rw [exec_srcInit hl, if_pos (by simpa [outOfSequence] using h)]
  | srcUp a => exact exec_srcUp_early a hl (by simpa [outOfSequence] using h)
  | srcDown a => exact exec_srcDown_early a hl (by simpa [outOfSequence] using h)
  | pllInit => rw [exec_pllInit hl, if_pos (by simpa [outOfSequence] using h)]
  | pllStep => rw [exec_pllStep hl, if_pos (by simpa [outOfSequence] using h)]
  | xferChk | xtChk | halt => cases h

/-- The checks and `HALT` in a running state: the fatal assertion their operands call for, or nothing (R231, R234, R237). -/
theorem exec_xferChk (ch len : Nat) {s : State} (hl : s.halted = false) :
    exec (.xferChk ch len) s = .next ((operandFault (.xferChk ch len) s).elim s (raiseFatal · s)) := by
  simp only [exec, execXferChk, operandFault, hl, Bool.false_eq_true, if_false]
  split_ifs <;> rfl

theorem exec_xtChk (bytes : Nat) {s : State} (hl : s.halted = false) :
    exec (.xtChk bytes) s = .next ((operandFault (.xtChk bytes) s).elim s (raiseFatal · s)) := by
  simp only [exec, execXtChk, operandFault, hl, Bool.false_eq_true, if_false]
  split_ifs <;> rfl

theorem exec_halt (cause : Nat) {s : State} (hl : s.halted = false) :
    exec (.halt cause) s = .next ((operandFault (.halt cause) s).elim s (raiseFatal · s)) := by
  simp only [exec, execHalt, operandFault, hl, Bool.false_eq_true, if_false]
  split_ifs <;> rfl

/-- A command whose operand check fails is fatal with the cause of that check (R289, item 4). -/
theorem exec_operandFault {i : Instr} {s : State} {k : BitVec 4} (hl : s.halted = false)
    (h : operandFault i s = some k) : exec i s = .next (raiseFatal k s) := by
  cases i with
  | srcInit | srcUp | srcDown | pllInit | pllStep => cases h
  | xferChk => rw [exec_xferChk _ _ hl, h]; rfl
  | xtChk => rw [exec_xtChk _ hl, h]; rfl
  | halt => rw [exec_halt _ hl, h]; rfl

/-- `PLL.STEP` in sequence waits for its edge (R201, R202). -/
theorem exec_pllStep_inSequence {s : State} (hl : s.halted = false) (h : outOfSequence .pllStep s = false) :
    exec .pllStep s = .next (awaitEdge piFilter s) := by
  rw [exec_pllStep hl, if_neg (by simpa [outOfSequence] using h)]

/-- A command in sequence whose operands pass, and whose edge is there if it is `PLL.STEP`, completes: it leaves a state that
is neither halted nor held, and the cause as it was. -/
theorem exec_completes {i : Instr} {s : State} (hh : s.hold = false) (hl : s.halted = false)
    (hq : outOfSequence i s = false) (hf : operandFault i s = none) (he : i = .pllStep → edgeNext s = true) :
    ∃ t, exec i s = .next t ∧ t.halted = false ∧ t.cause = s.cause ∧ t.hold = false := by
  cases i with
  | srcInit => exact ⟨srcInitBody s, by rw [exec_srcInit hl, if_neg (by simpa [outOfSequence] using hq)], hl, rfl, hh⟩
  | srcUp a => exact ⟨_, exec_srcUp a hl (by simpa [outOfSequence] using hq), hl, rfl, hh⟩
  | srcDown a => exact ⟨_, exec_srcDown a hl (by simpa [outOfSequence] using hq), hl, rfl, hh⟩
  | pllInit =>
    have hx : exec .pllInit s = .next (setPll (pllInitial s.par s.pll) s) := by
      rw [exec_pllInit hl, if_neg (by simpa [outOfSequence] using hq)]
    exact ⟨_, hx, hl, rfl, hh⟩
  | pllStep =>
    obtain ⟨l, rest, ha⟩ := awaitEdge_of_edgeNext piFilter (he rfl)
    exact ⟨_, (exec_pllStep_inSequence hl hq).trans (congrArg _ ha), hl, rfl, rfl⟩
  | xferChk => exact ⟨s, by rw [exec_xferChk _ _ hl, hf]; rfl, hl, rfl, hh⟩
  | xtChk => exact ⟨s, by rw [exec_xtChk _ hl, hf]; rfl, hl, rfl, hh⟩
  | halt => cases hf

/-- The cause of an operand check is never 0 for operands in their ranges: `HALT 0` raises cause 5 (R237). -/
theorem operandFault_ne_zero {i : Instr} {s : State} {k : BitVec 4} (hw : i.WellFormed)
    (h : operandFault i s = some k) : k ≠ 0 := by
  cases i with
  | srcInit | srcUp | srcDown | pllInit | pllStep => cases h
  | xferChk ch len =>
    simp only [operandFault] at h
    split_ifs at h <;> cases h <;> decide
  | xtChk bytes =>
    simp only [operandFault] at h
    split_ifs at h
    cases h; decide
  | halt cause =>
    simp only [operandFault, Option.some.injEq] at h
    subst h
    split_ifs with h0
    · decide
    · simp only [Instr.WellFormed, Instr.wellFormed, decide_eq_true_eq] at hw
      have hlt : cause < 16 := by omega
      simpa [← BitVec.toNat_inj, Nat.mod_eq_of_lt hlt] using h0

/-- Settles O11: the questions of R289 split the commands, and `exec` answers each case as `fate` says. -/
theorem oneOutcomePerCommand : Obligations.OneOutcomePerCommand := by
  intro i s hw hh
  obtain ⟨hl, fate_eq⟩ | ⟨hl, hq, fate_eq⟩ | ⟨hl, k, hf, fate_eq⟩ | ⟨hl, hq, rfl, he, fate_eq⟩ |
    ⟨hl, hq, hf, he, fate_eq⟩ := fate_cases i s <;> rw [fate_eq]
  · exact exec_halted i hl
  · exact ⟨by decide, exec_outOfSequence hl hq⟩
  · exact ⟨operandFault_ne_zero hw hf, exec_operandFault hl hf⟩
  · exact (exec_pllStep_inSequence hl hq).trans (congrArg _ (awaitEdge_of_not_edgeNext piFilter he))
  · exact exec_completes hh hl hq hf he

end Sys2Proof.Machine
end

section
/-! The parameter record through a step (00_scope.md R6, 20_memory.md R84): nothing the block or its environment does writes
it. -/

namespace Sys2Proof.Machine

@[simp] theorem hardReset_cfg (d : ResetDraw) (s : State) : (hardReset d s).cfg = s.cfg := rfl

@[simp] theorem awaitEdge_cfg (F : LoopFilter) (s : State) : (awaitEdge F s).cfg = s.cfg := by
  obtain ⟨r, f, rest, -, h⟩ | ⟨-, h⟩ := awaitEdge_cases F s <;> rw [h] <;> rfl

theorem exec_cfg {i : Instr} {s t : State} (h : exec i s = .next t) : t.cfg = s.cfg := by
  obtain ⟨-, rfl⟩ | ⟨-, k, -, rfl⟩ | ⟨-, effect⟩ := exec_cases h
  · rfl
  · rfl
  · obtain ⟨-, -, rfl⟩ | ⟨a, -, -, rfl⟩ | ⟨a, -, -, rfl⟩ | ⟨-, -, -, rfl⟩ | ⟨-, -, -, rfl⟩ | ⟨-, rfl⟩ | ⟨-, rfl⟩ :=
      effect
    · rfl
    · rfl
    · rfl
    · rfl
    · exact awaitEdge_cfg piFilter s
    · rfl
    · rfl

theorem issue_cfg {w : Word} {s t : State} (h : issue w s = .next t) : t.cfg = s.cfg := by
  obtain ⟨-, rfl⟩ | ⟨-, rfl⟩ | ⟨-, i, -, hx⟩ := issue_cases h
  · rfl
  · rfl
  · exact exec_cfg hx

theorem handle_cfg {e : Event} {s t : State} (h : handle e s = .next t) : t.cfg = s.cfg := by
  obtain rfl | ⟨v, rfl⟩ | ⟨v, rfl⟩ | ⟨c, v, rfl⟩ | ⟨c, v, rfl⟩ | ⟨w, hw⟩ | ⟨d, -, rfl⟩ := handle_cases h
  · rfl
  · rfl
  · rfl
  · exact setUpin_cfg c v s
  · exact setDnin_cfg c v s
  · exact issue_cfg hw
  · rfl

/-- Settles O44: a step is idle, one event, or the wait of a held `PLL.STEP`, and each keeps the record. -/
theorem parametersNeverChange : Obligations.ParametersNeverChange := by
  intro s t h
  obtain ⟨-, -, rfl⟩ | ⟨-, e, rest, -, hx⟩ | ⟨-, rfl⟩ | ⟨-, e, rest, -, -, hx⟩ := step_cases h
  · rfl
  · exact (handle_cfg hx).trans (setTape_cfg rest s)
  · exact awaitEdge_cfg piFilter s
  · exact (handle_cfg hx).trans (setTape_cfg rest s)

end Sys2Proof.Machine
end

section
/-! The invariant of the reachable states (10_state.md R21 to R46): every update that is not a command's keeps it, every
command keeps it, every step keeps it, and hardware reset brings it about. -/

namespace Sys2Proof.Machine

/-! ### The decoder's commands are well formed (R103, R111) -/

theorem field_lt (w : Word) (hi lo : Nat) : field w hi lo < 2 ^ (hi + 1 - lo) := Nat.mod_lt _ (by positivity)

/-- A field is as wide as its operand's range, so what a word decodes to has its operands in range. -/
theorem wellFormed_of_decode {w : Word} {i : Instr} (h : decode w = .ok i) : i.WellFormed := by
  have flag := field_lt w 0 0
  have ch := field_lt w 19 16
  have len := field_lt w 15 0
  have bytes := field_lt w 23 0
  have cause := field_lt w 3 0
  obtain ⟨-, -, rfl⟩ | ⟨-, -, rfl⟩ | ⟨-, -, rfl⟩ | ⟨-, -, rfl⟩ | ⟨-, -, rfl⟩ | ⟨-, -, rfl⟩ | ⟨-, -, rfl⟩ |
    ⟨-, -, rfl⟩ := decode_ok_cases h <;> simp only [Instr.WellFormed, Instr.wellFormed, decide_eq_true_eq] <;> omega

/-! ### The registers a control cycle leaves (R38 to R41) -/

theorem readCounter_range (c : Cfg) (w : Word) : (readCounter c.par w).toNat < 2 ^ c.par.cntW := by
  rw [readCounter_lt _ _ (cfg_cntW c).2]
  exact Nat.mod_lt _ (by positivity)

/-- The phase error fits the register `ERR` (R38): it is stored without truncation. -/
theorem controlCycle_err (F : LoopFilter) (c : Cfg) (r f : Word) (l : Pll) :
    (controlCycle F c.par r f l).err.toInt = phaseError c.par l.refAcc l.fbAcc r f := by
  have bounds := phaseError_bounds c.par (cfg_ratioDen c) l.refAcc l.fbAcc r f
  have top := errMax_lt c.par c.legal.2
  have pow : (2 : Int) ^ c.par.cntW ≤ 2 ^ 32 := pow_le_pow_right₀ (by norm_num) (cfg_cntW c).2
  exact toInt_ofInt_64 (by omega) (by omega)

/-- The clamped accumulator fits the register `INTEG` (R39). -/
theorem controlCycle_integ (c : Cfg) (r f : Word) (l : Pll) :
    (controlCycle piFilter c.par r f l).integ.toInt =
      integNext c.par l.integ.toInt (phaseError c.par l.refAcc l.fbAcc r f) := by
  have bounds := integNext_bounds c.par l.integ.toInt (phaseError c.par l.refAcc l.fbAcc r f)
  have max := cfg_integMax c
  exact toInt_ofInt_64 (v := integNext c.par _ _) (by omega) (by omega)

theorem selNext_toNat_lt (c : Cfg) (e i2 : Int) : (selNext c.par e i2).toNat < c.par.lutLen := by
  obtain ⟨nonneg, lt⟩ := selNext_bounds c.legal.1 e i2
  exact (Int.toNat_lt nonneg).2 lt

/-- The selector fits the register `SEL` (R40). -/
theorem controlCycle_sel (c : Cfg) (r f : Word) (l : Pll) :
    (controlCycle piFilter c.par r f l).sel.toNat =
      (selNext c.par (phaseError c.par l.refAcc l.fbAcc r f)
        (integNext c.par l.integ.toInt (phaseError c.par l.refAcc l.fbAcc r f))).toNat :=
  sel_toNat c.legal.1 (selNext_toNat_lt c _ _)

/-! ### The controller keeps its invariant -/

theorem pllInv_pllInitial {c : Cfg} (l : Pll) (en : c.par.pllEn = true) : PllInv c.par (pllInitial c.par l) := by
  have len := cfg_lutLen c
  have nom : c.par.selNom < c.par.lutLen := by unfold Params.selNom; omega
  have sel : (pllInitial c.par l).sel.toNat = c.par.selNom := sel_toNat c.legal.1 nom
  have top := errMax_lt c.par c.legal.2
  have pow := two_pow_cntW_pos c.par
  exact
    { snapshots := ⟨Nat.two_pow_pos _, Nat.two_pow_pos _⟩
      off := fun h => by cases h
      en := fun _ => en
      err := fun _ => ⟨show _ ≤ (0 : Int) by omega, top.1⟩
      integ := fun _ => ⟨show _ ≤ (0 : Int) by omega, Int.natCast_nonneg _⟩
      sel := fun _ => sel ▸ nom
      osc := fun _ => by rw [sel]; rfl
      lockCnt := fun _ => Nat.zero_le _
      lock := fun h => by cases h
      unprimed := fun _ _ => ⟨rfl, rfl, sel, rfl, rfl, rfl⟩ }

/-- The priming cycle keeps everything but the snapshots, which the counters bound (R208). -/
theorem pllInv_primingCycle {c : Cfg} {l : Pll} (r f : Word) (h : PllInv c.par l) (ready : l.ready = true) :
    PllInv c.par (primingCycle c.par (readCounter c.par r) (readCounter c.par f) l) where
  snapshots := ⟨readCounter_range c r, readCounter_range c f⟩
  off off := by cases ready.symm.trans off
  en := h.en
  err := h.err
  integ := h.integ
  sel := h.sel
  osc _ := rfl
  lockCnt := h.lockCnt
  lock := h.lock
  unprimed _ u := by cases u

/-- A control cycle brings every register into its range again; of the state before it needs the flags alone (R204 to
R207). -/
theorem pllInv_controlCycle {c : Cfg} {l : Pll} (r f : Word) (h : PllInv c.par l) (ready : l.ready = true)
    (primed : l.primed = true) :
    PllInv c.par (controlCycle piFilter c.par (readCounter c.par r) (readCounter c.par f) l) where
  snapshots := ⟨readCounter_range c r, readCounter_range c f⟩
  off off := by cases ready.symm.trans off
  en := h.en
  err _ := by
    rw [controlCycle_err]
    exact phaseError_bounds c.par (cfg_ratioDen c) _ _ _ _
  integ _ := by
    rw [controlCycle_integ]
    exact integNext_bounds _ _ _
  sel _ := by
    rw [controlCycle_sel]
    exact selNext_toNat_lt c _ _
  osc _ := by
    rw [controlCycle_sel]
    rfl
  lockCnt _ := by
    rw [controlCycle_lockCnt]
    split <;> omega
  lock hl := by
    obtain ⟨inw, count⟩ := (controlCycle_lock _ c _ _ l).1 hl
    rw [controlCycle_lockCnt, if_pos inw]
    omega
  unprimed _ u := by cases primed.symm.trans u

@[simp] theorem pllCycle_ready (F : LoopFilter) (p : Params) (r f : Word) (l : Pll) :
    (pllCycle F p r f l).ready = l.ready := by
  unfold pllCycle
  split <;> rfl

theorem pllInv_pllCycle {c : Cfg} {l : Pll} (r f : Word) (h : PllInv c.par l) (ready : l.ready = true) :
    PllInv c.par (pllCycle piFilter c.par r f l) := by
  unfold pllCycle
  split
  · exact pllInv_controlCycle r f h ready ‹_›
  · exact pllInv_primingCycle r f h ready

/-! ### Updates that keep the invariant -/

theorem inv_setTape {s : State} (rest : List Event) (h : s.Inv) : (setTape rest s).Inv := { h with }
theorem inv_setHotReply {s : State} (v : Word) (h : s.Inv) : (setHotReply v s).Inv := { h with }
theorem inv_setTaskReply {s : State} (v : Word) (h : s.Inv) : (setTaskReply v s).Inv := { h with }

theorem inv_setUpin {s : State} (c : Chan) (v : Word) (h : s.Inv) : (setUpin c v s).Inv := by
  cases c <;> exact { h with upRings := Chan.rec (h.upRings .c0) (h.upRings .c1) }

theorem inv_setDnin {s : State} (c : Chan) (v : Word) (h : s.Inv) : (setDnin c v s).Inv := by
  cases c <;> exact { h with downRings := Chan.rec (h.downRings .c0) (h.downRings .c1) }

/-- The hold flag may be set in a running state with the unit ready, and cleared in any. -/
theorem inv_setHold {s : State} (b : Bool) (h : s.Inv) (hold : b = true → s.halted = false ∧ s.pll.ready = true) :
    (setHold b s).Inv := { h with holds := hold }

/-- A fatal assertion with a cause, where no command is held (R46, R284). -/
theorem inv_raiseFatal {s : State} {k : BitVec 4} (h : s.Inv) (hk : k ≠ 0) (free : s.hold = false) :
    (raiseFatal k s).Inv :=
  { h with
    causes := iff_of_true rfl hk
    holds := fun held => by cases free.symm.trans held }

theorem inv_setPll {s : State} {l : Pll} (h : s.Inv) (hl : PllInv s.par l) (ready : s.pll.ready = true → l.ready = true) :
    (setPll l s).Inv :=
  { h with
    pll := hl
    holds := fun held => (h.holds held).imp_right ready }

theorem inv_setUp {s : State} {up : Lanes UpLane} {n : Word} (h : s.Inv) (rings : ∀ c, (up.get c).uh.length = s.par.t)
    (phases : s.srcReady = true → up.ch0.uph = up.ch1.uph ∧ up.ch0.uph.toNat < 3) (count : n.toNat ≤ 1) :
    (setUp up n s).Inv :=
  { h with upRings := rings, upPhases := phases, counts := ⟨count, h.counts.2⟩ }

theorem inv_setDown {s : State} {down : Lanes DownLane} {n : Word} (h : s.Inv)
    (rings : ∀ c, (down.get c).dh.p0.length = s.par.t ∧ (down.get c).dh.p1.length = s.par.t ∧
      (down.get c).dh.p2.length = s.par.t)
    (phases : s.srcReady = true → down.ch0.dph = down.ch1.dph ∧ down.ch0.dph.toNat < 3) (count : n.toNat ≤ 1) :
    (setDown down n s).Inv :=
  { h with downRings := rings, downPhases := phases, counts := ⟨h.counts.1, count⟩ }

/-- The engine may be marked ready once both directions' phases are equal and legal. -/
theorem inv_setSrcReady {s : State} (h : s.Inv) (up : s.up.ch0.uph = s.up.ch1.uph ∧ s.up.ch0.uph.toNat < 3)
    (down : s.down.ch0.dph = s.down.ch1.dph ∧ s.down.ch0.dph.toNat < 3) : (setSrcReady s).Inv :=
  { h with upPhases := fun _ => up, downPhases := fun _ => down }

/-! ### Commands that keep the invariant -/

theorem inv_srcInitBody {s : State} (h : s.Inv) : (srcInitBody s).Inv := by
  have phase : (0 : BitVec 2).toNat < 3 := by decide
  refine inv_setSrcReady (inv_setDown (inv_setUp h ?upRings ?upPhases ?upCount) ?downRings ?downPhases ?downCount)
    ⟨rfl, phase⟩ ⟨rfl, phase⟩
  case upRings => simp [upLaneInit]
  case downRings => simp [downLaneInit, State.par]
  case upPhases | downPhases => exact fun _ => ⟨rfl, phase⟩
  case upCount | downCount => decide

theorem countWord_le_one (b : Bool) : (countWord b).toNat ≤ 1 := by
  rw [countWord_toNat]
  exact b.toNat_le

theorem inv_srcUpBody {s : State} (a : Nat) (h : s.Inv) : (srcUpBody srcArith a s).Inv := by
  refine inv_setUp h (fun c => ?_) (fun ready => ?_) (countWord_le_one _)
  · rw [lanes_map_get]
    exact upLane_ring_length s.par a _ (cfg_t_pos s.cfg) (h.upRings c)
  · simp only [lanes_map_ch0, lanes_map_ch1, upLane_uph]
    exact ⟨congrArg nextPhase (h.upPhases ready).1, nextPhase_lt _⟩

theorem inv_srcDownBody {s : State} (a : Nat) (h : s.Inv) : (srcDownBody srcArith a s).Inv := by
  refine inv_setDown h (fun c => ?_) (fun ready => ?_) (countWord_le_one _)
  · rw [lanes_map_get]
    exact downLane_ring_lengths s.par a _ (cfg_t_pos s.cfg) (h.downRings c)
  · simp only [lanes_map_ch0, lanes_map_ch1, downLane_dph]
    exact ⟨congrArg nextPhase (h.downPhases ready).1, nextPhase_lt _⟩

/-- The wait of `PLL.STEP`, over or not, in a running state with the unit ready (R203). -/
theorem inv_awaitEdge {s : State} (h : s.Inv) (run : s.halted = false) (ready : s.pll.ready = true) :
    (awaitEdge piFilter s).Inv := by
  obtain ⟨r, f, rest, -, edge⟩ | ⟨-, wait⟩ := awaitEdge_cases piFilter s
  · rw [edge]
    have free : (setHold false (setTape rest s)).Inv := inv_setHold false (inv_setTape rest h) (by simp)
    exact inv_setPll free (pllInv_pllCycle r f h.pll ready) (by simp)
  · rw [wait]
    exact inv_setHold true h fun _ => ⟨run, ready⟩

theorem inv_exec {i : Instr} {s t : State} (h : s.Inv) (wf : i.WellFormed) (free : s.hold = false)
    (run : exec i s = .next t) : t.Inv := by
  obtain ⟨-, rfl⟩ | ⟨-, k, hk, rfl⟩ | ⟨hl, effect⟩ := exec_cases run
  · exact h
  · exact inv_raiseFatal h (hk wf) free
  · obtain ⟨-, -, rfl⟩ | ⟨a, -, -, rfl⟩ | ⟨a, -, -, rfl⟩ | ⟨-, en, -, rfl⟩ | ⟨-, -, ready, rfl⟩ | ⟨-, rfl⟩ | ⟨-, rfl⟩ :=
      effect
    · exact inv_srcInitBody h
    · exact inv_srcUpBody a h
    · exact inv_srcDownBody a h
    · exact inv_setPll h (pllInv_pllInitial s.pll en) fun _ => rfl
    · exact inv_awaitEdge h hl ready
    · exact h
    · exact h

theorem inv_issue {w : Word} {s t : State} (h : s.Inv) (free : s.hold = false) (run : issue w s = .next t) : t.Inv := by
  obtain ⟨-, rfl⟩ | ⟨-, rfl⟩ | ⟨-, i, legal, hx⟩ := issue_cases run
  · exact h
  · exact inv_raiseFatal h (by decide) free
  · exact inv_exec h (wellFormed_of_decode legal) free hx

/-! ### Hardware reset (R51, R320) -/

/-- Whatever is drawn: rings are cut to `T`, snapshots to `CNT_W` bits, and no unit is ready, so nothing is asked of the
other drawn registers. -/
theorem inv_powerOn (c : Cfg) (d : ResetDraw) (tape : List Event) : (State.powerOn c d tape).Inv where
  upRings x := by cases x <;> exact fitRing_length _ _
  downRings x := by cases x <;> exact ⟨fitRing_length _ _, fitRing_length _ _, fitRing_length _ _⟩
  upPhases ready := by cases ready
  downPhases ready := by cases ready
  counts := ⟨Nat.zero_le _, Nat.zero_le _⟩
  pll :=
    { snapshots := ⟨readCounter_range c d.pll.refAcc, readCounter_range c d.pll.fbAcc⟩
      off := fun _ => ⟨rfl, rfl, rfl⟩
      en := fun ready => by cases ready
      err := fun ready => by cases ready
      integ := fun ready => by cases ready
      sel := fun ready => by cases ready
      osc := fun ready => by cases ready
      lockCnt := fun ready => by cases ready
      lock := fun lock => by cases lock
      unprimed := fun ready => by cases ready }
  causes := by simp [State.powerOn]
  holds held := by cases held

/-! ### Events and steps -/

/-- An event where no command is held. -/
theorem inv_handle_free {e : Event} {s t : State} (h : s.Inv) (free : s.hold = false) (run : handle e s = .next t) :
    t.Inv := by
  obtain rfl | ⟨v, rfl⟩ | ⟨v, rfl⟩ | ⟨c, v, rfl⟩ | ⟨c, v, rfl⟩ | ⟨w, hw⟩ | ⟨d, -, rfl⟩ := handle_cases run
  · exact h
  · exact inv_setHotReply v h
  · exact inv_setTaskReply v h
  · exact inv_setUpin c v h
  · exact inv_setDnin c v h
  · exact inv_issue h free hw
  · exact inv_powerOn s.cfg d s.tape

/-- A move of another agent than `HOT`, which issues no command. -/
theorem inv_handle_env {e : Event} {s t : State} (h : s.Inv) (env : ∀ a, e ≠ .hot a) (run : handle e s = .next t) :
    t.Inv := by
  obtain rfl | ⟨v, rfl⟩ | ⟨d, -, rfl⟩ := handle_env run env
  · exact h
  · exact inv_setTaskReply v h
  · exact inv_powerOn s.cfg d s.tape

/-- Settles O41: idle, an event, the wait of a held `PLL.STEP`, or another agent's move during it; the invariant says of a
held state what the wait needs. -/
theorem everyStepKeepsTheInvariant : Obligations.EveryStepKeepsTheInvariant := by
  intro s t h run
  obtain ⟨-, -, rfl⟩ | ⟨free, e, rest, -, hx⟩ | ⟨held, rfl⟩ | ⟨-, e, rest, next, -, hx⟩ := step_cases run
  · exact h
  · exact inv_handle_free (inv_setTape rest h) free hx
  · obtain ⟨hl, ready⟩ := h.holds held
    exact inv_awaitEdge h hl ready
  · exact inv_handle_env (inv_setTape rest h) (fun a he => nextEnv_hot (he ▸ next)) hx

/-- Settles O42: `State.reset` is a hardware reset's state, with one draw among those `inv_powerOn` speaks of. -/
theorem resetMeetsTheInvariant : Obligations.ResetMeetsTheInvariant := inv_powerOn Cfg.actual {} []

/-- Settles O43: the fields by definition, the invariant for every draw, and the step that takes the event, held or not. -/
theorem hardResetClearsTheFlags : Obligations.HardResetClearsTheFlags := fun d s =>
  ⟨⟨rfl, rfl, rfl, rfl, rfl, rfl, rfl, rfl, rfl, rfl, rfl, rfl, inv_powerOn s.cfg d s.tape⟩,
    fun _ meets => step_meets meets (by simp)⟩

end Sys2Proof.Machine
end

section
/-! The ready flags (10_state.md R28, R45): set by their `INIT`, cleared by hardware reset alone. -/

namespace Sys2Proof.Machine

/-- No ready flag that is set in `s` is clear in `t`. -/
def ReadyKept (s t : State) : Prop := (s.srcReady = true → t.srcReady = true) ∧ (s.pll.ready = true → t.pll.ready = true)

/-- A state with the same flags keeps them. -/
theorem readyKept_of_eq {s t : State} (src : t.srcReady = s.srcReady) (pll : t.pll.ready = s.pll.ready) :
    ReadyKept s t := ⟨src.trans, pll.trans⟩

theorem readyKept_awaitEdge (F : LoopFilter) (s : State) : ReadyKept s (awaitEdge F s) := by
  obtain ⟨r, f, rest, -, h⟩ | ⟨-, h⟩ := awaitEdge_cases F s <;> rw [h]
  · exact readyKept_of_eq rfl (pllCycle_ready F s.par r f s.pll)
  · exact readyKept_of_eq rfl rfl

theorem readyKept_exec {i : Instr} {s t : State} (h : exec i s = .next t) : ReadyKept s t := by
  obtain ⟨-, rfl⟩ | ⟨-, k, -, rfl⟩ | ⟨-, effect⟩ := exec_cases h
  · exact readyKept_of_eq rfl rfl
  · exact readyKept_of_eq rfl rfl
  · obtain ⟨-, -, rfl⟩ | ⟨a, -, -, rfl⟩ | ⟨a, -, -, rfl⟩ | ⟨-, -, -, rfl⟩ | ⟨-, -, -, rfl⟩ | ⟨-, rfl⟩ | ⟨-, rfl⟩ :=
      effect
    · exact ⟨fun _ => rfl, id⟩
    · exact readyKept_of_eq rfl rfl
    · exact readyKept_of_eq rfl rfl
    · exact ⟨id, fun _ => rfl⟩
    · exact readyKept_awaitEdge piFilter s
    · exact readyKept_of_eq rfl rfl
    · exact readyKept_of_eq rfl rfl

theorem readyKept_issue {w : Word} {s t : State} (h : issue w s = .next t) : ReadyKept s t := by
  obtain ⟨-, rfl⟩ | ⟨-, rfl⟩ | ⟨-, i, -, hx⟩ := issue_cases h
  · exact readyKept_of_eq rfl rfl
  · exact readyKept_of_eq rfl rfl
  · exact readyKept_exec hx

theorem readyKept_handle {e : Event} {s t : State} (h : handle e s = .next t) :
    ReadyKept s t ∨ ∃ d, e = .hwReset d ∧ t = hardReset d s := by
  obtain rfl | ⟨v, rfl⟩ | ⟨v, rfl⟩ | ⟨c, v, rfl⟩ | ⟨c, v, rfl⟩ | ⟨w, hw⟩ | ⟨d, he, ht⟩ := handle_cases h
  · exact .inl (readyKept_of_eq rfl rfl)
  · exact .inl (readyKept_of_eq rfl rfl)
  · exact .inl (readyKept_of_eq rfl rfl)
  · exact .inl (readyKept_of_eq (by simp) (by simp))
  · exact .inl (readyKept_of_eq (by simp) (by simp))
  · exact .inl (readyKept_issue hw)
  · exact .inr ⟨d, he, ht⟩

/-- Settles O46: only a hardware reset among the events clears a flag, and it is the environment's next move. -/
theorem readyFlagsAreNeverCleared : Obligations.ReadyFlagsAreNeverCleared := by
  intro s t run
  obtain ⟨-, -, rfl⟩ | ⟨-, e, rest, tape, hx⟩ | ⟨-, rfl⟩ | ⟨-, e, rest, next, -, hx⟩ := step_cases run
  · exact .inl ⟨id, id⟩
  · refine (readyKept_handle hx).imp_right ?_
    rintro ⟨d, rfl, reset⟩
    exact ⟨d, rest, by rw [tape]; rfl, reset⟩
  · exact .inl (readyKept_awaitEdge piFilter s)
  · refine (readyKept_handle hx).imp_right ?_
    rintro ⟨d, rfl, reset⟩
    exact ⟨d, rest, next, reset⟩

end Sys2Proof.Machine
end

section
/-! What `HOT` sees at the window: a command word issued, the registers, the fields of `STATUS` (10_state.md R47 to R49,
20_memory.md R71, R74). -/

namespace Sys2Proof.Machine

/-! ### Issue of a command -/

/-- Settles O7: the event is handled as the issue of its word, which is legal. -/
theorem stepRunsTheCommand : Obligations.StepRunsTheCommand := by
  intro s w i rest free run tape legal
  rw [step_event free tape, handle_wrCmd, issue_legal (s := setTape rest s) run legal]
  rfl

/-! ### Reads -/

@[simp] theorem regRead_setTape (rest : List Event) (s : State) (r : Reg) : regRead (setTape rest s) r = regRead s r := by
  cases r <;> rfl

/-- A read by `HOT` of a register answers it (R71). -/
theorem step_rd {s : State} {r : Reg} {rest : List Event} (free : s.hold = false) (tape : s.tape = rd r :: rest) :
    step s = .next { s with tape := rest, hotReply := some (regRead s r) } := by
  rw [step_event free tape, rd, handle_hot_reg, hotAccess, windowRead, regAt_offset]
  simp only [regRead_setTape]
  rfl

/-- The offsets from 0x40 on are reserved (R71). -/
theorem regAt_reserved {k : Nat} (h : 16 ≤ k) : regAt (4 * k) = none := by
  obtain ⟨n, rfl⟩ := Nat.exists_eq_add_of_le' h
  rw [regAt, Nat.mul_div_cancel_left _ (by decide)]
  rfl

/-- A read by `HOT` at a reserved offset answers 0 (R74). -/
theorem step_rd_reserved {s : State} {k : Nat} {rest : List Event} (free : s.hold = false) (low : 16 ≤ k) (high : k < 64)
    (tape : s.tape = .hot ⟨4 * k, 4, .read⟩ :: rest) :
    step s = .next { s with tape := rest, hotReply := some 0 } := by
  rw [step_event free tape, handle, busAccess_legal _ _ (aligned_access_legal high .read)]
  show hotAccess (4 * k) .read _ = _
  rw [hotAccess, windowRead, regAt_reserved low]
  rfl

theorem lockWord_eq_ite (b : Bool) : lockWord b = if b then 1 else 0 := by cases b <;> rfl

/-- Settles O49: `step_rd` at each register, `step_rd_reserved` at the reserved offsets. -/
theorem hotReadReturnsTheRegister : Obligations.HotReadReturnsTheRegister := by
  intro s rest free
  have lock : regRead s .lockstat = if s.pll.lock then 1 else 0 := lockWord_eq_ite s.pll.lock
  have sel : regRead s .pllSel = BitVec.ofNat 32 s.pll.sel.toNat := (BitVec.ofNat_toNat 32 s.pll.sel).symm
  exact ⟨step_rd free, step_rd free, step_rd free, step_rd free, ⟨step_rd free, step_rd free⟩,
    ⟨step_rd free, step_rd free⟩, ⟨step_rd free, step_rd free⟩, ⟨step_rd free, step_rd free⟩,
    fun tape => lock ▸ step_rd free tape, fun tape => sel ▸ step_rd free tape, step_rd free, step_rd free,
    fun _ => step_rd_reserved free⟩

/-! ### STATUS -/

/-- Settles O50: each field is below the place of the next, so division and remainder give it back. -/
theorem statusFields : Obligations.StatusFields := by
  intro s
  have srcReady := s.srcReady.toNat_lt
  have pllReady := s.pll.ready.toNat_lt
  have primed := s.pll.primed.toNat_lt
  have pllEn := s.par.pllEn.toNat_lt
  have halted := s.halted.toNat_lt
  have cause := s.cause.isLt
  have uph0 := s.up.ch0.uph.isLt
  have uph1 := s.up.ch1.uph.isLt
  have dph0 := s.down.ch0.dph.isLt
  have dph1 := s.down.ch1.dph.isLt
  simp only [field, statusWord, BitVec.toNat_ofNat]
  refine ⟨?_, ?_, ?_, ?_, ?_, ?_, ?_, ?_, ?_, ?_, ?_, ?_, ?_⟩ <;> omega

end Sys2Proof.Machine
end

section
/-! The phase counters of the two directions (10_state.md R24 to R26). -/

namespace Sys2Proof.Machine

/-- Settles O16: each lane advances its own counter (`upLane_uph`, `downLane_dph`) and no lane of the other direction is
written. -/
theorem phaseAdvancesRegardless : Obligations.PhaseAdvancesRegardless := by
  intro s t a run ready
  constructor
  · rw [exec_srcUp a run ready]
    rintro ⟨⟩ c
    simp [srcUpBody]
  · rw [exec_srcDown a run ready]
    rintro ⟨⟩ c
    simp [srcDownBody]

end Sys2Proof.Machine
end

section
/-! The frames of the commands (20_memory.md R86): what each command leaves unchanged, and that the steady-state commands of
the two directions and the controller commute. -/

namespace Sys2Proof.Machine

/-- What a command `i` that led from `s` to `t` may have written, by kind of state: the units by their own commands, the
operands, the replies and the parameters by none, and a fatal assertion nothing but itself. -/
structure CommandFrame (i : Instr) (s t : State) : Prop where
  cfg : t.cfg = s.cfg
  hotReply : t.hotReply = s.hotReply
  taskReply : t.taskReply = s.taskReply
  operands : ∀ c, (t.up.get c).upin = (s.up.get c).upin ∧ (t.down.get c).dnin = (s.down.get c).dnin
  srcReady : i ≠ .srcInit → t.srcReady = s.srcReady
  up : i ≠ .srcInit → (∀ a, i ≠ .srcUp a) → t.up = s.up ∧ t.upcnt = s.upcnt
  down : i ≠ .srcInit → (∀ a, i ≠ .srcDown a) → t.down = s.down ∧ t.dncnt = s.dncnt
  pll : i ≠ .pllInit → i ≠ .pllStep → t.pll = s.pll
  wait : i ≠ .pllStep → t.tape = s.tape ∧ t.hold = s.hold
  fatal : t.halted = s.halted ∧ t.cause = s.cause ∨ t = { s with halted := true, cause := t.cause }

theorem commandFrame_refl (i : Instr) (s : State) : CommandFrame i s s where
  cfg := rfl
  hotReply := rfl
  taskReply := rfl
  operands _ := ⟨rfl, rfl⟩
  srcReady _ := rfl
  up _ _ := ⟨rfl, rfl⟩
  down _ _ := ⟨rfl, rfl⟩
  pll _ _ := rfl
  wait _ := ⟨rfl, rfl⟩
  fatal := .inl ⟨rfl, rfl⟩

theorem commandFrame_raiseFatal (i : Instr) (k : BitVec 4) (s : State) : CommandFrame i s (raiseFatal k s) :=
  { commandFrame_refl i s with fatal := .inr rfl }

theorem commandFrame_srcInitBody (s : State) : CommandFrame .srcInit s (srcInitBody s) :=
  { commandFrame_refl .srcInit s with
    operands := Chan.rec ⟨rfl, rfl⟩ ⟨rfl, rfl⟩
    srcReady := fun ne => absurd rfl ne
    up := fun ne => absurd rfl ne
    down := fun ne => absurd rfl ne
    fatal := .inl ⟨rfl, rfl⟩ }

theorem commandFrame_srcUpBody (A : SrcArith) (a : Nat) (s : State) : CommandFrame (.srcUp a) s (srcUpBody A a s) :=
  { commandFrame_refl (.srcUp a) s with
    operands := fun c => ⟨by simp [srcUpBody], rfl⟩
    up := fun _ ne => absurd rfl (ne a)
    fatal := .inl ⟨rfl, rfl⟩ }

theorem commandFrame_srcDownBody (A : SrcArith) (a : Nat) (s : State) :
    CommandFrame (.srcDown a) s (srcDownBody A a s) :=
  { commandFrame_refl (.srcDown a) s with
    operands := fun c => ⟨rfl, by simp [srcDownBody]⟩
    down := fun _ ne => absurd rfl (ne a)
    fatal := .inl ⟨rfl, rfl⟩ }

theorem commandFrame_setPll (l : Pll) (s : State) : CommandFrame .pllInit s (setPll l s) :=
  { commandFrame_refl .pllInit s with
    pll := fun ne => absurd rfl ne
    fatal := .inl ⟨rfl, rfl⟩ }

/-- All the wait of `PLL.STEP` can write: the controller, the hold flag and the tape (R203). -/
theorem awaitEdge_writes (F : LoopFilter) (s : State) :
    ∃ l held rest, awaitEdge F s = setPll l (setHold held (setTape rest s)) := by
  obtain ⟨r, f, rest, -, edge⟩ | ⟨-, wait⟩ := awaitEdge_cases F s
  · exact ⟨_, _, _, edge⟩
  · exact ⟨s.pll, true, s.tape, wait⟩

theorem commandFrame_awaitEdge (F : LoopFilter) (s : State) : CommandFrame .pllStep s (awaitEdge F s) := by
  obtain ⟨l, held, rest, h⟩ := awaitEdge_writes F s
  rw [h]
  exact { commandFrame_refl .pllStep s with
    pll := fun _ ne => absurd rfl ne
    wait := fun ne => absurd rfl ne
    fatal := .inl ⟨rfl, rfl⟩ }

/-- Settles O47: the frame of each effect `exec_cases` lists. -/
theorem commandFrames : Obligations.CommandFrames := by
  intro i s t h
  have frame : CommandFrame i s t := by
    obtain ⟨-, rfl⟩ | ⟨-, k, -, rfl⟩ | ⟨-, effect⟩ := exec_cases h
    · exact commandFrame_refl i t
    · exact commandFrame_raiseFatal i k s
    · obtain ⟨rfl, -, rfl⟩ | ⟨a, rfl, -, rfl⟩ | ⟨a, rfl, -, rfl⟩ | ⟨rfl, -, -, rfl⟩ | ⟨rfl, -, -, rfl⟩ | ⟨-, rfl⟩ |
        ⟨-, rfl⟩ := effect
      · exact commandFrame_srcInitBody s
      · exact commandFrame_srcUpBody srcArith a s
      · exact commandFrame_srcDownBody srcArith a s
      · exact commandFrame_setPll _ s
      · exact commandFrame_awaitEdge piFilter s
      · exact commandFrame_refl i t
      · exact commandFrame_refl i t
  exact ⟨frame.cfg, frame.hotReply, frame.taskReply, frame.operands, frame.srcReady, frame.up, frame.down, frame.pll,
    frame.wait, frame.fatal⟩

/-! ### Commuting commands -/

/-- `i` and `j` answer the same state in either order. -/
def CommandsCommute (s : State) (i j : Instr) : Prop :=
  ∃ t u v, exec i s = .next t ∧ exec j t = .next v ∧ exec j s = .next u ∧ exec i u = .next v

theorem CommandsCommute.symm {s : State} {i j : Instr} : CommandsCommute s i j → CommandsCommute s j i :=
  fun ⟨t, u, v, first, second, first', second'⟩ => ⟨u, t, v, first', second', first, second⟩

/-- The two directions read and write nothing of each other's. -/
theorem commute_srcUp_srcDown {s : State} (a b : Nat) (run : s.halted = false) (ready : s.srcReady = true) :
    CommandsCommute s (.srcUp a) (.srcDown b) :=
  ⟨_, _, _, exec_srcUp a run ready, exec_srcDown b run ready, exec_srcDown b run ready, exec_srcUp a run ready⟩

/-- The wait reads nothing of either direction. -/
theorem awaitEdge_setUp (F : LoopFilter) (up : Lanes UpLane) (n : Word) (s : State) :
    awaitEdge F (setUp up n s) = setUp up n (awaitEdge F s) := by
  unfold awaitEdge
  rw [setUp_tape]
  split <;> rfl

theorem awaitEdge_setDown (F : LoopFilter) (down : Lanes DownLane) (n : Word) (s : State) :
    awaitEdge F (setDown down n s) = setDown down n (awaitEdge F s) := by
  unfold awaitEdge
  rw [setDown_tape]
  split <;> rfl

/-- Neither direction reads what the wait writes. -/
theorem srcUpBody_awaitEdge (A : SrcArith) (F : LoopFilter) (a : Nat) (s : State) :
    srcUpBody A a (awaitEdge F s) = awaitEdge F (srcUpBody A a s) := by
  rw [srcUpBody, srcUpBody, awaitEdge_setUp]
  obtain ⟨l, held, rest, h⟩ := awaitEdge_writes F s
  rw [h]
  rfl

theorem srcDownBody_awaitEdge (A : SrcArith) (F : LoopFilter) (a : Nat) (s : State) :
    srcDownBody A a (awaitEdge F s) = awaitEdge F (srcDownBody A a s) := by
  rw [srcDownBody, srcDownBody, awaitEdge_setDown]
  obtain ⟨l, held, rest, h⟩ := awaitEdge_writes F s
  rw [h]
  rfl

@[simp] theorem awaitEdge_halted (F : LoopFilter) (s : State) : (awaitEdge F s).halted = s.halted := by
  obtain ⟨l, held, rest, h⟩ := awaitEdge_writes F s
  rw [h]
  rfl

@[simp] theorem awaitEdge_srcReady (F : LoopFilter) (s : State) : (awaitEdge F s).srcReady = s.srcReady := by
  obtain ⟨l, held, rest, h⟩ := awaitEdge_writes F s
  rw [h]
  rfl

/-- `PLL.STEP` with the unit ready waits for its edge (R202). -/
theorem exec_pllStep_ready {s : State} (run : s.halted = false) (en : s.par.pllEn = true) (ready : s.pll.ready = true) :
    exec .pllStep s = .next (awaitEdge piFilter s) := exec_pllStep_inSequence run (by simp [outOfSequence, en, ready])

theorem commute_srcUp_pllStep {s : State} (a : Nat) (run : s.halted = false) (ready : s.srcReady = true)
    (en : s.par.pllEn = true) (pll : s.pll.ready = true) : CommandsCommute s (.srcUp a) .pllStep := by
  refine ⟨_, _, _, exec_srcUp a run ready, exec_pllStep_ready run en pll, exec_pllStep_ready run en pll, ?_⟩
  rw [exec_srcUp a (by simpa using run) (by simpa using ready), srcUpBody_awaitEdge]

theorem commute_srcDown_pllStep {s : State} (b : Nat) (run : s.halted = false) (ready : s.srcReady = true)
    (en : s.par.pllEn = true) (pll : s.pll.ready = true) : CommandsCommute s (.srcDown b) .pllStep := by
  refine ⟨_, _, _, exec_srcDown b run ready, exec_pllStep_ready run en pll, exec_pllStep_ready run en pll, ?_⟩
  rw [exec_srcDown b (by simpa using run) (by simpa using ready), srcDownBody_awaitEdge]

/-- Settles O48: the three pairs, each in both orders. -/
theorem steadyCommandsCommute : Obligations.SteadyCommandsCommute := by
  intro s i j a b run ready en pll hi hj ne
  have upDown := commute_srcUp_srcDown a b run ready
  have upStep := commute_srcUp_pllStep a run ready en pll
  have downStep := commute_srcDown_pllStep b run ready en pll
  simp only [List.mem_cons, List.not_mem_nil, or_false] at hi hj
  obtain rfl | rfl | rfl := hi <;> obtain rfl | rfl | rfl := hj
  · exact absurd rfl ne
  · exact upDown
  · exact upStep
  · exact upDown.symm
  · exact absurd rfl ne
  · exact downStep
  · exact upStep.symm
  · exact downStep.symm
  · exact absurd rfl ne

end Sys2Proof.Machine
end

section
/-! Accesses at the register window (20_memory.md R72 to R81): writes by `HOT`, the accesses of `TASK`, the accesses that are
refused, and the moves of other agents while a `PLL.STEP` is held (R203). -/

namespace Sys2Proof.Machine

/-! ### Writes by `HOT` -/

/-- A write by `HOT` to a register that is not `CMD` (R75). -/
theorem step_wr {s : State} {r : Reg} {v : Word} {rest : List Event} (free : s.hold = false) (ne : r ≠ .cmd)
    (tape : s.tape = wr r v :: rest) : step s = .next (regWrite r v (setTape rest s)) := by
  rw [step_event free tape, handle_wr ne]

/-- Only the operand registers are written (R75). -/
theorem regWrite_ignored {r : Reg} (ne : ∀ c, r ≠ .upin c ∧ r ≠ .dnin c) (v : Word) (s : State) : regWrite r v s = s := by
  cases r with
  | upin c => exact absurd rfl (ne c).1
  | dnin c => exact absurd rfl (ne c).2
  | cmd | status | upcnt | dncnt | upout | dnout | lockstat | pllSel | oscDiv | oscFrac => rfl

/-- A write by `HOT` at a reserved offset is ignored (R75). -/
theorem step_wr_reserved {s : State} {k : Nat} {v : Word} {rest : List Event} (free : s.hold = false) (low : 16 ≤ k)
    (high : k < 64) (tape : s.tape = .hot ⟨4 * k, 4, .write v⟩ :: rest) : step s = .next (setTape rest s) := by
  rw [step_event free tape, handle, busAccess_legal _ _ (aligned_access_legal high (.write v))]
  show hotAccess (4 * k) (.write v) _ = _
  rw [hotAccess, if_neg (by omega), windowWrite, regAt_reserved low]

theorem setUpin_eq (c : Chan) (v : Word) (s : State) : setUpin c v s = { s with up := (setUpin c v s).up } := by
  cases c <;> rfl

theorem setDnin_eq (c : Chan) (v : Word) (s : State) : setDnin c v s = { s with down := (setDnin c v s).down } := by
  cases c <;> rfl

/-- Settles O51: `step_wr` at the operand registers and at the others, and what `setUpin` and `setDnin` are. -/
theorem hotWriteEffect : Obligations.HotWriteEffect := by
  intro s rest v
  refine ⟨fun free => ⟨?upin, ?dnin, ?others, ?reserved⟩,
    fun c => ⟨setUpin_eq c v s, fun c' => setUpin_get c c' v s⟩,
    fun c => ⟨setDnin_eq c v s, fun c' => setDnin_get c c' v s⟩⟩
  case upin | dnin => exact fun c tape => step_wr free (by simp) tape
  case others =>
    intro r cmd operand tape
    rw [step_wr free cmd tape, regWrite_ignored operand]
    rfl
  case reserved => exact fun k low high tape => step_wr_reserved free low high tape

/-! ### Accesses by `TASK` -/

/-- A read of `LOCKSTAT` by `TASK`, held or not, answers the candidate that was drawn (R80). -/
theorem step_trd_lockstat {s : State} {stale : Bool} {rest : List Event} (meets : s.Meets (trd .lockstat stale) rest) :
    step s = .next { s with
      tape := rest, taskReply := some (lockWord (if stale then s.pll.lockOld else s.pll.lock)) } := by
  rw [step_meets meets (by simp [trd]), trd, handle_task_reg, taskAccess, taskRead, if_pos rfl]
  rfl

/-- A write by `TASK` at any aligned offset is ignored (R81). -/
theorem step_task_write {s : State} {k : Nat} {v : Word} {stale : Bool} {rest : List Event} (high : k < 64)
    (meets : s.Meets (.task ⟨4 * k, 4, .write v⟩ stale) rest) : step s = .next (setTape rest s) := by
  rw [step_meets meets (by simp), handle, busAccess_legal _ _ (aligned_access_legal high (.write v))]
  rfl

/-- Settles O52: the read of `LOCKSTAT`, and the ignored write at every aligned offset. -/
theorem taskReadsLockWritesNothing : Obligations.TaskReadsLockWritesNothing := fun _ _ _ =>
  ⟨step_trd_lockstat, fun _ _ high => step_task_write high⟩

/-! ### Refused accesses -/

theorem issue_answers (w : Word) (s : State) : ∃ t, issue w s = .next t := by
  unfold issue
  split
  · exact ⟨_, rfl⟩
  · split
    · exact ⟨_, rfl⟩
    · exact exec_answers _ s

theorem hotAccess_answers (off : Nat) (op : BusOp) (s : State) : ∃ t, hotAccess off op s = .next t := by
  cases op with
  | read => exact ⟨_, rfl⟩
  | write v =>
    rw [hotAccess]
    split
    · exact issue_answers v s
    · exact ⟨_, rfl⟩

theorem taskAccess_answers (off : Nat) (op : BusOp) (stale : Bool) (s : State) :
    ∃ t, taskAccess off op stale s = .next t := by cases op <;> exact ⟨_, rfl⟩

/-- Where every access that is served is answered, the refused ones are those that touch the window and do not exist
(R72, R73). -/
theorem busAccess_refused_iff {a : Access} {s : State} {serve : Nat → BusOp → State → Host.Outcome State Fault Refusal}
    (answers : ∀ off op, ∃ t, serve off op s = .next t) (r : Refusal) :
    busAccess a s serve = .refused r ↔ r = .badAccess ∧ a.touches = true ∧ a.legal = false := by
  obtain ⟨t, served⟩ := answers a.off.toNat a.op
  unfold busAccess
  cases a.touches with
  | false => simp
  | true =>
    cases a.legal with
    | false => simp [eq_comm]
    | true => simp [served]

theorem handle_hot_refused_iff (a : Access) (s : State) (r : Refusal) :
    handle (.hot a) s = .refused r ↔ r = .badAccess ∧ a.touches = true ∧ a.legal = false :=
  busAccess_refused_iff (fun off op => hotAccess_answers off op s) r

theorem handle_task_refused_iff (a : Access) (stale : Bool) (s : State) (r : Refusal) :
    handle (.task a stale) s = .refused r ↔ r = .badAccess ∧ a.touches = true ∧ a.legal = false :=
  busAccess_refused_iff (fun off op => taskAccess_answers off op stale s) r

/-- An access that begins in the window touches it. -/
theorem touches_of_begins_inside {off : Int} (size : Nat) (op : BusOp) (high : off < 256) (low : 0 ≤ off) :
    Access.touches ⟨off, size, op⟩ = true := decide_eq_true ⟨high, .inl low⟩

/-- Another size, a misaligned offset, or a byte beyond the window's end (R72). -/
theorem not_legal {off : Int} {size : Nat} (op : BusOp) (bad : size ≠ 4 ∨ off % 4 ≠ 0 ∨ 252 < off) :
    Access.legal ⟨off, size, op⟩ = false := by
  simp only [Access.legal, decide_eq_false_iff_not]
  omega

/-- Settles O53: such an access touches the window and does not exist. -/
theorem badAccessIsRefused : Obligations.BadAccessIsRefused := by
  intro s rest off size op stale high low bad meets
  have touches := touches_of_begins_inside size op high low
  have illegal := not_legal op bad
  obtain hot | task := meets
  · rw [step_meets hot (by simp), handle_hot_refused_iff]
    exact ⟨rfl, touches, illegal⟩
  · rw [step_meets task (by simp), handle_task_refused_iff]
    exact ⟨rfl, touches, illegal⟩

/-! ### While a `PLL.STEP` is held -/

/-- With no move of another agent the wait goes on (R203, R334). -/
theorem step_held_idle {s : State} (held : s.hold = true) (next : nextEnv s.tape = none) :
    step s = .next (awaitEdge piFilter s) := by rw [step, if_pos held, stepHeld, next]

/-- The edge ends the wait (R203). -/
theorem step_held_edge {s : State} {r f : Word} {rest : List Event} (held : s.hold = true)
    (next : nextEnv s.tape = some (.refEdge r f, rest)) : step s = .next (awaitEdge piFilter s) := by
  rw [step, if_pos held, stepHeld, next]

theorem setHold_eq_self {s : State} {b : Bool} (h : s.hold = b) : setHold b s = s := by
  subst h
  rfl

/-- An access by `TASK` that is answered changes at most its reply (R80, R81). -/
theorem handle_task_frame {a : Access} {stale : Bool} {s t : State} (h : handle (.task a stale) s = .next t) :
    t = { s with taskReply := t.taskReply } := by
  obtain rfl | ⟨v, rfl⟩ | ⟨d, reset, -⟩ := handle_env h nofun
  · rfl
  · rfl
  · cases reset

/-- Settles O34: the moves the environment can make while the command is held, one by one. -/
theorem heldCommandWaitsForTheEdge : Obligations.HeldCommandWaitsForTheEdge := by
  intro s held
  refine ⟨fun next => ?hang, fun stale rest next => step_trd_lockstat (.inr ⟨held, next⟩),
    fun a stale rest next t run => ?task, fun r f rest next inv => ?edge⟩
  case hang =>
    have noEdge : edgeNext s = false := by rw [edgeNext, next]
    rw [step_held_idle held next, awaitEdge_of_not_edgeNext piFilter noEdge, setHold_eq_self held]
  case task =>
    rw [step_held_event held next nofun] at run
    exact handle_task_frame run
  case edge =>
    obtain ⟨running, ready⟩ := inv.holds held
    rw [step_held_edge held next, exec_pllStep_ready running (inv.pll.en ready) ready]

/-- A refused step is the refusal of the event it takes: idling and waiting are answered. -/
theorem handle_of_step_refused {s : State} {r : Refusal} (h : step s = .refused r) :
    ∃ e rest, s.Meets e rest ∧ handle e (setTape rest s) = .refused r := by
  cases hold : s.hold with
  | false =>
    cases tape : s.tape with
    | nil => cases (step_idle hold tape).symm.trans h
    | cons e rest => exact ⟨e, rest, .inl ⟨hold, tape⟩, (step_event hold tape).symm.trans h⟩
  | true =>
    cases next : nextEnv s.tape with
    | none => cases (step_held_idle hold next).symm.trans h
    | some move =>
      obtain ⟨e, rest⟩ := move
      by_cases edge : ∃ r f, e = .refEdge r f
      · obtain ⟨r, f, rfl⟩ := edge
        cases (step_held_edge hold next).symm.trans h
      · push Not at edge
        exact ⟨e, rest, .inr ⟨hold, next⟩, (step_held_event hold next edge).symm.trans h⟩

/-- Settles O45: of the events only an access can be refused. -/
theorem onlyBadAccessesAreRefused : Obligations.OnlyBadAccessesAreRefused := by
  intro s r h
  obtain ⟨e, rest, meets, refused⟩ := handle_of_step_refused h
  cases e with
  | hot a =>
    obtain ⟨reason, touches, illegal⟩ := (handle_hot_refused_iff a _ r).1 refused
    exact ⟨reason, a, rest, touches, illegal, .inl meets⟩
  | task a stale =>
    obtain ⟨reason, touches, illegal⟩ := (handle_task_refused_iff a stale _ r).1 refused
    exact ⟨reason, a, rest, touches, illegal, .inr ⟨stale, meets⟩⟩
  | refEdge | hwReset => cases refused

end Sys2Proof.Machine
end

section
/-! The driver's sample slots (45_environment.md R251, R252), each run without another agent's moves between its accesses
(log entry 17): the operands are loaded, the command runs, its outputs are read. -/

namespace Sys2Proof.Machine

/-! ### Accesses one after the other -/

@[simp] theorem regWrite_hold (r : Reg) (v : Word) (s : State) : (regWrite r v s).hold = s.hold := by
  cases r <;> simp [regWrite]

@[simp] theorem regWrite_halted (r : Reg) (v : Word) (s : State) : (regWrite r v s).halted = s.halted := by
  cases r <;> simp [regWrite]

/-- The issue of a legal command's word by `HOT` runs the command. -/
theorem perform_command {s : State} {i : Instr} (free : s.hold = false) (run : s.halted = false)
    (legal : decode (encode i) = .ok i) : perform [wrCmd (encode i)] s = exec i s := by
  obtain ⟨t, h⟩ := exec_answers i s
  rw [perform_cons free, handle_wrCmd, issue_legal run legal, h, andThen_next, perform_nil]

/-- The accesses of a slot: two operands are written, then the command runs. -/
theorem perform_operands_command {s : State} {i : Instr} {r r' : Reg} (v v' : Word) (free : s.hold = false)
    (run : s.halted = false) (ne : r ≠ .cmd) (ne' : r' ≠ .cmd) (legal : decode (encode i) = .ok i) :
    perform [wr r v, wr r' v', wrCmd (encode i)] s = exec i (regWrite r' v' (regWrite r v s)) := by
  rw [perform_wr free ne, perform_wr (by simpa using free) ne',
    perform_command (by simpa using free) (by simpa using run) legal]

/-! ### The transmit slot -/

/-- The block when a transmit slot issues its command: the head of the ring, if there is one, stands in `UPIN`. -/
def txLoaded (ring : List Slot) (s : State) : State :=
  match ring with
  | [] => s
  | x :: _ => setUpin .c1 x.ch1 (setUpin .c0 x.ch0 s)

/-- The availability flag a transmit slot gives its command. -/
def txFlag (ring : List Slot) : Nat := if ring = [] then 0 else 1

theorem txLoaded_get (x : Slot) (xs : List Slot) (s : State) (c : Chan) :
    (txLoaded (x :: xs) s).up.get c = { s.up.get c with upin := x.get c } := by cases c <;> rfl

@[simp] theorem txLoaded_uph (ring : List Slot) (s : State) (c : Chan) :
    ((txLoaded ring s).up.get c).uph = (s.up.get c).uph := by
  cases ring with
  | nil => rfl
  | cons x xs => rw [txLoaded_get]

/-- The accesses of a transmit slot run `SRC.UP` on the loaded block. -/
theorem perform_txEvents (ring : List Slot) {s : State} (free : s.hold = false) (run : s.halted = false)
    (ready : s.srcReady = true) :
    perform (txEvents ring) s = .next (srcUpBody srcArith (txFlag ring) (txLoaded ring s)) := by
  cases ring with
  | nil => exact (perform_command free run rfl).trans (exec_srcUp 0 run ready)
  | cons x xs =>
    exact (perform_operands_command (r := .upin .c0) (r' := .upin .c1) x.ch0 x.ch1 free run nofun nofun rfl).trans
      (exec_srcUp 1 run ready)

/-- With equal phases `SRC.UP` counts what it consumed by the phase of channel 0 (R155). -/
theorem srcUpBody_upcnt (A : SrcArith) (a : Nat) {s : State} (equal : s.up.ch0.uph = s.up.ch1.uph) :
    (srcUpBody A a s).upcnt = if a = 1 ∧ s.up.ch0.uph = 0 then 1 else 0 := by
  rw [srcUpBody, setUp_upcnt, upConsumes_count, ← equal]
  simp only [or_self]

/-- The count removes the head of the ring exactly when the ring has one and the engine took it. -/
theorem drop_txCount (ring : List Slot) (q : Prop) [Decidable q] :
    ring.drop (if txFlag ring = 1 ∧ q then (1 : Word) else 0).toNat = if q then ring.drop 1 else ring := by
  cases ring with
  | nil => simp
  | cons x xs => by_cases taken : q <;> simp [txFlag, taken]

/-- Settles O55: the slot is `SRC.UP` on the loaded block, and its count is by the common phase. -/
theorem transmitSlotAdvancesTheRing : Obligations.TransmitSlotAdvancesTheRing := by
  intro s r inv free run ready
  have phases := (inv.upPhases ready).1
  have load0 : (txLoaded r.tx s).up.ch0.uph = s.up.ch0.uph := txLoaded_uph r.tx s .c0
  have load1 : (txLoaded r.tx s).up.ch1.uph = s.up.ch1.uph := txLoaded_uph r.tx s .c1
  have count : (srcUpBody srcArith (txFlag r.tx) (txLoaded r.tx s)).upcnt =
      if txFlag r.tx = 1 ∧ s.up.ch0.uph = 0 then 1 else 0 := by
    rw [srcUpBody_upcnt _ _ (load0.trans (phases.trans load1.symm)), load0]
  refine ⟨_, by rw [txSlot, perform_txEvents r.tx free run ready, andThen_next], ?rings, rfl, fun c => ⟨?phase, ?operand⟩⟩
  case rings => rw [regRead, count, drop_txCount]
  case phase => simp [srcUpBody]
  case operand =>
    intro x xs tx
    simp [srcUpBody, tx, txLoaded_get]

/-! ### The receive slot -/

/-- The block when a receive slot issues its command: the slot received stands in `DNIN`. -/
def rxLoaded (bus : Slot) (s : State) : State := setDnin .c1 bus.ch1 (setDnin .c0 bus.ch0 s)

@[simp] theorem rxLoaded_get (bus : Slot) (s : State) (c : Chan) :
    (rxLoaded bus s).down.get c = { s.down.get c with dnin := bus.get c } := by cases c <;> rfl

/-- The accesses of a receive slot run `SRC.DOWN` on the loaded block. -/
theorem perform_rxEvents (bus : Slot) (space : Bool) {s : State} (free : s.hold = false) (run : s.halted = false)
    (ready : s.srcReady = true) :
    perform (rxEvents bus space) s = .next (srcDownBody srcArith space.toNat (rxLoaded bus s)) := by
  have legal : decode (encode (.srcDown space.toNat)) = .ok (.srcDown space.toNat) := by cases space <;> rfl
  exact (perform_operands_command (r := .dnin .c0) (r' := .dnin .c1) bus.ch0 bus.ch1 free run nofun nofun legal).trans
    (exec_srcDown _ run ready)

/-- With equal legal phases `SRC.DOWN` counts what it produced by the phase of channel 0 (R175). -/
theorem srcDownBody_dncnt_eq_one_iff (A : SrcArith) (a : Nat) {s : State} (equal : s.down.ch0.dph = s.down.ch1.dph)
    (legal : s.down.ch0.dph.toNat < 3) :
    (srcDownBody A a s).dncnt = 1 ↔ a = 1 ∧ s.down.ch0.dph = 2 := by
  have last : 2 ≤ s.down.ch0.dph.toNat ↔ s.down.ch0.dph = 2 := by bv_omega
  rw [srcDownBody, setDown_dncnt, downProduces_count, ← equal]
  simp [last]

/-- Settles O56: the slot is `SRC.DOWN` on the loaded block, and its count is by the common phase and the room. -/
theorem receiveSlotAppendsOrDrops : Obligations.ReceiveSlotAppendsOrDrops := by
  intro s room bus r inv free run ready fits
  obtain ⟨equal, legal⟩ := inv.downPhases ready
  have count : (srcDownBody srcArith (decide (r.rx.length < room)).toNat (rxLoaded bus s)).dncnt = 1 ↔
      s.down.ch0.dph = 2 ∧ r.rx.length < room := by
    rw [srcDownBody_dncnt_eq_one_iff (s := rxLoaded bus s) _ _ equal legal, and_comm]
    exact and_congr_right' (by simp)
  refine ⟨_, by rw [rxSlot, perform_rxEvents bus _ free run ready, andThen_next], ?room, fun c => ?operand, ?rings⟩
  case room =>
    simp only [regRead, count]
    split
    · simp; omega
    · exact fits
  case operand => simp [srcDownBody]
  case rings => simp only [regRead, count]; rfl

end Sys2Proof.Machine
end

section
/-! The command words (30_encoding.md R100 to R111): a word is legal when its operation code is 1 to 8 and the bits its
format marks `0` are 0, which is one range of numbers for each operation code. From this, decoder, encoder and opcode table
agree. -/

namespace Sys2Proof

open Machine

/-! ### The range of a format (R102) -/

/-- How many low bits the format of an operation code gives to operands; the bits between them and `OPC` are marked `0`. -/
def operandBits : Nat → Nat
  | 0x2 | 0x3 => 1
  | 0x6 => 20
  | 0x7 => 24
  | 0x8 => 4
  | _ => 0

theorem operandBits_le (o : Nat) : operandBits o ≤ 28 := by
  unfold operandBits; split <;> decide

/-- The word has this operation code, and 0 in the bits that its format marks `0`. -/
def HasFormat (o : Nat) (w : Word) : Prop := field w 31 28 = o ∧ field w 27 (operandBits o) = 0

/-- The operation code and the bits marked `0` are the word's high bits: together they are one number. -/
theorem hasFormat_iff_div {o : Nat} {w : Word} :
    HasFormat o w ↔ w.toNat / 2 ^ operandBits o = o * 2 ^ (28 - operandBits o) := by
  have split : 2 ^ operandBits o * 2 ^ (28 - operandBits o) = 2 ^ 28 := by
    rw [← pow_add, Nat.add_sub_cancel' (operandBits_le o)]
  have opc : field w 31 28 = w.toNat / 2 ^ operandBits o / 2 ^ (28 - operandBits o) := by
    rw [Nat.div_div_eq_div_mul, split]
    exact Nat.mod_eq_of_lt (by omega)
  rw [HasFormat, opc, field]
  generalize w.toNat / 2 ^ operandBits o = q
  have parts := Nat.div_add_mod q (2 ^ (28 - operandBits o))
  constructor
  · rintro ⟨code, zero⟩
    rw [code, show q % 2 ^ (28 - operandBits o) = 0 from zero] at parts
    rw [← parts, Nat.add_zero, Nat.mul_comm]
  · rintro rfl
    exact ⟨Nat.mul_div_cancel _ (by positivity), Nat.mul_mod_left _ _⟩

/-- The words of a format are one range of numbers. -/
theorem hasFormat_iff_range {o : Nat} {w : Word} :
    HasFormat o w ↔ o * 2 ^ 28 ≤ w.toNat ∧ w.toNat < o * 2 ^ 28 + 2 ^ operandBits o := by
  have split : o * 2 ^ (28 - operandBits o) * 2 ^ operandBits o = o * 2 ^ 28 := by
    rw [Nat.mul_assoc, ← pow_add, Nat.sub_add_cancel (operandBits_le o)]
  rw [hasFormat_iff_div, Nat.div_eq_iff (by positivity), split]
  have := Nat.two_pow_pos (operandBits o)
  omega

/-! ### The decoder by operation code (R102, R109) -/

theorem whenZero_error {w : Word} {hi lo : Nat} {i : Instr} {e : DecodeError} :
    whenZero w hi lo i = .error e ↔ field w hi lo ≠ 0 ∧ .reservedBits (field w 31 28) = e := by
  unfold whenZero; split <;> simp_all

/-- A reserved operation code is the reason a word is rejected for. -/
theorem decode_reserved {w : Word} (h : field w 31 28 = 0 ∨ 9 ≤ field w 31 28) :
    decode w = .error (.reservedOpcode (field w 31 28)) := by
  unfold decode
  split
  case h_9 => rfl
  all_goals omega

/-- With a legal operation code the word is a command of that code, provided the bits marked `0` are 0. -/
theorem decode_legal {w : Word} (h : 1 ≤ field w 31 28 ∧ field w 31 28 ≤ 8) :
    ∃ i : Instr, i.opc = field w 31 28 ∧ decode w = whenZero w 27 (operandBits (field w 31 28)) i := by
  obtain ⟨low, high⟩ := h
  interval_cases opc : field w 31 28 <;> simp only [decode, opc] <;> refine ⟨_, ?_, rfl⟩ <;> rfl

/-- The legal words are those of the eight formats. -/
theorem decode_ok_iff_hasFormat {w : Word} {o : Nat} :
    (∃ i, decode w = .ok i ∧ i.opc = o) ↔ (1 ≤ o ∧ o ≤ 8) ∧ HasFormat o w := by
  by_cases legal : 1 ≤ field w 31 28 ∧ field w 31 28 ≤ 8
  · obtain ⟨j, opc, dec⟩ := decode_legal legal
    simp only [dec, whenZero_ok]
    constructor
    · rintro ⟨i, ⟨zero, rfl⟩, rfl⟩
      rw [opc]
      exact ⟨legal, rfl, zero⟩
    · rintro ⟨-, rfl, zero⟩
      exact ⟨j, ⟨zero, rfl⟩, opc⟩
  · rw [decode_reserved (by omega)]
    constructor
    · rintro ⟨i, illegal, -⟩
      cases illegal
    · rintro ⟨opc, rfl, -⟩
      exact absurd opc legal

/-! ### Decoder and encoder (R103, R111) -/

/-- The word of a well-formed command is in the range of its format. -/
theorem hasFormat_encode {i : Instr} (h : i.WellFormed) : HasFormat i.opc (encode i) := by
  rw [hasFormat_iff_range, encode_toNat h]
  cases i with
  | srcInit | pllInit | pllStep => simp [encodeNat, Instr.opc, operandBits]
  | srcUp | srcDown | xferChk | xtChk | halt =>
    have ranges := of_decide_eq_true h
    simp only [encodeNat, Instr.opc, operandBits]
    omega

/-- Settles O1: the word's operation code and its bits marked `0` are those of the command's format, and each operand is
the field at its place. -/
theorem decodeOfEncode : Obligations.DecodeOfEncode := by
  intro i wf
  obtain ⟨opc, zero⟩ := hasFormat_encode wf
  cases i with
  | srcInit | pllInit | pllStep => rfl
  | srcUp | srcDown | xferChk | xtChk | halt =>
    have ranges := of_decide_eq_true wf
    simp only [decode, opc, Instr.opc, whenZero_ok]
    refine ⟨zero, ?_⟩
    simp only [field_encode wf, encodeNat]
    congr 1 <;> omega

/-- Settles O2: `OPC`, the bits marked `0` and the operand fields are all the bits of the word. -/
theorem encodeOfDecode : Obligations.EncodeOfDecode := by
  intro w i legal
  refine ⟨wellFormed_of_decode legal, ?_⟩
  apply BitVec.eq_of_toNat_eq
  rw [encode_toNat (wellFormed_of_decode legal)]
  have bound := w.isLt
  obtain ⟨opc, zero, rfl⟩ | ⟨opc, zero, rfl⟩ | ⟨opc, zero, rfl⟩ | ⟨opc, zero, rfl⟩ | ⟨opc, zero, rfl⟩ | ⟨opc, zero, rfl⟩ |
    ⟨opc, zero, rfl⟩ | ⟨opc, zero, rfl⟩ := decode_ok_cases legal <;>
  simp only [encodeNat, field] at opc zero ⊢ <;> omega

/-- Settles O6: the decoder runs on each word. -/
theorem specWordsDecode : Obligations.SpecWordsDecode := by
  unfold Obligations.SpecWordsDecode
  decide

/-! ### The opcode table (R107) -/

/-- The operation code in a row's match. -/
def OpcodeRow.opc (r : OpcodeRow) : Nat := field r.pattern 31 28

theorem opcodeRow_opc_legal : ∀ r ∈ opcodeTable, 1 ≤ r.opc ∧ r.opc ≤ 8 := by decide

/-- A row's match is its operation code and zeros; its mask leaves out the operand bits of that code's format. -/
theorem opcodeRow_pattern_mask : ∀ r ∈ opcodeTable,
    r.pattern = BitVec.ofNat 32 (r.opc * 2 ^ 28) ∧ r.mask = BitVec.allOnes 32 <<< operandBits r.opc := by decide

/-- A word selects a row when it has the format of the row's operation code. -/
theorem selects_iff_hasFormat {r : OpcodeRow} (row : r ∈ opcodeTable) {w : Word} :
    r.selects w = true ↔ HasFormat r.opc w := by
  obtain ⟨pattern, mask⟩ := opcodeRow_pattern_mask r row
  have legal := opcodeRow_opc_legal r row
  have masked : (w &&& r.mask).toNat = w.toNat / 2 ^ operandBits r.opc * 2 ^ operandBits r.opc := by
    rw [mask, ← BitVec.shiftLeft_ushiftRight, BitVec.toNat_shiftLeft, BitVec.toNat_ushiftRight, Nat.shiftRight_eq_div_pow,
      Nat.shiftLeft_eq]
    exact Nat.mod_eq_of_lt ((Nat.div_mul_le_self _ _).trans_lt w.isLt)
  have code : r.pattern.toNat = r.opc * 2 ^ (28 - operandBits r.opc) * 2 ^ operandBits r.opc := by
    rw [Nat.mul_assoc, ← pow_add, Nat.sub_add_cancel (operandBits_le _), pattern, BitVec.toNat_ofNat]
    omega
  rw [OpcodeRow.selects, beq_iff_eq, ← BitVec.toNat_inj, masked, code, Nat.mul_left_inj (by positivity),
    hasFormat_iff_div]

/-- Every command has its row, by mnemonic and operation code. -/
theorem Instr.row (i : Instr) : ∃ r ∈ opcodeTable, r.mnemonic = i.mnemonic ∧ r.opc = i.opc := by
  cases i <;> simp [opcodeTable, Instr.mnemonic, Instr.opc, OpcodeRow.opc, field]

theorem opcodeRow_mnemonic_eq_iff :
    ∀ r ∈ opcodeTable, ∀ r' ∈ opcodeTable, r.mnemonic = r'.mnemonic ↔ r.opc = r'.opc := by decide

/-- In the table a mnemonic stands for one operation code. -/
theorem mnemonic_eq_iff_opc_eq {r : OpcodeRow} (row : r ∈ opcodeTable) (i : Instr) :
    i.mnemonic = r.mnemonic ↔ i.opc = r.opc := by
  obtain ⟨r', row', mnemonic, opc⟩ := i.row
  rw [← mnemonic, ← opc, opcodeRow_mnemonic_eq_iff r' row' r row]

/-- The decoder selects a row's command for the words that select the row. -/
theorem selects_iff_decode {r : OpcodeRow} (row : r ∈ opcodeTable) {w : Word} :
    r.selects w = true ↔ ∃ i, decode w = .ok i ∧ i.mnemonic = r.mnemonic := by
  simp only [mnemonic_eq_iff_opc_eq row, decode_ok_iff_hasFormat, opcodeRow_opc_legal r row, selects_iff_hasFormat row,
    true_and, and_self]

/-- The rows a word selects all have its operation code, and the rows' codes differ. -/
theorem selected_rows_le_one (w : Word) : (opcodeTable.filter fun r => r.selects w).length ≤ 1 := by
  have distinct : (opcodeTable.map OpcodeRow.opc).Nodup := by decide
  rw [← List.countP_eq_length_filter]
  calc opcodeTable.countP (fun r => r.selects w)
      ≤ opcodeTable.countP (fun r => r.opc == field w 31 28) := List.countP_mono_left fun r row sel =>
        beq_iff_eq.2 ((selects_iff_hasFormat row).1 sel).1.symm
    _ = (opcodeTable.map OpcodeRow.opc).count (field w 31 28) := by rw [List.count, List.countP_map]; rfl
    _ ≤ 1 := List.nodup_iff_count_le_one.1 distinct _

/-- Settles O3: word and row are compared through the format of the row's operation code. -/
theorem decodeAgreesWithOpcodeTable : Obligations.DecodeAgreesWithOpcodeTable :=
  ⟨fun _ _ row => selects_iff_decode row, selected_rows_le_one⟩

/-! ### Illegal words (R109) -/

/-- The legal words are those that select a row. -/
theorem legal_iff_selected {w : Word} : (∃ i, decode w = .ok i) ↔ ∃ r ∈ opcodeTable, r.selects w = true := by
  constructor
  · rintro ⟨i, legal⟩
    obtain ⟨r, row, mnemonic, -⟩ := i.row
    exact ⟨r, row, (selects_iff_decode row).2 ⟨i, legal, mnemonic.symm⟩⟩
  · rintro ⟨r, row, sel⟩
    obtain ⟨i, legal, -⟩ := (selects_iff_decode row).1 sel
    exact ⟨i, legal⟩

theorem illegal_iff_unselected {w : Word} :
    (∃ e, decode w = .error e) ↔ ∀ r ∈ opcodeTable, r.selects w = false := by
  have illegal : (∃ e, decode w = .error e) ↔ ¬ ∃ i, decode w = .ok i := by cases decode w <;> simp
  rw [illegal, legal_iff_selected]
  simp

/-- Settles O4: a rejection is of a word with no legal operation code, or of one with a legal code and a bit set that is
marked `0`. -/
theorem illegalWordsMatchNoRow : Obligations.IllegalWordsMatchNoRow := by
  intro w
  refine ⟨illegal_iff_unselected, ?_⟩
  by_cases legal : 1 ≤ field w 31 28 ∧ field w 31 28 ≤ 8
  · obtain ⟨i, -, dec⟩ := decode_legal legal
    simp only [dec, whenZero_error]
    grind
  · have reserved : field w 31 28 = 0 ∨ 9 ≤ field w 31 28 := by omega
    simp [decode_reserved reserved, reserved]

/-! ### Words written to `CMD` -/

/-- Settles O8: a word that selects no row is issued as an illegal one. -/
theorem illegalWordIsFatal : Obligations.IllegalWordIsFatal := by
  intro s w rest free run tape unselected
  obtain ⟨e, illegal⟩ := illegal_iff_unselected.2 unselected
  rw [step_event free tape, handle_wrCmd, issue_illegal (s := setTape rest s) run illegal]
  rfl

end Sys2Proof
end

section
/-! The number of legal words (R110): the words of each format are listed, and the formats exclude each other. -/

namespace Sys2Proof

/-- The words of the format of an operation code. -/
def formatWords (o : Nat) : List Word :=
  (List.range (2 ^ operandBits o)).map fun n => BitVec.ofNat 32 (o * 2 ^ 28 + n)

/-- Operation code and operands fit in 32 bits. -/
theorem formatWord_toNat {o n : Nat} (code : o ≤ 8) (operands : n < 2 ^ operandBits o) :
    (BitVec.ofNat 32 (o * 2 ^ 28 + n)).toNat = o * 2 ^ 28 + n := by
  have := Nat.pow_le_pow_right (n := 2) (by decide) (operandBits_le o)
  rw [BitVec.toNat_ofNat]
  omega

theorem mem_formatWords {o : Nat} (code : o ≤ 8) {w : Word} : w ∈ formatWords o ↔ HasFormat o w := by
  rw [hasFormat_iff_range, formatWords, List.mem_map]
  constructor
  · rintro ⟨n, mem, rfl⟩
    rw [List.mem_range] at mem
    rw [formatWord_toNat code mem]
    omega
  · rintro ⟨low, high⟩
    refine ⟨w.toNat - o * 2 ^ 28, List.mem_range.2 (by omega), ?_⟩
    rw [Nat.add_sub_cancel' low, BitVec.ofNat_toNat, BitVec.setWidth_eq]

theorem nodup_formatWords {o : Nat} (code : o ≤ 8) : (formatWords o).Nodup := by
  refine List.Nodup.map_on (fun m hm n hn eq => ?_) List.nodup_range
  have := congrArg BitVec.toNat eq
  rw [formatWord_toNat code (List.mem_range.1 hm), formatWord_toNat code (List.mem_range.1 hn)] at this
  omega

/-- Every legal word, format by format. -/
def legalWords : List Word := (List.range' 1 8).flatMap formatWords

theorem mem_opcodes {o : Nat} : o ∈ List.range' 1 8 ↔ 1 ≤ o ∧ o ≤ 8 := by
  rw [List.mem_range'_1]; omega

theorem mem_legalWords (w : Word) : w ∈ legalWords ↔ ∃ i, decode w = .ok i := by
  rw [legalWords, List.mem_flatMap]
  constructor
  · rintro ⟨o, opc, mem⟩
    rw [mem_opcodes] at opc
    obtain ⟨i, legal, -⟩ := decode_ok_iff_hasFormat.2 ⟨opc, (mem_formatWords opc.2).1 mem⟩
    exact ⟨i, legal⟩
  · rintro ⟨i, legal⟩
    obtain ⟨opc, format⟩ := decode_ok_iff_hasFormat.1 ⟨i, legal, rfl⟩
    exact ⟨i.opc, mem_opcodes.2 opc, (mem_formatWords opc.2).2 format⟩

/-- Words of two formats differ in their operation codes. -/
theorem nodup_legalWords : legalWords.Nodup := by
  refine List.nodup_flatMap.2 ⟨fun o opc => nodup_formatWords (mem_opcodes.1 opc).2, ?_⟩
  refine (List.nodup_range' (s := 1) (n := 8)).imp_of_mem fun opc opc' ne w mem mem' => ne ?_
  rw [mem_formatWords (mem_opcodes.1 opc).2] at mem
  rw [mem_formatWords (mem_opcodes.1 opc').2] at mem'
  exact mem.1.symm.trans mem'.1

theorem length_legalWords : legalWords.length = ((List.range' 1 8).map fun o => 2 ^ operandBits o).sum := by
  simp only [legalWords, formatWords, List.length_flatMap, List.length_map, List.length_range]

/-- Settles O5: the legal words are counted format by format. -/
theorem legalWordCount : Obligations.LegalWordCount :=
  ⟨legalWords, nodup_legalWords, mem_legalWords, length_legalWords.trans (by decide), length_legalWords.trans (by decide)⟩

end Sys2Proof
end

section
/-! The filter arithmetic of the SRC engine (40_src_common.md R131 to R135, R138 (b)): the ring after a push, the sum of a
filter phase, the sums that fit the accumulator, and the sample a sum gives. -/

namespace Sys2Proof.Machine

/-! ### The ring (R133) -/

/-- Settles O25: the new sample is the head, and behind it stand the old samples up to the last, which is dropped. -/
theorem pushShiftsTheRing : Obligations.PushShiftsTheRing := by
  intro t h x pos length
  refine ⟨push_length x pos length, rfl, fun j lt => ?_⟩
  rw [push, List.getElem?_cons_succ]
  exact List.getElem?_take_of_lt (by omega)

/-! ### The sum (R131) -/

/-- The sum along both lists is the sum over their indexes. -/
theorem dot_eq_sum : ∀ {n : Nat} {c h : List Word}, c.length = n → h.length = n →
    dot c h = ∑ j ∈ Finset.range n, (c.getD j 0).toInt * (h.getD j 0).toInt
  | _, [], h, rfl, _ => by simp [dot]
  | _, x :: c, y :: h, rfl, length => by
    have tail : dot c h = ∑ j ∈ Finset.range c.length, (c.getD j 0).toInt * (h.getD j 0).toInt :=
      dot_eq_sum rfl (Nat.succ.inj length)
    rw [dot, tail, List.length_cons, Finset.sum_range_succ', add_comm]
    rfl

/-- Settles O27: `Fir` narrows the exact sum once. -/
theorem firIsTheWrappedSum : Obligations.FirIsTheWrappedSum := by
  intro n c h hc hh
  rw [fir, wrap64, BitVec.toInt_ofInt, dot_eq_sum hc hh]

/-! ### Sums that do not wrap (R135) -/

/-- What is at most `b` samples in size, `b` below 2^32, is below 2^63 in size and stored as it is. -/
theorem toInt_wrap64_of_natAbs_le {v : Int} {b : Nat} (size : v.natAbs ≤ b * 2 ^ 31) (bound : b < 2 ^ 32) :
    (wrap64 v).toInt = v := toInt_wrap64 (by omega) (by omega)

/-- Settles O28: every sum is at most its coefficients' share of `L1` times the size of a sample (`dot_natAbs_le`). -/
theorem noWrapUnderCoefficientBound : Obligations.NoWrapUnderCoefficientBound := by
  intro p h0 h1 h2 bound
  rw [l1] at bound
  have size0 := dot_natAbs_le p.coef.p0 h0
  have size1 := dot_natAbs_le p.coef.p1 h1
  have size2 := dot_natAbs_le p.coef.p2 h2
  have size01 : (dot p.coef.p0 h0 + dot p.coef.p1 h1).natAbs ≤ (absSum p.coef.p0 + absSum p.coef.p1) * 2 ^ 31 := by omega
  have size012 : (dot p.coef.p0 h0 + dot p.coef.p1 h1 + dot p.coef.p2 h2).natAbs ≤
      (absSum p.coef.p0 + absSum p.coef.p1 + absSum p.coef.p2) * 2 ^ 31 := by omega
  exact ⟨toInt_wrap64_of_natAbs_le size0 (by omega), toInt_wrap64_of_natAbs_le size1 (by omega),
    toInt_wrap64_of_natAbs_le size2 (by omega), toInt_wrap64_of_natAbs_le size01 (by omega),
    toInt_wrap64_of_natAbs_le size012 bound⟩

/-! ### The sample (R132) -/

theorem sat32_bounds (v : Int) : -2 ^ 31 ≤ sat32 v ∧ sat32 v ≤ 2 ^ 31 - 1 := clamp_bounds (by decide)

theorem sat32_of_lt {v : Int} (low : v < -2 ^ 31) : sat32 v = -2 ^ 31 := if_pos low

theorem sat32_of_gt {v : Int} (high : 2 ^ 31 - 1 < v) : sat32 v = 2 ^ 31 - 1 := by
  rw [sat32, clamp, if_neg (by omega), if_pos high]

theorem sat32_of_mem {v : Int} (low : -2 ^ 31 ≤ v) (high : v < 2 ^ 31) : sat32 v = v := by
  rw [sat32, clamp, if_neg (by omega), if_neg (by omega)]

theorem sat32_mono {v w : Int} (le : v ≤ w) : sat32 v ≤ sat32 w := by
  rw [sat32, sat32, clamp_eq _ _ _ (by decide), clamp_eq _ _ _ (by decide)]
  omega

theorem asr_mono {v w : Int} (le : v ≤ w) (k : Nat) : asr v k ≤ asr w k := Int.ediv_le_ediv (by positivity) le

/-- The shift by `QSHIFT` as a division whose divisor is a numeral. -/
theorem asr_qShift (v : Int) : asr v qShift = v / 2 ^ 31 := rfl

/-- The saturated value fits a sample, so storing it loses nothing. -/
theorem toInt_firOut (acc : Acc) : (firOut acc).toInt = sat32 (asr acc.toInt qShift) := by
  obtain ⟨low, high⟩ := sat32_bounds (asr acc.toInt qShift)
  exact toInt_ofInt_32 low (by omega)

theorem firOut_of_ge {acc : Acc} (high : 2 ^ 62 ≤ acc.toInt) : firOut acc = 0x7FFFFFFF := by
  have above : 2 ^ 31 - 1 < asr acc.toInt qShift := by rw [asr_qShift]; omega
  rw [firOut, sat32_of_gt above]
  rfl

theorem firOut_of_lt {acc : Acc} (low : acc.toInt < -2 ^ 62) : firOut acc = 0x80000000 := by
  have below : asr acc.toInt qShift < -2 ^ 31 := by rw [asr_qShift]; omega
  rw [firOut, sat32_of_lt below]
  rfl

theorem toInt_firOut_of_mem {acc : Acc} (low : -2 ^ 62 ≤ acc.toInt) (high : acc.toInt < 2 ^ 62) :
    (firOut acc).toInt = acc.toInt / 2 ^ 31 := by
  rw [toInt_firOut, asr_qShift, sat32_of_mem (by omega) (by omega)]

theorem firOut_mono {acc acc' : Acc} (le : acc.toInt ≤ acc'.toInt) : (firOut acc).toInt ≤ (firOut acc').toInt := by
  rw [toInt_firOut, toInt_firOut]
  exact sat32_mono (asr_mono le qShift)

/-- Settles O26: one lemma for each of the three ranges, and the shift and the saturation are monotone. -/
theorem firOutFloorsAndSaturates : Obligations.FirOutFloorsAndSaturates := by
  refine ⟨fun acc => ⟨firOut_of_ge, firOut_of_lt, fun low high => ?_⟩, fun _ _ => firOut_mono⟩
  rw [toInt_firOut_of_mem low high]
  omega

end Sys2Proof.Machine
end

section
/-! The sequence of the commands and the lanes of the SRC engine (40_src_common.md R134, R136): what a command out of sequence
raises, what `SRC.INIT` leaves, and that `SRC.UP` and `SRC.DOWN` work lane by lane. -/

namespace Sys2Proof.Machine

/-- Settles O12: each premise is the failed sequence precondition of its command. -/
theorem outOfSequenceIsFatal : Obligations.OutOfSequenceIsFatal := by
  intro s run bad
  have fatal {i : Instr} (h : outOfSequence i s = true) : exec i s = bad := exec_outOfSequence run h
  refine ⟨fun ready => fatal ready, fun unready a => ⟨fatal ?up, fatal ?down⟩, fun off => fatal ?pllInit,
    fun off => fatal ?pllStep⟩
  case up | down => simp [outOfSequence, unready]
  case pllInit | pllStep => simpa [outOfSequence] using off

/-- Settles O13: the state is that of `srcInitBody`, whose lanes are `upLaneInit` and `downLaneInit` of the old ones. -/
theorem srcInitEffect : Obligations.SrcInitEffect := by
  intro s run unready
  have effect : exec .srcInit s = .next (srcInitBody s) := by rw [exec_srcInit run, if_neg (by simp [unready])]
  exact ⟨srcInitBody s, effect, rfl, rfl, rfl, by simp [srcInitBody, upLaneInit, downLaneInit], rfl⟩

/-! ### Lane by lane (R134) -/

/-- `SRC.UP` gives each channel its lane's transition, and leaves it alone if halted or out of sequence. -/
theorem exec_srcUp_lane {s t : State} {a : Nat} (h : exec (.srcUp a) s = .next t) (c : Chan) :
    t.up.get c = if s.halted = false ∧ s.srcReady = true then upLane srcArith s.par a (s.up.get c) else s.up.get c := by
  cases run : s.halted with
  | true => rw [exec_halted _ run] at h; cases h; rfl
  | false =>
    cases ready : s.srcReady with
    | false => rw [exec_srcUp_early a run ready] at h; cases h; rfl
    | true => rw [exec_srcUp a run ready] at h; cases h; exact lanes_map_get _ _ c

/-- `SRC.DOWN` likewise. -/
theorem exec_srcDown_lane {s t : State} {a : Nat} (h : exec (.srcDown a) s = .next t) (c : Chan) :
    t.down.get c =
      if s.halted = false ∧ s.srcReady = true then downLane srcArith s.par a (s.down.get c) else s.down.get c := by
  cases run : s.halted with
  | true => rw [exec_halted _ run] at h; cases h; rfl
  | false =>
    cases ready : s.srcReady with
    | false => rw [exec_srcDown_early a run ready] at h; cases h; rfl
    | true => rw [exec_srcDown a run ready] at h; cases h; exact lanes_map_get _ _ c

/-- Settles O23: what a command leaves in a channel is a function of that channel, the parameters, HALTED and SRC_READY. -/
theorem channelsDoNotMix : Obligations.ChannelsDoNotMix := by
  intro s s' t t' c a cfg halted ready
  have par : s.par = s'.par := congrArg Cfg.par cfg
  constructor <;> intro lane run run'
  · rw [exec_srcUp_lane run, exec_srcUp_lane run', par, halted, ready, lane]
  · rw [exec_srcDown_lane run, exec_srcDown_lane run', par, halted, ready, lane]

end Sys2Proof.Machine
end

section
/-! `SRC.UP` (41_src_upsample.md R151 to R156): the transition of each channel, what it does not read, its rate, and the silence
that both directions of the SRC engine keep. -/

namespace Sys2Proof.Machine

/-! ### The transition (R153) -/

theorem srcUpBody_lane (A : SrcArith) (a : Nat) (s : State) (c : Chan) :
    (srcUpBody A a s).up.get c = upLane A s.par a (s.up.get c) := by simp [srcUpBody]

/-- Settles O14: the lane's equation at each phase (`upLane_zero`, `upLane_one`, `upLane_two`), and the count of both lanes. -/
theorem srcUpTransition : Obligations.SrcUpTransition := by
  intro s a run ready
  refine ⟨_, exec_srcUp a run ready, fun c => ?lane, upConsumes_count a s.up.ch0 s.up.ch1, rfl⟩
  rw [srcUpBody_lane]
  refine ⟨upLane_upin .., fun zero => ?zero, fun one => ?one, fun two => ?two⟩
  case zero => rw [upLane_zero _ _ _ zero]; exact ⟨rfl, rfl, rfl⟩
  case one => rw [upLane_one _ _ _ one]; exact ⟨rfl, rfl, rfl⟩
  case two => rw [upLane_two _ _ _ two]; exact ⟨rfl, rfl, rfl⟩

/-! ### What the commands do not read (R153, R173) -/

/-- `SRC.UP` and `SRC.DOWN` in every state, running or not. -/
theorem exec_srcUp_eq (a : Nat) (s : State) :
    exec (.srcUp a) s = .next (if s.halted then s else if !s.srcReady then raiseFatal causeBadSequence s
      else srcUpBody srcArith a s) := rfl

theorem exec_srcDown_eq (a : Nat) (s : State) :
    exec (.srcDown a) s = .next (if s.halted then s else if !s.srcReady then raiseFatal causeBadSequence s
      else srcDownBody srcArith a s) := rfl

theorem srcUpBody_flag (A : SrcArith) (a b : Nat) {s : State} (late : ∀ c, (s.up.get c).uph ≠ 0) :
    srcUpBody A a s = srcUpBody A b s := by
  have lanes : s.up.map (upLane A s.par a) = s.up.map (upLane A s.par b) :=
    lanes_ext fun c => by simp [upLane_flag A s.par a b (late c)]
  have starved (q : Nat) : ¬ (q = 1 ∧ (s.up.ch0.uph = 0 ∨ s.up.ch1.uph = 0)) :=
    fun ⟨_, zero⟩ => zero.elim (late .c0) (late .c1)
  rw [srcUpBody, srcUpBody, lanes, upConsumes_count, upConsumes_count, if_neg (starved a), if_neg (starved b)]

theorem downProduces_early (a : Nat) {l : DownLane} (early : l.dph = 0 ∨ l.dph = 1) : downProduces a l = false := by
  obtain zero | one := early
  · simp [downProduces, zero]
  · simp [downProduces, one]

theorem srcDownBody_flag (A : SrcArith) (a b : Nat) {s : State}
    (early : ∀ c, (s.down.get c).dph = 0 ∨ (s.down.get c).dph = 1) : srcDownBody A a s = srcDownBody A b s := by
  have lanes : s.down.map (downLane A s.par a) = s.down.map (downLane A s.par b) :=
    lanes_ext fun c => by simp [downLane_flag A s.par a b (early c)]
  have none0 (q : Nat) : downProduces q s.down.ch0 = false := downProduces_early q (early .c0)
  have none1 (q : Nat) : downProduces q s.down.ch1 = false := downProduces_early q (early .c1)
  simp only [srcDownBody, lanes, none0, none1]

/-- Settles O17: neither the lanes nor the count read the flag at the other phases. -/
theorem flagReadAtOnePhaseOnly : Obligations.FlagReadAtOnePhaseOnly := by
  intro s a b
  constructor
  · intro late
    rw [exec_srcUp_eq, exec_srcUp_eq, srcUpBody_flag srcArith a b late]
  · intro early
    rw [exec_srcDown_eq, exec_srcDown_eq, srcDownBody_flag srcArith a b early]

/-- A write to `UPIN[c]` that the lane does not read may come before the command or after it: the count reads the phases and
the flag alone. -/
theorem srcUpBody_setUpin (A : SrcArith) (a : Nat) (c : Chan) (v : Word) {s : State}
    (unread : a ≠ 1 ∨ (s.up.get c).uph ≠ 0) :
    srcUpBody A a (setUpin c v s) = setUpin c v (srcUpBody A a s) := by
  have lane := upLane_upin_unread A s.par a v unread
  cases c with
  | c0 => simp only [srcUpBody, setUpin, setUp, Lanes.map, lanes_get_c0] at lane ⊢; rw [lane]; rfl
  | c1 => simp only [srcUpBody, setUpin, setUp, Lanes.map, lanes_get_c1] at lane ⊢; rw [lane]; rfl

theorem raiseFatal_setUpin (k : BitVec 4) (c : Chan) (v : Word) (s : State) :
    raiseFatal k (setUpin c v s) = setUpin c v (raiseFatal k s) := by cases c <;> rfl

/-- Settles O18: the write commutes with the transition, with the fatal assertion and with being ignored. -/
theorem upinUnreadWithoutInput : Obligations.UpinUnreadWithoutInput := by
  intro s t u a c v unread before after
  rw [exec_srcUp_eq] at before after
  cases before
  cases after
  simp only [setUpin_halted, setUpin_srcReady, srcUpBody_setUpin srcArith a c v unread, raiseFatal_setUpin]
  split_ifs <;> rfl

/-! ### The rate (R155) -/

theorem legalPhase_cases {q : BitVec 2} (legal : q.toNat < 3) : q = 0 ∨ q = 1 ∨ q = 2 := by bv_omega

theorem srcUpBody_upcnt_toNat (A : SrcArith) (a : Nat) {s : State} (equal : s.up.ch0.uph = s.up.ch1.uph) :
    (srcUpBody A a s).upcnt.toNat = if a = 1 ∧ s.up.ch0.uph = 0 then 1 else 0 := by
  rw [srcUpBody_upcnt A a equal]; split <;> rfl

/-- Of three flags only the one that meets phase 0 counts. -/
theorem flagCount_thrice (a b c : Nat) {q : BitVec 2} (legal : q.toNat < 3) :
    (if a = 1 ∧ q = 0 then 1 else 0) + (if b = 1 ∧ nextPhase q = 0 then 1 else 0) +
        (if c = 1 ∧ nextPhase (nextPhase q) = 0 then 1 else 0) =
      if (if q = 0 then a else if q = 1 then c else b) = 1 then 1 else 0 := by
  obtain rfl | rfl | rfl := legalPhase_cases legal <;> simp [nextPhase]

/-- Settles O19: the phases of both channels go round together, so one of the three invocations is at phase 0. -/
theorem upsampleRateIsOneInThree : Obligations.UpsampleRateIsOneInThree := by
  intro s a b c inv run ready
  have inv1 := inv_srcUpBody a inv
  have inv2 := inv_srcUpBody b inv1
  obtain ⟨equal, legal⟩ := inv.upPhases ready
  refine ⟨_, _, _, exec_srcUp a run ready, exec_srcUp b run ready, exec_srcUp c run ready, ?count, fun k => ?phase⟩
  case count =>
    rw [srcUpBody_upcnt_toNat _ a equal, srcUpBody_upcnt_toNat _ b (inv1.upPhases ready).1,
      srcUpBody_upcnt_toNat _ c (inv2.upPhases ready).1]
    simpa [srcUpBody] using flagCount_thrice a b c legal
  case phase =>
    simp only [srcUpBody_lane, upLane_uph]
    refine nextPhase_thrice _ ?_
    cases k with
    | c0 => exact legal
    | c1 => exact equal ▸ legal

/-! ### Silence (R138, R156, R177) -/

theorem push_silent {t : Nat} {h : List Word} {x : Word} (ring : ∀ y ∈ h, y = 0) (input : x = 0) :
    ∀ y ∈ push t h x, y = 0 := fun y mem => (mem_push mem).elim (·.trans input) (ring y)

theorem firOut_fir_silent {coef h : List Word} (ring : ∀ y ∈ h, y = 0) : firOut (fir coef h) = 0 := by
  rw [fir_silent coef h ring, firOut_zero]

/-- On silence a lane of `SRC.UP` puts out silence, at whichever phase. -/
theorem upLane_silent (p : Params) (a : Nat) {l : UpLane} (ring : ∀ x ∈ l.uh, x = 0) (input : l.upin = 0) :
    (upLane srcArith p a l).upout = 0 ∧ ∀ x ∈ (upLane srcArith p a l).uh, x = 0 := by
  have taken : ∀ x ∈ push p.t l.uh (if flagSet a then l.upin else silence), x = 0 :=
    push_silent ring (by rw [input]; exact ite_self 0)
  unfold upLane
  split
  · exact ⟨firOut_fir_silent taken, taken⟩
  · split
    · exact ⟨firOut_fir_silent ring, ring⟩
    · exact ⟨firOut_fir_silent ring, ring⟩

/-- Every ring of a channel of the downsample direction is silent. -/
def SilentRings (dh : Phases (List Word)) : Prop := ∀ x ∈ dh.p0 ++ dh.p1 ++ dh.p2, x = 0

theorem silent_phaseGet {dh : Phases (List Word)} (silent : SilentRings dh) (q : BitVec 2) :
    ∀ x ∈ phaseGet dh q, x = 0 := by
  intro x mem
  refine silent x ?_
  unfold phaseGet at mem
  split_ifs at mem <;> simp [mem]

theorem silentRings_phaseSet {dh : Phases (List Word)} {h : List Word} (silent : SilentRings dh) (ring : ∀ x ∈ h, x = 0)
    (q : BitVec 2) : SilentRings (phaseSet dh q h) := by
  simp only [SilentRings, List.forall_mem_append] at silent ⊢
  obtain ⟨⟨ring0, ring1⟩, ring2⟩ := silent
  unfold phaseSet
  split_ifs
  · exact ⟨⟨ring, ring1⟩, ring2⟩
  · exact ⟨⟨ring0, ring⟩, ring2⟩
  · exact ⟨⟨ring0, ring1⟩, ring⟩

/-- `DNOUT` is written at phase 2 with space only (R173). -/
theorem downLane_dnout_kept (A : SrcArith) (p : Params) {a : Nat} {l : DownLane}
    (kept : l.dph = 0 ∨ l.dph = 1 ∨ a ≠ 1) : (downLane A p a l).dnout = l.dnout := by
  simp only [downLane, flagSet_iff]
  by_cases early : l.dph = 0 ∨ l.dph = 1
  · rw [if_pos early]
  · have drop : a ≠ 1 := by tauto
    rw [if_neg early, if_neg drop]

/-- On silence a lane of `SRC.DOWN` keeps its rings and its sum silent at every phase, and what it writes is silence. -/
theorem downLane_silent (p : Params) (a : Nat) {l : DownLane} (rings : SilentRings l.dh) (input : l.dnin = 0)
    (sum : l.dsum = 0) :
    (downLane srcArith p a l).dsum = 0 ∧ (l.dph = 2 → a = 1 → (downLane srcArith p a l).dnout = 0) ∧
      SilentRings (downLane srcArith p a l).dh := by
  have ring : ∀ x ∈ downRing srcArith p l, x = 0 := push_silent (silent_phaseGet rings l.dph) input
  have term : downTerm srcArith p l = 0 := fir_silent _ _ ring
  have total : downTotal srcArith p l = 0 := by rw [downTotal, term, sum]; rfl
  refine ⟨?sum, fun last space => ?out, silentRings_phaseSet rings ring l.dph⟩
  case sum => simp [downLane, term, total, sum]
  case out =>
    have out : (downLane srcArith p a l).dnout = firOut (downTotal srcArith p l) := by
      simp only [downLane, last, space]; rfl
    rw [out, total, firOut_zero]

/-- Settles O24: in a running state after `SRC.INIT` a command gives each channel its lane's transition. -/
theorem silenceStaysSilent : Obligations.SilenceStaysSilent := by
  intro s t a c run ready
  constructor
  · intro ring input exe
    rw [exec_srcUp_lane exe, if_pos ⟨run, ready⟩]
    exact upLane_silent s.par a ring input
  · intro rings input sum exe
    rw [exec_srcDown_lane exe, if_pos ⟨run, ready⟩]
    obtain ⟨sum', out, rings'⟩ := downLane_silent s.par a rings input sum
    exact ⟨sum', out, downLane_dnout_kept srcArith s.par, rings'⟩

end Sys2Proof.Machine
end

section
/-! `SRC.DOWN` (42_src_downsample.md R171 to R176): the transition of each channel, what a drop costs, the rate, and the
finished sample of a period in closed form. -/

namespace Sys2Proof.Machine

/-! ### The transition (R173) -/

theorem srcDownBody_lane (A : SrcArith) (a : Nat) (s : State) (c : Chan) :
    (srcDownBody A a s).down.get c = downLane A s.par a (s.down.get c) := by simp [srcDownBody]

/-- Settles O15: the lane's equation at each phase (`downLane_zero`, `downLane_one`, `downLane_two`), and the count of both
lanes. -/
theorem srcDownTransition : Obligations.SrcDownTransition := by
  intro s sp run ready
  refine ⟨_, exec_srcDown sp run ready, fun c => ?lane, downProduces_count sp s.down.ch0 s.down.ch1, rfl⟩
  rw [srcDownBody_lane]
  refine ⟨downLane_dnin .., fun zero => ?zero, fun one => ?one, fun two => ?two⟩
  case zero => rw [downLane_zero _ _ _ zero]; exact ⟨rfl, rfl, rfl, rfl⟩
  case one => rw [downLane_one _ _ _ one, wrap64_toInt_add]; exact ⟨rfl, rfl, rfl, rfl⟩
  case two => rw [downLane_two _ _ _ two, wrap64_toInt_add]; exact ⟨rfl, rfl, rfl, rfl⟩

/-! ### A drop (R173, R176) -/

/-- A lane reads the space flag for `DNOUT` alone, and without space keeps it. -/
theorem downLane_drop (A : SrcArith) (p : Params) {a : Nat} (b : Nat) (drop : a ≠ 1) (l : DownLane) :
    downLane A p a l = { downLane A p b l with dnout := l.dnout } :=
  calc downLane A p a l
    _ = { downLane A p b l with dnout := (downLane A p a l).dnout } := rfl
    _ = { downLane A p b l with dnout := l.dnout } := by rw [downLane_dnout_kept A p (.inr (.inr drop))]

theorem srcDownBody_dncnt_drop (A : SrcArith) {a : Nat} (drop : a ≠ 1) (s : State) : (srcDownBody A a s).dncnt = 0 := by
  rw [srcDownBody, setDown_dncnt, downProduces_count, if_neg fun produced => drop produced.1]

/-- Settles O22: each lane of the drop is that of the invocation with space but for `DNOUT` (`downLane_drop`). -/
theorem dropCostsOnlyTheOutput : Obligations.DropCostsOnlyTheOutput := by
  intro s t u run ready dropped emitted
  rw [exec_srcDown 0 run ready] at dropped
  rw [exec_srcDown 1 run ready] at emitted
  cases dropped
  cases emitted
  have count := srcDownBody_dncnt_drop srcArith Nat.zero_ne_one s
  have lane := downLane_drop srcArith s.par 1 Nat.zero_ne_one
  refine ⟨count, fun c => ?output, ?state⟩
  case output => rw [srcDownBody_lane, lane]
  case state =>
    calc srcDownBody srcArith 0 s
      _ = { srcDownBody srcArith 1 s with
            dncnt := (srcDownBody srcArith 0 s).dncnt, down := s.down.map (downLane srcArith s.par 0) } := rfl
      _ = _ := by rw [count, Lanes.map, lane, lane]; rfl

/-! ### The rate (R175) -/

theorem srcDownBody_dncnt_toNat (A : SrcArith) (a : Nat) {s : State} (equal : s.down.ch0.dph = s.down.ch1.dph)
    (legal : s.down.ch0.dph.toNat < 3) :
    (srcDownBody A a s).dncnt.toNat = if a = 1 ∧ s.down.ch0.dph = 2 then 1 else 0 := by
  simp only [← srcDownBody_dncnt_eq_one_iff A a equal legal]
  rw [srcDownBody, setDown_dncnt]
  cases downProduces a s.down.ch0 || downProduces a s.down.ch1 <;> rfl

/-- Of three flags only the one that meets phase 2 counts. -/
theorem spaceCount_thrice (a b c : Nat) {q : BitVec 2} (legal : q.toNat < 3) :
    (if a = 1 ∧ q = 2 then 1 else 0) + (if b = 1 ∧ nextPhase q = 2 then 1 else 0) +
        (if c = 1 ∧ nextPhase (nextPhase q) = 2 then 1 else 0) =
      if (if q = 0 then c else if q = 1 then b else a) = 1 then 1 else 0 := by
  obtain rfl | rfl | rfl := legalPhase_cases legal <;> simp [nextPhase]

/-- Settles O20: the phases of both channels go round together, so one of the three invocations is at phase 2. -/
theorem downsampleRateIsThreeToOne : Obligations.DownsampleRateIsThreeToOne := by
  intro s a b c inv run ready
  have inv1 := inv_srcDownBody a inv
  have inv2 := inv_srcDownBody b inv1
  obtain ⟨equal, legal⟩ := inv.downPhases ready
  obtain ⟨equal1, legal1⟩ := inv1.downPhases ready
  obtain ⟨equal2, legal2⟩ := inv2.downPhases ready
  refine ⟨_, _, _, exec_srcDown a run ready, exec_srcDown b run ready, exec_srcDown c run ready, ?count, fun k => ?phase⟩
  case count =>
    rw [srcDownBody_dncnt_toNat _ a equal legal, srcDownBody_dncnt_toNat _ b equal1 legal1,
      srcDownBody_dncnt_toNat _ c equal2 legal2]
    exact spaceCount_thrice a b c legal
  case phase =>
    simp only [srcDownBody_lane, downLane_dph]
    refine nextPhase_thrice _ ?_
    cases k with
    | c0 => exact legal
    | c1 => exact equal ▸ legal

/-! ### The finished sample (R174) -/

/-- What an invocation leaves after `HOT` wrote its input to `DNIN[c]`: the channel's transition on that input, in a state
in which the next one runs. -/
theorem exec_srcDown_loaded {s t : State} {a : Nat} {c : Chan} {x : Word} (run : s.halted = false)
    (ready : s.srcReady = true) (exe : exec (.srcDown a) (setDnin c x s) = .next t) :
    t.halted = false ∧ t.srcReady = true ∧ t.par = s.par ∧
      t.down.get c = downLane srcArith s.par a { s.down.get c with dnin := x } := by
  rw [exec_srcDown a (by simpa using run) (by simpa using ready)] at exe
  cases exe
  refine ⟨?halted, ?ready, ?par, ?lane⟩
  case halted => simpa [srcDownBody] using run
  case ready => simpa [srcDownBody] using ready
  case par => simp [srcDownBody, State.par]
  case lane => simp [srcDownBody_lane, setDnin_get, State.par]

/-- A lane's three invocations from phase 0 on the inputs `x0`, `x1`, `x2`, the last with space: the sum starts afresh, takes
the second term and the third, and the two reductions modulo 2^64 are one. -/
theorem downLane_period_dnout (A : SrcArith) (p : Params) (a b : Nat) (x0 x1 x2 : Word) {l l1 l2 : DownLane}
    (start : l.dph = 0) (first : l1 = downLane A p a { l with dnin := x0 })
    (second : l2 = downLane A p b { l1 with dnin := x1 }) :
    (downLane A p 1 { l2 with dnin := x2 }).dnout = A.firOut (wrap64
      ((A.fir p.coef.p0 (A.push p.t l.dh.p0 x0)).toInt + (A.fir p.coef.p1 (A.push p.t l.dh.p1 x1)).toInt +
       (A.fir p.coef.p2 (A.push p.t l.dh.p2 x2)).toInt)) := by
  rw [downLane_zero A p a (l := { l with dnin := x0 }) start] at first
  subst first
  rw [downLane_one A p b rfl] at second
  subst second
  rw [downLane_two A p 1 rfl, if_pos rfl, wrap64_add_wrap64]

/-- `DNCNT` is 1 when a channel stands at phase 2 and there is space. -/
theorem srcDownBody_dncnt_emit (A : SrcArith) {s : State} {c : Chan} (last : (s.down.get c).dph = 2) :
    (srcDownBody A 1 s).dncnt = 1 := by
  have late : 2 ≤ (s.down.get c).dph.toNat := (congrArg BitVec.toNat last).ge
  have slotProduced : 2 ≤ s.down.ch0.dph.toNat ∨ 2 ≤ s.down.ch1.dph.toNat := by
    cases c with
    | c0 => exact .inl late
    | c1 => exact .inr late
  rw [srcDownBody, setDown_dncnt, downProduces_count, if_pos ⟨rfl, slotProduced⟩]

/-- Settles O21: the three invocations give the channel its lane's period. -/
theorem downsampleClosedForm : Obligations.DownsampleClosedForm := by
  intro s t u v c x0 x1 x2 a b run ready start exe0 exe1 exe2
  obtain ⟨run1, ready1, par1, lane1⟩ := exec_srcDown_loaded run ready exe0
  obtain ⟨run2, ready2, par2, lane2⟩ := exec_srcDown_loaded run1 ready1 exe1
  obtain ⟨-, -, -, lane3⟩ := exec_srcDown_loaded run2 ready2 exe2
  rw [par1] at lane2
  rw [par2, par1] at lane3
  have last : (u.down.get c).dph = 2 := by rw [lane2, downLane_dph, lane1, downLane_dph, start]; rfl
  constructor
  · rw [lane3]
    exact downLane_period_dnout srcArith s.par a b x0 x1 x2 start lane1 lane2
  · rw [exec_srcDown 1 (by simpa using run2) (by simpa using ready2)] at exe2
    cases exe2
    exact srcDownBody_dncnt_emit srcArith (c := c) (by simp [setDnin_get, last])

end Sys2Proof.Machine
end

section
/-! The PLL controller, command by command (43_pll.md R199 to R208): what `PLL.INIT` leaves, the wait of `PLL.STEP`, the
priming cycle and the control cycle. -/

namespace Sys2Proof.Machine

/-! ### `PLL.INIT` (R199) -/

/-- The first `PLL.INIT` of an instance with the unit completes. -/
theorem exec_pllInit_first {s : State} (run : s.halted = false) (en : s.par.pllEn = true) (unready : s.pll.ready = false) :
    exec .pllInit s = .next (setPll (pllInitial s.par s.pll) s) := by
  rw [exec_pllInit run, if_neg (by simp [en, unready])]

/-- Settles O29: the command completes, and its update writes every register of the controller. -/
theorem pllInitEffect : Obligations.PllInitEffect := fun _ run en unready => exec_pllInit_first run en unready

/-! ### The wait of `PLL.STEP` (R202, R203) -/

/-- Settles O33: the command waits, and a wait without an edge is a hold. -/
theorem pllStepIsHeldWithoutEdge : Obligations.PllStepIsHeldWithoutEdge := by
  intro s run en ready noEdge
  rw [exec_pllStep_ready run en ready]
  obtain ⟨r, f, rest, edge, -⟩ | ⟨-, hold⟩ := awaitEdge_cases piFilter s
  · exact absurd edge (noEdge r f rest)
  · rw [hold]; rfl

/-- With the edge as the environment's next move the command completes: it takes the edge off the tape and runs a cycle. -/
theorem exec_pllStep_edge {s : State} {r f : Word} {rest : List Event} (run : s.halted = false)
    (en : s.par.pllEn = true) (ready : s.pll.ready = true) (edge : nextEnv s.tape = some (.refEdge r f, rest)) :
    exec .pllStep s = .next (setPll (pllCycle piFilter s.par r f s.pll) (setHold false (setTape rest s))) := by
  rw [exec_pllStep_ready run en ready, awaitEdge_edge piFilter edge]

theorem pllCycle_of_unprimed (F : LoopFilter) (p : Params) (r f : Word) {l : Pll} (unprimed : l.primed = false) :
    pllCycle F p r f l = primingCycle p (readCounter p r) (readCounter p f) l := by
  rw [pllCycle, if_neg (by simp [unprimed])]

theorem pllCycle_of_primed (F : LoopFilter) (p : Params) (r f : Word) {l : Pll} (primed : l.primed = true) :
    pllCycle F p r f l = controlCycle F p (readCounter p r) (readCounter p f) l := by
  rw [pllCycle, if_pos primed]

/-- After a cycle of either kind the controller is primed. -/
@[simp] theorem pllCycle_primed (F : LoopFilter) (p : Params) (r f : Word) (l : Pll) :
    (pllCycle F p r f l).primed = true := by
  cases primed : l.primed with
  | true => rw [pllCycle_of_primed _ _ _ _ primed]; exact primed
  | false => rw [pllCycle_of_unprimed _ _ _ _ primed]; rfl

/-! ### The priming cycle (R208) -/

/-- Settles O30: before `PRIMED` the cycle is the priming one; the loop's values are the invariant's. -/
theorem pllPrimingCycle : Obligations.PllPrimingCycle := by
  intro s r f rest run en ready unprimed edge
  constructor
  · rw [exec_pllStep_edge run en ready edge, pllCycle_of_unprimed _ _ _ _ unprimed]
    rfl
  · intro inv
    obtain ⟨err, integ, sel, count, lock, -⟩ := inv.pll.unprimed ready unprimed
    exact ⟨err, integ, sel, count, lock⟩

/-! ### The lock bookkeeping of one control cycle, for any loop filter (R205, R207 (b)) -/

/-- The lock is true after a cycle in the window that brings the count to `LOCK_COUNT`. -/
theorem controlCycle_lock_iff_count (F : LoopFilter) (c : Cfg) (r f : Word) (l : Pll) :
    (controlCycle F c.par r f l).lock = true ↔
      (phaseError c.par l.refAcc l.fbAcc r f).natAbs ≤ c.par.lockWindow ∧
        (controlCycle F c.par r f l).lockCnt.toNat = c.par.lockCount := by
  rw [controlCycle_lock, controlCycle_lockCnt]
  refine and_congr_right fun inWin => ?_
  rw [if_pos inWin]
  omega

/-- Settles O35: out of the window the count is 0 and the lock false (`controlCycle_lockCnt`,
`controlCycle_lock_iff_count`). -/
theorem outOfWindowDropsLock : Obligations.OutOfWindowDropsLock := by
  intro F c l r f
  refine ⟨fun out => ⟨?lock, ?count⟩, fun lock => ((controlCycle_lock_iff_count F c r f l).1 lock).2⟩
  case lock =>
    rw [← Bool.not_eq_true, controlCycle_lock_iff_count]
    exact fun inWin => out.not_ge inWin.1
  case count =>
    refine BitVec.eq_of_toNat_eq ?_
    rw [controlCycle_lockCnt, if_neg out.not_ge]
    rfl

/-! ### The control cycle whole (R204, R205) -/

theorem readCounter_toNat_cast (c : Cfg) (w : Word) :
    ((readCounter c.par w).toNat : Int) = w.toNat % 2 ^ c.par.cntW := by
  rw [readCounter_lt _ _ (cfg_cntW c).2]
  push_cast
  rfl

/-- The next integral as the clamp's maximum and minimum. -/
theorem integNext_eq (p : Params) (i e : Int) : integNext p i e = max (-(p.integMax : Int)) (min (i + e) p.integMax) :=
  clamp_eq _ _ _ (by omega)

/-- The selector as the clamp's maximum and minimum: a table of R6 is not empty. -/
theorem selNext_eq (c : Cfg) (e i2 : Int) :
    selNext c.par e i2 =
      max 0 (min (c.par.selNom + (c.par.kp * e + c.par.ki * i2) / 2 ^ c.par.gainShift) (c.par.lutLen - 1)) := by
  have len := cfg_lutLen c
  exact clamp_eq _ _ _ (by omega)

/-- The selector is stored without truncation (R40). -/
theorem controlCycle_sel_cast (c : Cfg) (r f : Word) (l : Pll) :
    ((controlCycle piFilter c.par r f l).sel.toNat : Int) =
      selNext c.par (phaseError c.par l.refAcc l.fbAcc r f)
        (integNext c.par l.integ.toInt (phaseError c.par l.refAcc l.fbAcc r f)) := by
  rw [controlCycle_sel, Int.toNat_of_nonneg (selNext_bounds c.legal.1 _ _).1]

/-- Settles O31: the primed command runs a control cycle on the counters' answers. Each number the statement names is the
value of one of the model's functions and is replaced by it; what a register then holds is that register's lemma. -/
theorem pllControlCycle : Obligations.PllControlCycle := by
  intro s r f rest run en ready primed edge
  rw [exec_pllStep_edge run en ready edge, pllCycle_of_primed _ _ _ _ primed]
  refine ⟨_, rfl, ?_⟩
  intro p m r' f' e
  have ref : ((readCounter p r).toNat : Int) = r' := readCounter_toNat_cast s.cfg r
  have fb : ((readCounter p f).toNat : Int) = f' := readCounter_toNat_cast s.cfg f
  have err : phaseError p s.pll.refAcc s.pll.fbAcc (readCounter p r) (readCounter p f) = e := by
    rw [phaseError, expected, progress, progress, ref, fb]
  clear_value e r' f'
  subst err
  intro i2
  have integ : integNext p s.pll.integ.toInt _ = i2 := integNext_eq p _ _
  clear_value i2
  subst integ
  intro u sel
  have selector : selNext p _ _ = sel := selNext_eq s.cfg _ _
  clear_value sel
  subst selector
  exact ⟨ref, fb, controlCycle_err .., controlCycle_integ .., controlCycle_sel_cast .., controlCycle_lockCnt ..,
    controlCycle_lock_iff_count .., rfl, rfl, ready, primed, rfl⟩

/-! ### The ranges (R196 (e)) -/

/-- The phase error is below 2^48 in size. -/
theorem phaseError_natAbs_lt (c : Cfg) (ra fa r f : Word) : (phaseError c.par ra fa r f).natAbs < 2 ^ 48 := by
  have bounds := phaseError_bounds c.par (cfg_ratioDen c) ra fa r f
  have top := errMax_lt c.par c.legal.2
  have pow : (2 : Int) ^ c.par.cntW ≤ 2 ^ 32 := pow_le_pow_right₀ (by norm_num) (cfg_cntW c).2
  omega

/-- A gain below 2^15 times a number of at most `b` in size. -/
theorem natAbs_gain_mul_le {k b : Nat} {x : Int} (gain : k < 2 ^ 15) (size : x.natAbs ≤ b) :
    ((k : Int) * x).natAbs ≤ 2 ^ 15 * b := by
  rw [Int.natAbs_mul, Int.natAbs_natCast]
  exact Nat.mul_le_mul gain.le size

/-- Settles O32: the proportional term is at most 2^63 and the integral term at most 2^62. -/
theorem pllSumsStayInRange : Obligations.PllSumsStayInRange := by
  intro c ra fa r f i2 integ
  have err := phaseError_natAbs_lt c ra fa r f
  have prop := natAbs_gain_mul_le (cfg_kp c) err.le
  have int := natAbs_gain_mul_le (cfg_ki c) (integ.trans (cfg_integMax c).le)
  refine ⟨err, ?_⟩
  omega

end Sys2Proof.Machine
end

section
/-! The lock over runs of control cycles (43_pll.md R207): for any loop filter the count tells how many of the last phase
errors were within the window, and the lock status is that the count is full. -/

namespace Sys2Proof.Machine

/-! ### The last cycles -/

theorem lastInWindow_zero (p : Params) (es : List Int) : lastInWindow p 0 es := by
  simp [lastInWindow]

/-- One more phase error: it is one of the last ones, and one fewer of those before it is. -/
theorem lastInWindow_concat (p : Params) (n : Nat) (es : List Int) (e : Int) :
    lastInWindow p (n + 1) (es ++ [e]) ↔ e.natAbs ≤ p.lockWindow ∧ lastInWindow p n es := by
  have start : (es ++ [e]).length - (n + 1) = es.length - n := by simp
  rw [lastInWindow, start, List.drop_append_of_le_length (Nat.sub_le ..)]
  simp [or_imp, forall_and, and_comm]

theorem cycles_concat (F : LoopFilter) (p : Params) (es : List (Word × Word)) (r f : Word) (l : Pll) :
    cycles F p (es ++ [(r, f)]) l = controlCycle F p r f (cycles F p es l) := by
  induction es generalizing l with
  | nil => rfl
  | cons x es ih => exact ih _

/-- The last phase error is taken from the snapshots that the cycles before it left. -/
theorem cycleErrors_concat (F : LoopFilter) (p : Params) (es : List (Word × Word)) (r f : Word) (l : Pll) :
    cycleErrors p l.refAcc l.fbAcc (es ++ [(r, f)]) =
      cycleErrors p l.refAcc l.fbAcc es ++ [phaseError p (cycles F p es l).refAcc (cycles F p es l).fbAcc r f] := by
  induction es generalizing l with
  | nil => rfl
  | cons x es ih => exact congrArg (phaseError p l.refAcc l.fbAcc x.1 x.2 :: ·) (ih (controlCycle F p x.1 x.2 l))

/-! ### The count and the lock -/

/-- From a count of 0: the count is `n` or more, `n` at most `LOCK_COUNT`, when `n` cycles ran and the last `n` were within
the window (R207 (a)). -/
theorem le_lockCnt_cycles_iff (F : LoopFilter) (c : Cfg) {l : Pll} (start : l.lockCnt = 0) (es : List (Word × Word))
    {n : Nat} (le : n ≤ c.par.lockCount) :
    n ≤ (cycles F c.par es l).lockCnt.toNat ↔
      n ≤ es.length ∧ lastInWindow c.par n (cycleErrors c.par l.refAcc l.fbAcc es) := by
  induction es using List.reverseRecOn generalizing n with
  | nil => simp [cycles, cycleErrors, start, lastInWindow]
  | append_singleton es x ih =>
    cases n with
    | zero => exact iff_of_true (Nat.zero_le _) ⟨Nat.zero_le _, lastInWindow_zero _ _⟩
    | succ n =>
      rw [cycleErrors_concat F, lastInWindow_concat, cycles_concat, controlCycle_lockCnt, List.length_append,
        List.length_singleton, Nat.add_le_add_iff_right, and_left_comm, ← ih (by omega)]
      split_ifs with inWin
      · simp only [inWin, true_and]; omega
      · simp [inWin]

/-- The lock status says that the count is full. -/
def LockIsFullCount (p : Params) (l : Pll) : Prop := l.lock = true ↔ p.lockCount ≤ l.lockCnt.toNat

/-- A control cycle leaves it so, whatever was before: out of the window the count is 0 and `LOCK_COUNT` is not. -/
theorem lockIsFullCount_controlCycle (F : LoopFilter) (c : Cfg) (r f : Word) (l : Pll) :
    LockIsFullCount c.par (controlCycle F c.par r f l) := by
  have pos := (cfg_lockCount c).1
  rw [LockIsFullCount, controlCycle_lock, controlCycle_lockCnt]
  split_ifs with inWin
  · simp only [inWin, true_and]; omega
  · simp only [inWin, false_and, false_iff]; omega

theorem lockIsFullCount_cycles (F : LoopFilter) (c : Cfg) (es : List (Word × Word)) {l : Pll}
    (start : LockIsFullCount c.par l) : LockIsFullCount c.par (cycles F c.par es l) := by
  induction es generalizing l with
  | nil => exact start
  | cons x es ih => exact ih (lockIsFullCount_controlCycle F c x.1 x.2 l)

/-- Settles O36: the lock is the full count, and the count is that of the last cycles in the window. -/
theorem lockIsEarnedUnderAnyFilter : Obligations.LockIsEarnedUnderAnyFilter := by
  intro F c l es count lock
  have start : LockIsFullCount c.par l := by
    simpa [LockIsFullCount, count, lock] using Nat.one_le_iff_ne_zero.1 (cfg_lockCount c).1
  exact (lockIsFullCount_cycles F c es start).trans (le_lockCnt_cycles_iff F c count es le_rfl)

/-! ### Runs of the machine -/

/-- One command of a run: the edge put before it makes it complete, with a cycle. -/
theorem cycle_of_exec_pllStep {s t : State} {r f : Word} {rest : List Event}
    (exe : exec .pllStep (setTape (.refEdge r f :: rest) s) = .next t) (run : s.halted = false)
    (en : s.par.pllEn = true) (ready : s.pll.ready = true) :
    t.halted = false ∧ t.par = s.par ∧ t.pll = pllCycle piFilter s.par r f s.pll := by
  cases exe.symm.trans (exec_pllStep_edge (s := setTape (.refEdge r f :: rest) s) run en ready rfl)
  exact ⟨run, rfl, rfl⟩

/-- A primed controller runs through `PLL.STEP` commands that each meet an edge as through control cycles with the counters'
answers (R202). -/
theorem pllRun_of_primed {s u : State} {es : List (Word × Word)} (steps : PllRun s es u) (run : s.halted = false)
    (en : s.par.pllEn = true) (ready : s.pll.ready = true) (primed : s.pll.primed = true) :
    u.pll = cycles piFilter s.par (es.map fun x => (readCounter s.par x.1, readCounter s.par x.2)) s.pll := by
  induction steps with
  | nil => rfl
  | cons rest exe _ ih =>
    obtain ⟨run', par, pll⟩ := cycle_of_exec_pllStep exe run en ready
    rw [ih run' (by rwa [par]) (by rw [pll, pllCycle_ready, ready]) (by rw [pll, pllCycle_primed]), par, pll,
      pllCycle_of_primed _ _ _ _ primed]
    rfl

/-- `PLL.INIT` and the priming command leave the loop's initial values under the first snapshots (R199, R208). -/
theorem primingCycle_of_exec_pllInit {s t u : State} {r f : Word} {rest : List Event}
    (init : exec .pllInit s = .next t) (prime : exec .pllStep (setTape (.refEdge r f :: rest) t) = .next u)
    (run : s.halted = false) (en : s.par.pllEn = true) (unready : s.pll.ready = false) :
    u.halted = false ∧ u.par = s.par ∧
      u.pll = primingCycle s.par (readCounter s.par r) (readCounter s.par f) (pllInitial s.par s.pll) := by
  cases init.symm.trans (exec_pllInit_first run en unready)
  exact cycle_of_exec_pllStep prime run en rfl

/-- Settles O37: `PLL.INIT` and the priming cycle leave no lock and a count of 0; from there on the run is control cycles, of
which O36 speaks. -/
theorem lockFollowsTheLastCycles : Obligations.LockFollowsTheLastCycles := by
  intro s t u r f es run en unready init steps
  cases steps with
  | cons rest prime steps =>
    obtain ⟨run', par, pll⟩ := primingCycle_of_exec_pllInit init prime run en unready
    have last := pllRun_of_primed steps run' (by rwa [par]) (pll ▸ rfl) (pll ▸ rfl)
    rw [par] at last
    rw [last, lockIsEarnedUnderAnyFilter piFilter s.cfg _ _ (pll ▸ rfl) (pll ▸ rfl), List.length_map, pll]
    rfl

end Sys2Proof.Machine
end

section
/-! The contract checks and `HALT` (44_checks_and_halt.md R231, R234, R237) in a running state: the state each leaves, by its
operands. -/

namespace Sys2Proof.Machine

/-- `XFER.CHK` compares the frame size, then the channel count (R231). -/
theorem exec_xferChk_eq (ch len : Nat) {s : State} (run : s.halted = false) :
    exec (.xferChk ch len) s = .next (if len ≠ s.par.frameCount then raiseFatal causeFrameSize s
      else if ch ≠ 2 then raiseFatal causeChannelCount s else s) := by
  rw [exec_xferChk ch len run, operandFault, nch]
  split_ifs <;> rfl

/-- `XT.CHK` lets only the expected length pass (R234). -/
theorem exec_xtChk_eq (bytes : Nat) {s : State} (run : s.halted = false) :
    exec (.xtChk bytes) s = .next (if bytes = s.par.xtFrameBytes then s else raiseFatal causeXtileDesync s) := by
  rw [exec_xtChk bytes run, operandFault, ite_not]
  split_ifs <;> rfl

/-- `HALT` with a cause that is a code is fatal with it (R237). -/
theorem exec_halt_cause {cause : Nat} (ne : cause ≠ 0) {s : State} (run : s.halted = false) :
    exec (.halt cause) s = .next (raiseFatal (BitVec.ofNat 4 cause) s) := by
  rw [exec_halt cause run, operandFault, if_neg ne]
  rfl

/-- Settles O38: the two comparisons in their order. -/
theorem xferChkEffect : Obligations.XferChkEffect := by
  intro s ch len
  refine ⟨exec_halted _, fun run => ?_⟩
  rw [exec_xferChk_eq ch len run]
  refine ⟨fun size => ?_, fun size count => ?_, fun size count => ?_⟩
  · rw [if_pos size]; rfl
  · rw [if_neg (not_not.2 size), if_pos count]; rfl
  · rw [if_neg (not_not.2 size), if_neg (not_not.2 count)]

/-- Settles O39: the one comparison. -/
theorem xtChkEffect : Obligations.XtChkEffect := by
  intro s bytes
  refine ⟨exec_halted _, fun run => ?_⟩
  rw [exec_xtChk_eq bytes run]
  exact ⟨fun size => by rw [if_neg size]; rfl, fun size => by rw [if_pos size]⟩

/-- Settles O40: operand 0 is cause 5, and any other operand in range is its own cause. -/
theorem haltEffect : Obligations.HaltEffect := by
  intro s k range
  refine ⟨exec_halted _, fun run => ?_⟩
  by_cases zero : k = 0
  · subst zero
    exact ⟨_, exec_halt 0 run, rfl, rfl, rfl⟩
  · refine ⟨_, exec_halt_cause zero run, rfl, ?_, rfl⟩
    rw [raiseFatal_cause, if_neg zero, BitVec.toNat_ofNat, Nat.mod_eq_of_lt (by omega)]

end Sys2Proof.Machine
end

section
/-! The cross-tile transport (45_environment.md R262 to R264, 60_exceptions.md R301): its senders and the router core's receiver
leave the block alone, and the receiver on the block's core checks an announced length with `XT.CHK` before it reads the
payload. -/

namespace Sys2Proof.Machine

/-! ### Moves that leave the block alone (R301) -/

theorem sendToRouter_state (site : Site) (expired : Bool) (a : Audio) :
    (sendToRouter site expired a).audio.whole.state = a.whole.state := by
  unfold sendToRouter
  dsimp only
  split_ifs <;> rfl

theorem sendToBus_state (site : Site) (expired : Bool) (a : Audio) :
    (sendToBus site expired a).audio.whole.state = a.whole.state := by
  unfold sendToBus
  dsimp only
  split_ifs <;> rfl

theorem takeAtRouter_state (site : Site) (expired : Bool) (a : Audio) :
    (takeAtRouter site expired a).audio.whole.state = a.whole.state := by
  unfold takeAtRouter
  dsimp only
  split_ifs
  · rfl
  · cases a.leftAtRouter <;> rfl

/-! ### The receiver on the block's core (R263) -/

theorem andThen_eq_next {α β : Type} {o : Host.Outcome α Fault Refusal} {f : α → Host.Outcome β Fault Refusal} {b : β}
    (h : andThen o f = .next b) : ∃ a, o = .next a ∧ f a = .next b := by
  cases o with
  | next a => exact ⟨a, rfl, h⟩
  | fault | refused => cases h

/-- A turn keeps the block, or is the check of an announced length. -/
theorem receiverTurn_state {k : Capabilities} {expired : Bool} {r : Receiver} {s : State} {d : ReceiverDone}
    (turn : receiverTurn k expired r s = .next d) : d.state = s ∨ ∃ len, perform [announceEvent len] s = .next d.state := by
  unfold receiverTurn at turn
  split at turn
  · cases turn
    exact .inl rfl
  · cases check : r.toCheck with
    | none =>
      rw [check] at turn
      cases turn
      exact .inl rfl
    | some message =>
      rw [check] at turn
      obtain ⟨t, run, done⟩ := andThen_eq_next turn
      cases done
      exact .inr ⟨_, run⟩

/-- So does a move of the receiver: a slot to the ring keeps the block, and so does waiting. -/
theorem takeAtBus_state {site : Site} {expired : Bool} {a : Audio} {d : AudioDone}
    (take : takeAtBus site expired a = .next d) :
    d.audio.whole.state = a.whole.state ∨ ∃ len, perform [announceEvent len] a.whole.state = .next d.audio.whole.state := by
  unfold takeAtBus at take
  dsimp only at take
  split at take
  · cases take
    exact .inl rfl
  · cases left : a.leftAtBus with
    | cons x xs =>
      rw [left] at take
      cases take
      exact .inl rfl
    | nil =>
      rw [left] at take
      dsimp only at take
      split at take
      · cases take
        exact .inl rfl
      · obtain ⟨r, turn, done⟩ := andThen_eq_next take
        cases done
        exact receiverTurn_state turn

/-! ### The check of an announced length (R234, R263) -/

theorem cfg_xtFrameBytes (c : Cfg) : 1 ≤ c.par.xtFrameBytes ∧ c.par.xtFrameBytes < 2 ^ 24 := by
  obtain ⟨-, -, range, -⟩ := c.legal
  exact range

/-- The operand 0 that stands for a length of 2^24 or more is not the expected length either (R6, log entry 17). -/
theorem announcedOperand_eq_iff (c : Cfg) (len : Nat) :
    (if len < 2 ^ 24 then len else 0) = c.par.xtFrameBytes ↔ len = c.par.xtFrameBytes := by
  have range := cfg_xtFrameBytes c
  split_ifs <;> omega

/-- The issue of a well-formed command by `HOT` runs it. -/
theorem perform_wellFormed {s : State} {i : Instr} (wf : i.WellFormed) (free : s.hold = false) (run : s.halted = false) :
    perform [wrCmd (encode i)] s = exec i s := perform_command free run (decodeOfEncode i wf)

/-- An announced length passes if it is the expected one, and is fatal otherwise. -/
theorem perform_announce (len : Nat) {s : State} (free : s.hold = false) (run : s.halted = false) :
    perform [announceEvent len] s =
      .next (if len = s.par.xtFrameBytes then s else raiseFatal causeXtileDesync s) := by
  have wf : (Instr.xtChk (if len < 2 ^ 24 then len else 0)).WellFormed :=
    decide_eq_true (by split_ifs <;> omega)
  rw [announceEvent, perform_wellFormed wf free run, exec_xtChk_eq _ run]
  simp only [announcedOperand_eq_iff]

/-- The first four bytes of a message announce its length, whatever has arrived of the rest (R264). -/
theorem announced_take_wireBytes (blob got : List Byte) (h : blob.length < 2 ^ 32) :
    announced ((wireBytes blob).take 4 ++ got) = some (blob.length, got) := by
  simp only [wireBytes, List.cons_append, List.nil_append, List.take_succ_cons, List.take_zero, announced,
    BitVec.toNat_ofNat]
  congr 2
  omega

theorem wireBytes_length (blob : List Byte) : (wireBytes blob).length = 4 + blob.length := by
  simp [wireBytes]
  omega

section
variable {k : Capabilities} {s : State}

/-- On a running cross-tile device a turn without a length to check is a read. -/
theorem receiverTurn_reads {r : Receiver} (expired : Bool) (tiles : k.announces = true) (run : s.halted = false)
    (check : r.toCheck = none) :
    receiverTurn k expired r s = .next ⟨(r.read expired).1, (r.read expired).2, s⟩ := by
  simp [receiverTurn, run, tiles, check]

/-- A halted core's receiver does nothing. -/
theorem receiverTurn_halted (k : Capabilities) (expired : Bool) (r : Receiver) (halted : s.halted = true) :
    receiverTurn k expired r s = .next ⟨r, none, s⟩ := by
  simp [receiverTurn, halted]

/-- A turn that finds an announced length checks it. -/
theorem receiverTurn_checks {bytes rest : List Byte} {len : Nat} (expired : Bool) (tiles : k.announces = true)
    (free : s.hold = false) (run : s.halted = false) (message : announced bytes = some (len, rest)) :
    receiverTurn k expired ⟨.awaitsLength, bytes⟩ s = .next (
      if len = s.par.xtFrameBytes then ⟨⟨.reads len, rest⟩, none, s⟩
      else ⟨⟨.stopped, rest⟩, none, raiseFatal causeXtileDesync s⟩) := by
  have check : Receiver.toCheck ⟨.awaitsLength, bytes⟩ = some (len, rest) := message
  simp only [receiverTurn, run, tiles, check, Bool.not_true, Bool.or_self, Bool.false_eq_true, if_false,
    perform_announce len free run, andThen_next]
  split_ifs <;> simp [afterCheck, run]

/-- The whole payload is read once it has arrived. -/
theorem receiverTurn_payload (blob more : List Byte) (expired : Bool) (tiles : k.announces = true)
    (run : s.halted = false) :
    receiverTurn k expired ⟨.reads blob.length, blob ++ more⟩ s = .next ⟨⟨.awaitsLength, more⟩, some blob, s⟩ := by
  rw [receiverTurn_reads expired tiles run Receiver.toCheck_reads]
  simp [Receiver.read]

/-- Before, the receiver waits, or gives up when its bounded wait is over (C5). -/
theorem receiverTurn_partial {got : List Byte} {len : Nat} (expired : Bool) (tiles : k.announces = true)
    (run : s.halted = false) (short : got.length < len) :
    receiverTurn k expired ⟨.reads len, got⟩ s =
      .next ⟨⟨if expired then .timedOut else .reads len, got⟩, none, s⟩ := by
  rw [receiverTurn_reads expired tiles run Receiver.toCheck_reads]
  simp [Receiver.read, Nat.not_le.2 short]

end

/-! ### A frame from the router's core to the driver (R262) -/

/-- A message that is all a link carries arrives whole. -/
theorem deliver_wireBytes (blob : List Byte) :
    Link.deliver (4 + blob.length) ⟨wireBytes blob, {}⟩ = ⟨[], ⟨.awaitsLength, wireBytes blob⟩⟩ := by
  simp [Link.deliver, ← wireBytes_length]

section
variable {k : Capabilities} {expired : Bool} {d : Device} {s : State}

/-- What the receiver on the bus's core does with its turn: the payload's slots go to the driver's transmit ring. -/
theorem receiveAtBus_eq {r : ReceiverDone} (lay : BlobLayout) (room : Nat)
    (turn : receiverTurn k expired d.toBus.receiver s = .next r) :
    receiveAtBus k lay expired room ⟨d, s⟩ = .next ⟨{ d with
      driver := { d.driver with tx := appendWithin room d.driver.tx (lay.slots r.blob) }
      toBus := { d.toBus with receiver := r.receiver } }, r.state⟩ := by
  rw [receiveAtBus]
  dsimp only
  rw [turn, andThen_next]

/-- A message of the expected size passes the check. -/
theorem receiveAtBus_message {blob : List Byte} (lay : BlobLayout) (room : Nat) (tiles : k.announces = true)
    (free : s.hold = false) (run : s.halted = false) (size : blob.length = s.par.xtFrameBytes)
    (arrived : d.toBus.receiver = ⟨.awaitsLength, wireBytes blob⟩) :
    receiveAtBus k lay expired room ⟨d, s⟩ =
      .next ⟨{ d with toBus := { d.toBus with receiver := ⟨.reads blob.length, blob⟩ } }, s⟩ := by
  have range := cfg_xtFrameBytes s.cfg
  have announce := announced_wireBytes blob [] (by rw [size]; exact range.2.trans (by decide))
  rw [List.append_nil, List.append_nil] at announce
  have turn := receiverTurn_checks expired tiles free run announce
  rw [if_pos size, ← arrived] at turn
  rw [receiveAtBus_eq lay room turn]
  simp [BlobLayout.slots]

/-- A payload that has arrived goes to the driver's transmit ring as far as it has room. -/
theorem receiveAtBus_payload {blob : List Byte} (lay : BlobLayout) (room : Nat) (tiles : k.announces = true)
    (run : s.halted = false) (arrived : d.toBus.receiver = ⟨.reads blob.length, blob⟩) :
    receiveAtBus k lay expired room ⟨d, s⟩ = .next ⟨{ d with
      driver := { d.driver with tx := appendWithin room d.driver.tx (lay.unpack blob) }
      toBus := { d.toBus with receiver := {} } }, s⟩ := by
  have turn := receiverTurn_payload (k := k) (s := s) blob [] expired tiles run
  rw [List.append_nil, ← arrived] at turn
  rw [receiveAtBus_eq lay room turn]
  rfl

end

theorem announces_of {k : Capabilities} (bus : k.bus = true) (tiles : k.crossTile = true) : k.announces = true := by
  simp [Capabilities.announces, bus, tiles]

theorem forwardToRouter_eq {k : Capabilities} (lay : BlobLayout) (p : Params) (expired : Bool) (d : Device)
    (tiles : k.announces = true) : forwardToRouter k lay p expired false d =
      ⟨some (if expired then .expired else .sent),
        { d with
          driver := { d.driver with rx := d.driver.rx.drop p.frameCount }
          toRouter := if expired then d.toRouter else { d.toRouter with
            inFlight := d.toRouter.inFlight ++
              wireBytes (lay.pack p.xtFrameBytes (wholeFrame p.frameCount d.driver.rx)) } }⟩ := by
  cases expired <;> simp [forwardToRouter, tiles, send]

theorem forwardToBus_eq {k : Capabilities} (lay : BlobLayout) (p : Params) (expired : Bool) {d : Device}
    (tiles : k.announces = true) (run : d.routerHalted = false) : forwardToBus k lay p expired d =
      ⟨some (if expired then .expired else .sent),
        { d with
          router := { d.router with tx := d.router.tx.drop p.frameCount }
          toBus := if expired then d.toBus else { d.toBus with
            inFlight := d.toBus.inFlight ++
              wireBytes (lay.pack p.xtFrameBytes (wholeFrame p.frameCount d.router.tx)) } }⟩ := by
  cases expired <;> simp [forwardToBus, tiles, run, send]

/-- A frame sent over an idle link reaches the driver's transmit ring in two turns of the receiver: the check, and the read
of the payload. -/
theorem frame_reaches_driver {k : Capabilities} {s : State} {lay : BlobLayout} {d : Device} (expired : Bool) (room : Nat)
    (tiles : k.announces = true) (free : s.hold = false) (run : s.halted = false)
    (carries : lay.Carries s.par.frameCount s.par.xtFrameBytes) (runs : d.routerHalted = false) (idle : d.toBus = {})
    (frame : s.par.frameCount ≤ d.router.tx.length) :
    ∃ sent checked, forwardToBus k lay s.par false d = ⟨some .sent, sent⟩ ∧
      receiveAtBus k lay expired room ⟨{ sent with toBus := sent.toBus.deliver (4 + s.par.xtFrameBytes) }, s⟩ =
        .next ⟨checked, s⟩ ∧
      receiveAtBus k lay expired room ⟨checked, s⟩ = .next
        ⟨{ d with
          driver := { d.driver with
            tx := d.driver.tx ++ (d.router.tx.take s.par.frameCount).take (room - d.driver.tx.length) }
          router := { d.router with tx := d.router.tx.drop s.par.frameCount } }, s⟩ := by
  obtain ⟨blob, packed⟩ : ∃ blob, lay.pack s.par.xtFrameBytes (wholeFrame s.par.frameCount d.router.tx) = blob :=
    ⟨_, rfl⟩
  have size : blob.length = s.par.xtFrameBytes := packed ▸ lay.fixed _ _
  have unpacked : lay.unpack blob = d.router.tx.take s.par.frameCount := by
    rw [← packed, carries _ (wholeFrame_length _ _), wholeFrame_eq_take frame]
  refine ⟨
    { d with
      router := { d.router with tx := d.router.tx.drop s.par.frameCount }
      toBus := ⟨wireBytes blob, {}⟩ },
    { d with
      router := { d.router with tx := d.router.tx.drop s.par.frameCount }
      toBus := ⟨[], ⟨.reads blob.length, blob⟩⟩ },
    ?sent, ?checked, ?read⟩
  case sent =>
    rw [forwardToBus_eq lay s.par false tiles runs, packed, idle]
    rfl
  case checked =>
    rw [← size, deliver_wireBytes]
    exact receiveAtBus_message lay room tiles free run size rfl
  case read =>
    rw [receiveAtBus_payload (blob := blob) lay room tiles run rfl, unpacked, idle]
    rfl

/-- Settles O58: which moves can reach the block, then the send, the wait, the check and the payload in turn, and the two turns
that a frame takes to the driver's ring. -/
theorem crossTileLengthIsChecked : Obligations.CrossTileLengthIsChecked := by
  refine ⟨fun site a expired n => ⟨?moves, fun d => takeAtBus_state⟩, fun k expired s bus crossTile free run =>
    ⟨fun lay d => ⟨fun ring => lay.fixed _ _, ?toRouter, fun runs => ?toBus⟩, fun bytes few => ?wait,
      fun blob more short => ⟨fun wrong => ?fatal, fun right => ⟨fun got => ?pass, fun got few => ?partly, ?payload⟩⟩,
      fun lay d room carries runs idle frame => ?frame⟩⟩
  case moves =>
    simp only [List.forall_mem_cons]
    exact ⟨⟨_, rfl, sendToRouter_state site expired a⟩, ⟨_, rfl, sendToBus_state site expired a⟩,
      ⟨_, rfl, takeAtRouter_state site expired a⟩, ⟨_, rfl, rfl⟩, ⟨_, rfl, rfl⟩, nofun⟩
  all_goals have tiles := announces_of bus crossTile
  case toRouter =>
    rw [run, forwardToRouter_eq lay s.par expired d tiles]
    rfl
  case toBus =>
    rw [forwardToBus_eq lay s.par expired tiles runs]
    rfl
  case wait => exact receiverTurn_reads expired tiles run (announced_short few)
  case fatal =>
    have check := receiverTurn_checks expired tiles free run (announced_wireBytes blob more short)
    rw [if_neg wrong] at check
    exact ⟨_, rfl, check, receiverTurn_halted k expired _ rfl⟩
  case pass =>
    rw [receiverTurn_checks expired tiles free run (announced_take_wireBytes blob got short), if_pos right]
  case partly => exact receiverTurn_partial expired tiles run few
  case payload => exact receiverTurn_payload blob more expired tiles run
  case frame => exact frame_reaches_driver expired room tiles free run carries runs idle frame

end Sys2Proof.Machine
end

section
/-! The contract of a frame exchange and of the router's callbacks (44_checks_and_halt.md R232, 45_environment.md R260): what
the check of an exchange and the software's `HALT` leave, and which callbacks of a capture or a dispatch break the contract, in
one piece and in the moves of the router's task. -/

namespace Sys2Proof.Machine

/-! ### The check of an exchange (R231, R232) -/

theorem cfg_frameCount (c : Cfg) : 1 ≤ c.par.frameCount ∧ c.par.frameCount ≤ 65535 := by
  obtain ⟨-, range, -⟩ := c.legal
  exact range

/-- The operand 0 that stands for a frame size above 65535 is not the configured one either (R6, log entry 19). -/
theorem exchangeSize_eq_iff (c : Cfg) (len : Nat) :
    (if len ≤ 65535 then len else 0) = c.par.frameCount ↔ len = c.par.frameCount := by
  have range := cfg_frameCount c
  split_ifs <;> omega

/-- Nor is the operand 0 that stands for a channel count above 15 the count 2. -/
theorem exchangeChannels_eq_iff (ch : Nat) : (if ch ≤ 15 then ch else 0) = 2 ↔ ch = 2 := by
  split_ifs with fits
  · rfl
  · exact iff_of_false (by decide) (by omega)

/-- A step with the check of an exchange (R289). -/
theorem step_exchange {s : State} {ch len : Nat} {rest : List Event} (free : s.hold = false) (run : s.halted = false)
    (tape : s.tape = exchangeEvent ch len :: rest) :
    step s = .next (if len ≠ s.par.frameCount then raiseFatal causeFrameSize (setTape rest s)
      else if ch ≠ 2 then raiseFatal causeChannelCount (setTape rest s) else setTape rest s) := by
  have wf : (Instr.xferChk (if ch ≤ 15 then ch else 0) (if len ≤ 65535 then len else 0)).WellFormed :=
    decide_eq_true (by constructor <;> split_ifs <;> omega)
  rw [stepRunsTheCommand s _ _ rest free run tape (decodeOfEncode _ wf)]
  refine (exec_xferChk_eq _ _ (s := setTape rest s) run).trans ?_
  simp only [ne_eq, exchangeSize_eq_iff, exchangeChannels_eq_iff, setTape_cfg]

/-! ### A contract violation on the block's core (R280 (1)) -/

/-- Software's fatal assertion with a cause that is a code (R237). -/
theorem perform_softwareFatal {cause : Nat} {s : State} (code : 1 ≤ cause ∧ cause ≤ 15) (free : s.hold = false)
    (run : s.halted = false) : perform (softwareFatal cause) s = .next (raiseFatal (BitVec.ofNat 4 cause) s) := by
  have wf : (Instr.halt cause).WellFormed := decide_eq_true code.2
  rw [softwareFatal, perform_wellFormed wf free run, exec_halt_cause (by omega) run]

section
variable {k : Capabilities} {d : Device} {s : State}

theorem oneCore_of (bus : k.bus = true) (single : k.crossTile = false) : k.oneCore = true := by
  simp [Capabilities.oneCore, bus, single]

/-- Where one core has both, a violation halts the block. -/
theorem failAtRouter_oneCore {cause : Nat} (one : k.oneCore = true) (code : 1 ≤ cause ∧ cause ≤ 15)
    (free : s.hold = false) (run : s.halted = false) :
    failAtRouter k cause ⟨d, s⟩ = .next ⟨d, raiseFatal (BitVec.ofNat 4 cause) s⟩ := by
  rw [failAtRouter, if_pos one, perform_softwareFatal code free run, andThen_next]

theorem routerStopped_oneCore (one : k.oneCore = true) : Whole.routerStopped k ⟨d, s⟩ = s.halted := by
  rw [Whole.routerStopped, if_pos one]

theorem setRouterRings_oneCore (one : k.oneCore = true) (r : Rings) : d.setRouterRings k r = { d with driver := r } := by
  rw [Device.setRouterRings, if_pos one]

/-! ### Dispatch callbacks (R260) -/

/-- Another frame size than `f`, in the call or in the buffer. -/
theorem drainFault_size {f : Nat} {n : Counts} {o : OutputFrame} (size : n.frames ≠ f ∨ ¬ o.Fits f) :
    drainFault f n o = some 1 := by rw [drainFault, if_pos size]

/-- Another channel count than the six of an output frame. -/
theorem drainFault_channels {f : Nat} {n : Counts} {o : OutputFrame} (size : n.frames = f) (fits : o.Fits f)
    (channels : n.channels ≠ 6) : drainFault f n o = some 2 := by
  rw [drainFault, if_neg (not_or.2 ⟨not_not.2 size, not_not.2 fits⟩), if_pos channels]

/-- A dispatch callback that breaks the contract halts the block. -/
theorem routerDispatch_violation {n : Counts} {o : OutputFrame} {cause : Nat} (fmt : BusFormat) (room : Nat)
    (sel : SourceSinkSelection) (ready : Sink → Bool) (one : k.oneCore = true) (free : s.hold = false)
    (run : s.halted = false) (fault : drainFault s.par.frameCount n o = some cause) (code : 1 ≤ cause ∧ cause ≤ 15) :
    routerDispatch k fmt room sel ready n o ⟨d, s⟩ =
      .next ⟨some (.error cause), d, raiseFatal (BitVec.ofNat 4 cause) s⟩ := by
  rw [routerDispatch, routerStopped_oneCore one, run, if_neg Bool.false_ne_true]
  simp only [dispatch, fault, failAtRouter_oneCore one code free run, andThen_next]

/-! ### Captures (R256, R260) -/

/-- A microphone array that did not populate whole channels gives no input frame, whatever is laid over it. -/
theorem assemble_violation {f : Nat} {mic : InputFrame} (sel : SourceSinkSelection) (bus : Group) (ext : InputFrame)
    (short : ¬ mic.Fits f) : assemble k f sel mic bus ext = none := if_neg fun fits => short fits.1

/-- Such a capture halts the block. -/
theorem routerCapture_violation {mic : InputFrame} (sel : SourceSinkSelection) (rest : List (Option InputFrame))
    (ext : InputFrame) (one : k.oneCore = true) (free : s.hold = false) (run : s.halted = false)
    (short : ¬ mic.Fits s.par.frameCount) :
    routerCapture k sel (some mic :: rest) ext ⟨d, s⟩ = .next ⟨some .violation, d, raiseFatal causeFrameSize s⟩ := by
  rw [routerCapture, routerStopped_oneCore one, run, if_neg Bool.false_ne_true]
  simp only [capture, drainMic, assemble_violation sel _ ext short,
    failAtRouter_oneCore (cause := 1) one (by decide) free run, andThen_next]
  rfl

/-- A capture of whole channels completes, whatever the receive ring holds, and leaves the block alone. -/
theorem routerCapture_fits {mic ext : InputFrame} (sel : SourceSinkSelection) (rest : List (Option InputFrame))
    (one : k.oneCore = true) (run : s.halted = false) (whole : mic.Fits s.par.frameCount)
    (wholeExt : ext.Fits s.par.frameCount) :
    ∃ i g, routerCapture k sel (some mic :: rest) ext ⟨d, s⟩ =
      .next ⟨some (.frame i rest g), { d with driver := g }, s⟩ := by
  obtain ⟨i, g, frame⟩ := capture_fits (k := k) sel rest (d.routerRings k) whole wholeExt
  refine ⟨i, g, ?_⟩
  rw [routerCapture, routerStopped_oneCore one, run, if_neg Bool.false_ne_true]
  simp only [frame, setRouterRings_oneCore one]

end

/-! ### The same in the moves of the router's task (R265) -/

section
variable {site : Site} {a : Audio} {inp : RouterInput}

/-- A violation in a move of the task halts the block, where one core has both. -/
theorem routerViolates_oneCore {k : Capabilities} {cause : Nat} (one : k.oneCore = true) (code : 1 ≤ cause ∧ cause ≤ 15)
    (free : a.whole.state.hold = false) (run : a.whole.state.halted = false) :
    routerViolates k cause a = .next ⟨.nothing, a.setState (raiseFatal (BitVec.ofNat 4 cause) a.whole.state)⟩ := by
  rw [routerViolates, free, Bool.and_false, if_neg Bool.false_ne_true, failAtRouter_oneCore one code free run,
    andThen_next]
  rfl

/-- The call of the dispatch callback. -/
theorem move_router_drain_violation {n : Counts} {o : OutputFrame} {cause : Nat} (one : site.caps.oneCore = true)
    (loop : a.stage = .audioLoop) (free : a.whole.state.hold = false) (run : a.whole.state.halted = false)
    (phase : a.router = .awaitsProcessing) (processed : inp.processed = some (n, o))
    (fault : drainFault a.whole.state.par.frameCount n o = some cause) (code : 1 ≤ cause ∧ cause ≤ 15) :
    move site (.router inp) a =
      .next ⟨.nothing, a.setState (raiseFatal (BitVec.ofNat 4 cause) a.whole.state)⟩ := by
  rw [routerMove_runs loop ((routerStopped_oneCore one).trans run), phase]
  simp only [drainMove, processed, fault, routerViolates_oneCore one code free run]

theorem move_router_overlay {mic : InputFrame} {taken : List Slot} (one : site.caps.oneCore = true)
    (loop : a.stage = .audioLoop) (run : a.whole.state.halted = false) (phase : a.router = .overlays mic taken) :
    move site (.router inp) a = overlayMove site inp mic taken a := by
  rw [routerMove_runs loop ((routerStopped_oneCore one).trans run), phase]

/-- A frame that the bus feeds and that has all its slots takes no more of them from the receive ring. -/
theorem overlay_takes_no_slot {k : Capabilities} {taken : List Slot}
    (all : feedsBus k a.selection = true → taken.length = a.whole.state.par.frameCount) :
    ¬ (feedsBus k a.selection && decide (taken.length < a.whole.state.par.frameCount)) = true := by
  rw [Bool.and_eq_true, decide_eq_true_eq, not_and]
  exact fun feeds => (all feeds).not_lt

/-- Once no slot is lacking the frame is assembled: it goes to the external processing, or the capture is a violation. -/
theorem overlayMove_frame {mic i : InputFrame} {taken : List Slot}
    (all : feedsBus site.caps a.selection = true → taken.length = a.whole.state.par.frameCount)
    (frame : assemble site.caps a.whole.state.par.frameCount a.selection mic (groupOfSlots taken) inp.ext = some i) :
    overlayMove site inp mic taken a = .next ⟨.toPipeline i, a.setRouter .awaitsProcessing⟩ := by
  rw [overlayMove]
  dsimp only
  rw [if_neg (overlay_takes_no_slot all), frame]

theorem overlayMove_violation {mic : InputFrame} {taken : List Slot}
    (all : feedsBus site.caps a.selection = true → taken.length = a.whole.state.par.frameCount)
    (noFrame : assemble site.caps a.whole.state.par.frameCount a.selection mic (groupOfSlots taken) inp.ext = none) :
    overlayMove site inp mic taken a = routerViolates site.caps 1 a := by
  rw [overlayMove]
  dsimp only
  rw [if_neg (overlay_takes_no_slot all), noFrame]

end

/-- Settles O59: the exchange, the dispatch callback and the capture in one piece, then the two moves of the router's task. -/
theorem frameExchangeIsChecked : Obligations.FrameExchangeIsChecked := by
  intro s free run
  refine ⟨fun ch len rest tape => step_exchange free run tape,
    fun k fmt room sel ready n o d bus single => ⟨fun size => ?dispatchSize, fun size fits channels => ?dispatchChannels⟩,
    fun k sel mic ext rest d bus single => ⟨fun short => ?captureShort, fun whole wholeExt => ?captureWhole⟩,
    fun site a inp bus single state loop => ?moves⟩
  case dispatchSize =>
    exact routerDispatch_violation fmt room sel ready (oneCore_of bus single) free run (drainFault_size size) (by decide)
  case dispatchChannels =>
    exact routerDispatch_violation fmt room sel ready (oneCore_of bus single) free run
      (drainFault_channels size fits channels) (by decide)
  case captureShort => exact routerCapture_violation sel rest ext (oneCore_of bus single) free run short
  case captureWhole => exact routerCapture_fits sel rest (oneCore_of bus single) run whole wholeExt
  case moves =>
    subst state
    have one := oneCore_of bus single
    refine ⟨fun n o phase processed => ⟨fun size => ?_, fun size fits channels => ?_⟩,
      fun mic taken phase all => ⟨fun short => ?_, fun whole wholeExt => ?_⟩⟩
    · exact move_router_drain_violation one loop free run phase processed (drainFault_size size) (by decide)
    · exact move_router_drain_violation one loop free run phase processed (drainFault_channels size fits channels)
        (by decide)
    · rw [move_router_overlay one loop run phase, overlayMove_violation all (assemble_violation _ _ _ short)]
      exact routerViolates_oneCore one (by decide) free run
    · have bus : feedsBus site.caps a.selection = true → (groupOfSlots taken).Fits a.whole.state.par.frameCount :=
        fun feeds => by simp [Group.Fits, groupOfSlots, all feeds]
      obtain ⟨i, frame⟩ := assemble_some (k := site.caps) a.selection whole bus wholeExt
      exact ⟨i, by rw [move_router_overlay one loop run phase, overlayMove_frame all frame]⟩

end Sys2Proof.Machine
end

section
/-! The frame buffers (45_environment.md R256): channels one after the other, each of `f` samples. -/

namespace Sys2Proof.Machine

/-- In a concatenation of channels of `f` samples each, sample `n` of channel `k` stands at `framePos f k n`. -/
theorem getElem?_flatten_framePos {chans : List (List Word)} {f n : Nat} (fits : ∀ ch ∈ chans, ch.length = f)
    (inside : n < f) (k : Nat) : chans.flatten[framePos f k n]? = chans[k]?.bind (·[n]?) := by
  induction chans generalizing k with
  | nil => rfl
  | cons ch chs ih =>
    have length : ch.length = f := fits ch List.mem_cons_self
    rw [List.flatten_cons]
    cases k with
    | zero =>
      have first : framePos f 0 n = n := by rw [framePos, Nat.zero_mul, Nat.zero_add]
      rw [first, List.getElem?_append_left (length ▸ inside)]
      rfl
    | succ k =>
      have later : framePos f (k + 1) n = ch.length + framePos f k n := by
        rw [length, framePos, framePos, Nat.succ_mul]
        omega
      rw [later, List.getElem?_append_right (Nat.le_add_right _ _), Nat.add_sub_cancel_left,
        ih (fun x hx => fits x (List.mem_cons_of_mem _ hx))]
      rfl

/-- The channels of an input frame in the order of its buffer. -/
def InputFrame.channels (i : InputFrame) : List (List Word) :=
  [i.reference.ch0, i.reference.ch1, i.mic.ch0, i.mic.ch1]

/-- The channels of an output frame in the order of its buffer. -/
def OutputFrame.channels (o : OutputFrame) : List (List Word) :=
  [o.processed.ch0, o.processed.ch1, o.reference.ch0, o.reference.ch1, o.rawMic.ch0, o.rawMic.ch1]

theorem InputFrame.buffer_eq_flatten (i : InputFrame) : i.buffer = i.channels.flatten := by
  simp [InputFrame.buffer, InputFrame.channels]

theorem OutputFrame.buffer_eq_flatten (o : OutputFrame) : o.buffer = o.channels.flatten := by
  simp [OutputFrame.buffer, OutputFrame.channels]

theorem InputFrame.length_of_mem_channels {f : Nat} {i : InputFrame} (fits : i.Fits f) :
    ∀ ch ∈ i.channels, ch.length = f := by
  obtain ⟨⟨h0, h1⟩, h2, h3⟩ := fits
  simp [InputFrame.channels, h0, h1, h2, h3]

theorem OutputFrame.length_of_mem_channels {f : Nat} {o : OutputFrame} (fits : o.Fits f) :
    ∀ ch ∈ o.channels, ch.length = f := by
  obtain ⟨⟨h0, h1⟩, ⟨h2, h3⟩, h4, h5⟩ := fits
  simp [OutputFrame.channels, h0, h1, h2, h3, h4, h5]

theorem InputFrame.buffer_length {f : Nat} {i : InputFrame} (fits : i.Fits f) : i.buffer.length = 4 * f := by
  obtain ⟨⟨h0, h1⟩, h2, h3⟩ := fits
  simp only [InputFrame.buffer, List.length_append, h0, h1, h2, h3]
  omega

theorem OutputFrame.buffer_length {f : Nat} {o : OutputFrame} (fits : o.Fits f) : o.buffer.length = 6 * f := by
  obtain ⟨⟨h0, h1⟩, ⟨h2, h3⟩, h4, h5⟩ := fits
  simp only [OutputFrame.buffer, List.length_append, h0, h1, h2, h3, h4, h5]
  omega

/-- Settles O60: a buffer is its channels one after the other, so each clause is a position in that concatenation. -/
theorem frameBufferLayout : Obligations.FrameBufferLayout := by
  intro f n o i processed reference rawMic inReference mic inside
  have fitsO : o.Fits f := ⟨processed, reference, rawMic⟩
  have fitsI : i.Fits f := ⟨inReference, mic⟩
  have atO (k : Nat) : o.buffer[framePos f k n]? = o.channels[k]?.bind (·[n]?) := by
    rw [o.buffer_eq_flatten, getElem?_flatten_framePos (OutputFrame.length_of_mem_channels fitsO) inside]
  have atI (k : Nat) : i.buffer[framePos f k n]? = i.channels[k]?.bind (·[n]?) := by
    rw [i.buffer_eq_flatten, getElem?_flatten_framePos (InputFrame.length_of_mem_channels fitsI) inside]
  exact ⟨OutputFrame.buffer_length fitsO, InputFrame.buffer_length fitsI,
    atO 0, atO 1, atO 2, atO 3, atO 4, atO 5, atI 0, atI 1, atI 2, atI 3⟩

end Sys2Proof.Machine
end

section
/-! Start-up, the wait for readiness and the sample slots in the loop (45_environment.md R265, R266, 70_reset_and_hazards.md
R322, R323, 90_conflicts.md C4), with no other agent's move between the start-up commands (log entry 17) and the moves of log
entry 25. -/

namespace Sys2Proof.Machine

/-! ### The start-up commands (R322) -/

/-- The block after `PLL.INIT`, which only an instance with the unit is given. -/
def pllStarted (s : State) : State := if s.par.pllEn then setPll (pllInitial s.par s.pll) s else s

/-- The block after start-up: initialised on a device with the bus, untouched without it (R266). -/
def started (k : Capabilities) (s : State) : State := if k.bus then pllStarted (srcInitBody s) else s

/-- Neither unit's initialisation reads or writes anything of the other's. -/
theorem srcInitBody_pllStarted (s : State) : srcInitBody (pllStarted s) = pllStarted (srcInitBody s) :=
  apply_ite srcInitBody _ _ _

@[simp] theorem pllStarted_hold (s : State) : (pllStarted s).hold = s.hold := by unfold pllStarted; split <;> rfl
@[simp] theorem pllStarted_halted (s : State) : (pllStarted s).halted = s.halted := by unfold pllStarted; split <;> rfl
@[simp] theorem pllStarted_srcReady (s : State) : (pllStarted s).srcReady = s.srcReady := by
  unfold pllStarted; split <;> rfl

theorem pllStarted_ready {s : State} (unready : s.pll.ready = false) : (pllStarted s).pll.ready = s.par.pllEn := by
  unfold pllStarted
  split
  case isTrue en => exact en.symm
  case isFalse off => rw [unready, Bool.eq_false_iff.mpr off]

theorem inv_pllStarted {s : State} (h : s.Inv) : (pllStarted s).Inv := by
  unfold pllStarted
  split
  case isTrue en => exact inv_setPll h (pllInv_pllInitial s.pll en) fun _ => rfl
  case isFalse => exact h

/-- The issue of a well-formed command by `HOT`, with more to come. -/
theorem perform_cons_wellFormed {s : State} {i : Instr} (wf : i.WellFormed) (free : s.hold = false)
    (run : s.halted = false) (es : List Event) :
    perform (wrCmd (encode i) :: es) s = andThen (exec i s) (perform es) := by
  rw [perform_cons free, handle_wrCmd, issue_legal run (decodeOfEncode i wf)]

theorem perform_srcInit {s : State} (free : s.hold = false) (run : s.halted = false) (unready : s.srcReady = false)
    (es : List Event) : perform (wrCmd (encode .srcInit) :: es) s = perform es (srcInitBody s) := by
  rw [perform_cons_wellFormed rfl free run, exec_srcInit run, if_neg (by simp [unready]), andThen_next]

theorem perform_pllInit {s : State} (free : s.hold = false) (run : s.halted = false) (unready : s.pll.ready = false)
    (es : List Event) :
    perform ((if s.par.pllEn then [wrCmd (encode .pllInit)] else []) ++ es) s = perform es (pllStarted s) := by
  unfold pllStarted
  split
  case isTrue en =>
    rw [List.singleton_append, perform_cons_wellFormed rfl free run, exec_pllInit_first run en unready, andThen_next]
  case isFalse => rfl

/-- The start-up commands complete, in either order with the same state. -/
theorem perform_startUp (k : Capabilities) (pllFirst : Bool) {s : State} (free : s.hold = false) (run : s.halted = false)
    (srcUnready : s.srcReady = false) (pllUnready : s.pll.ready = false) :
    perform (startUp k s.par pllFirst) s = .next (started k s) := by
  unfold startUp Capabilities.useBlock started
  cases k.bus with
  | false => rfl
  | true =>
    cases pllFirst with
    | true =>
      refine (perform_pllInit free run pllUnready _).trans ?_
      rw [perform_srcInit (by simpa) (by simpa) (by simpa), srcInitBody_pllStarted]
      rfl
    | false =>
      refine (perform_srcInit free run srcUnready _).trans ?_
      have pll := perform_pllInit (s := srcInitBody s) free run pllUnready []
      rwa [List.append_nil] at pll

/-- What start-up leaves from any reset draw: the units of the device ready, and the block running. -/
theorem started_powerOn (k : Capabilities) (c : Cfg) (d : ResetDraw) :
    (started k (State.powerOn c d [])).srcReady = k.bus ∧
    (started k (State.powerOn c d [])).pll.ready = (k.bus && c.par.pllEn) ∧
    (started k (State.powerOn c d [])).halted = false ∧ (started k (State.powerOn c d [])).Inv := by
  have inv := inv_powerOn c d []
  unfold started
  cases k.bus with
  | false => exact ⟨rfl, rfl, rfl, inv⟩
  | true =>
    exact ⟨pllStarted_srcReady _, pllStarted_ready rfl, pllStarted_halted _, inv_pllStarted (inv_srcInitBody inv)⟩

/-! ### Before the loop (R265, R323) -/

/-- The moves of the hot path, of the router's task and of the senders. -/
def Move.belongsToLoop : Move → Bool
  | .slot _ _ | .control | .exchange _ _ | .router _ | .sendToRouter _ | .sendToBus _ => true
  | .start _ _ | .ready | .select _ | .receiveAtBus _ | .receiveAtRouter _ | .environment _ | .arriveAtBus _
  | .arriveAtRouter _ => false

section
variable {site : Site} {a : Audio}

theorem hotRuns_early (early : a.stage ≠ .audioLoop) : a.hotRuns = false := by simp [Audio.hotRuns, early]

theorem move_early {m : Move} (early : a.stage ≠ .audioLoop) (ofLoop : m.belongsToLoop = true) :
    move site m a = .next ⟨.nothing, a⟩ := by
  have waits := hotRuns_early early
  cases m with
  | slot => simp [move, slotMove, waits]
  | control => simp [move, controlMove, waits]
  | exchange => simp [move, exchangeMove, waits]
  | router => simp [move, routerMove, early]
  | sendToRouter => simp [move, sendToRouter, early]
  | sendToBus => simp [move, sendToBus, early]
  | start | ready | select | receiveAtBus | receiveAtRouter | environment | arriveAtBus | arriveAtRouter => cases ofLoop

/-- A start of the software leaves the stage or goes on to the wait for readiness. -/
theorem startMove_stage {allocated pllFirst : Bool} {d : AudioDone} (run : startMove site allocated pllFirst a = .next d) :
    d.audio.stage = a.stage ∨ d.audio.stage = .bringUp := by
  unfold startMove at run
  dsimp only at run
  split_ifs at run
  · cases run
    exact .inl rfl
  · obtain ⟨t, -, done⟩ := andThen_eq_next run
    cases done
    exact .inr rfl
  · obtain ⟨t, -, done⟩ := andThen_eq_next run
    cases done
    exact .inl rfl

/-- An event leaves the stage, or is a hardware reset, after which the software starts again. -/
theorem environmentMove_stage {e : Event} {d : AudioDone} (run : environmentMove site e a = .next d) :
    d.audio.stage = a.stage ∨ d.audio.stage = .startUp := by
  cases e with
  | hot => cases run; exact .inl rfl
  | task | refEdge =>
    obtain ⟨t, -, done⟩ := andThen_eq_next run
    cases done
    exact .inl rfl
  | hwReset =>
    obtain ⟨t, -, done⟩ := andThen_eq_next run
    cases done
    exact .inr rfl

theorem takeAtBus_stage {expired : Bool} {d : AudioDone} (run : takeAtBus site expired a = .next d) :
    d.audio.stage = a.stage := by
  unfold takeAtBus at run
  dsimp only at run
  split at run
  · cases run
    rfl
  · split at run
    · cases run
      rfl
    · split at run
      · cases run
        rfl
      · obtain ⟨r, -, done⟩ := andThen_eq_next run
        cases done
        rfl

theorem takeAtRouter_stage (expired : Bool) : (takeAtRouter site expired a).audio.stage = a.stage := by
  unfold takeAtRouter
  dsimp only
  split_ifs
  · rfl
  · cases a.leftAtRouter <;> rfl

/-- Only the readiness signal, after start-up, begins the loop. -/
theorem ready_of_loop_begins {m : Move} {d : AudioDone} (early : a.stage ≠ .audioLoop) (run : move site m a = .next d)
    (loop : d.audio.stage = .audioLoop) : m = .ready ∧ a.stage = .bringUp := by
  have idle (same : d.audio.stage = a.stage) : m = .ready ∧ a.stage = .bringUp := absurd (same.symm.trans loop) early
  have other {x : Stage} (goes : d.audio.stage = x) (ne : x ≠ .audioLoop) : m = .ready ∧ a.stage = .bringUp :=
    absurd (goes.symm.trans loop) ne
  have silent (ofLoop : m.belongsToLoop = true) : m = .ready ∧ a.stage = .bringUp := by
    rw [move_early early ofLoop] at run
    cases run
    exact idle rfl
  cases m with
  | start => exact (startMove_stage run).elim idle fun goes => other goes nofun
  | ready =>
    refine ⟨rfl, ?_⟩
    by_contra notYet
    simp only [move, if_neg notYet] at run
    cases run
    exact early loop
  | select =>
    simp only [move, if_neg early] at run
    cases run
    exact absurd loop early
  | environment => exact (environmentMove_stage run).elim idle fun goes => other goes nofun
  | receiveAtBus => exact idle (takeAtBus_stage run)
  | receiveAtRouter =>
    cases run
    exact idle (takeAtRouter_stage _)
  | arriveAtBus | arriveAtRouter =>
    cases run
    exact idle rfl
  | slot | control | exchange | router | sendToRouter | sendToBus => exact silent rfl

/-! ### A sample slot in the loop (C4) -/

/-- The slot changes the driver's rings and the block, and none of the tasks. -/
theorem move_slot_loop {dirs : List Direction} {bus : Slot} {e : SlotDone} (loop : a.stage = .audioLoop)
    (free : a.whole.state.hold = false) (run : a.whole.state.halted = false)
    (slot : busSlot site.caps dirs site.rxRoom bus a.whole.device.driver a.whole.state = .next e) :
    move site (.slot dirs bus) a = .next
      { output := (e.out.map .onBus).getD .nothing
        audio := { a with whole := ⟨{ a.whole.device with driver := e.rings }, e.state⟩ } } := by
  have runs : a.hotRuns = true := by simp [Audio.hotRuns, loop, free]
  have device : deviceSlot site.caps dirs site.rxRoom bus a.whole =
      .next (e.out, ⟨{ a.whole.device with driver := e.rings }, e.state⟩) := by
    rw [deviceSlot, if_neg (by simp [run]), slot, andThen_next]
  show slotMove site dirs bus a = _
  rw [slotMove, if_pos runs, device, andThen_next]
  cases e.out <;> rfl

end

/-- Settles O57: start-up leaves `started`, then the moves before the loop, the signal, and the slot in the loop. -/
theorem startUpMakesTheUnitsReady : Obligations.StartUpMakesTheUnitsReady := by
  refine ⟨fun k c d => ?startUp, fun site a => ⟨fun early => ⟨?waits, fun m d => ?begins⟩, fun bringUp => ?signal,
    ?slot⟩⟩
  case startUp =>
    obtain ⟨src, pll, run, inv⟩ := started_powerOn k c d
    exact ⟨_, fun pllFirst => perform_startUp (s := State.powerOn c d []) k pllFirst rfl rfl rfl rfl,
      src, pll, run, inv, fun noBus => by rw [started, noBus, if_neg Bool.false_ne_true]⟩
  case waits =>
    intro dirs bus ch len inp expired m hm
    have ofLoop : ∀ m ∈ [Move.slot dirs bus, .control, .exchange ch len, .router inp, .sendToRouter expired,
        .sendToBus expired], m.belongsToLoop = true := by simp [Move.belongsToLoop]
    exact move_early early (ofLoop m hm)
  case begins => exact ready_of_loop_begins early
  case signal => simp only [move, if_pos bringUp]
  case slot => exact fun loop free run dirs bus e => move_slot_loop loop free run

end Sys2Proof.Machine
end

section
/-! The halted state (60_exceptions.md R286, R287) and the events that do not concern the block (R295, R203,
92_eei_decisions.md D3). -/

namespace Sys2Proof.Machine

/-! ### Commands while halted -/

/-- Settles O9: `exec_halted` for a command, and the write to `CMD` is the issue of a word, ignored while halted. -/
theorem haltedIgnoresCommands : Obligations.HaltedIgnoresCommands := by
  intro s halted
  refine ⟨fun i => exec_halted i halted, fun w rest free tape => ?_⟩
  rw [step_event free tape, handle_wrCmd, issue_halted (s := setTape rest s) w halted]
  rfl

/-! ### What is frozen while halted -/

/-- From `s` to `t` nothing of the block changed but `UPIN`, `DNIN` and the model's own fields. -/
structure OperandsOnly (s t : State) : Prop where
  halted : t.halted = s.halted
  cause : t.cause = s.cause
  pll : t.pll = s.pll
  srcReady : t.srcReady = s.srcReady
  upcnt : t.upcnt = s.upcnt
  dncnt : t.dncnt = s.dncnt
  cfg : t.cfg = s.cfg
  up : ∀ c, { t.up.get c with upin := (s.up.get c).upin } = s.up.get c
  down : ∀ c, { t.down.get c with dnin := (s.down.get c).dnin } = s.down.get c

theorem operandsOnly_refl (s : State) : OperandsOnly s s where
  halted := rfl
  cause := rfl
  pll := rfl
  srcReady := rfl
  upcnt := rfl
  dncnt := rfl
  cfg := rfl
  up _ := rfl
  down _ := rfl

theorem operandsOnly_setHotReply (v : Word) (s : State) : OperandsOnly s (setHotReply v s) :=
  { operandsOnly_refl s with }
theorem operandsOnly_setTaskReply (v : Word) (s : State) : OperandsOnly s (setTaskReply v s) :=
  { operandsOnly_refl s with }

theorem operandsOnly_setUpin (c : Chan) (v : Word) (s : State) : OperandsOnly s (setUpin c v s) := by
  rw [setUpin_eq]
  exact { operandsOnly_refl s with up := fun c' => by rw [setUpin_get]; split <;> rfl }

theorem operandsOnly_setDnin (c : Chan) (v : Word) (s : State) : OperandsOnly s (setDnin c v s) := by
  rw [setDnin_eq]
  exact { operandsOnly_refl s with down := fun c' => by rw [setDnin_get]; split <;> rfl }

/-- Taking the event off the tape is no change of the block. -/
theorem OperandsOnly.of_setTape {rest : List Event} {s t : State} (h : OperandsOnly (setTape rest s) t) :
    OperandsOnly s t := { h with }

/-- An event in a halted state: a command word is ignored, so only a register write or a reset is left (R286, R287). -/
theorem handle_halted {e : Event} {s t : State} (halted : s.halted = true) (run : handle e s = .next t) :
    OperandsOnly s t ∨ ∃ d, e = .hwReset d ∧ t = hardReset d s := by
  obtain rfl | ⟨v, rfl⟩ | ⟨v, rfl⟩ | ⟨c, v, rfl⟩ | ⟨c, v, rfl⟩ | ⟨w, issued⟩ | reset := handle_cases run
  · exact .inl (operandsOnly_refl t)
  · exact .inl (operandsOnly_setHotReply v s)
  · exact .inl (operandsOnly_setTaskReply v s)
  · exact .inl (operandsOnly_setUpin c v s)
  · exact .inl (operandsOnly_setDnin c v s)
  · rw [issue_halted w halted] at issued
    cases issued
    exact .inl (operandsOnly_refl s)
  · exact .inr reset

/-- No command is held in a halted state, so a step is idle or takes the event at the head of the tape. -/
theorem step_halted {s t : State} (inv : s.Inv) (halted : s.halted = true) (run : step s = .next t) :
    OperandsOnly s t ∨ ∃ d rest, s.tape = .hwReset d :: rest ∧ t = hardReset d (setTape rest s) := by
  have notHeld : s.hold ≠ true := fun held => by cases halted.symm.trans (inv.holds held).1
  obtain ⟨-, -, rfl⟩ | ⟨-, e, rest, tape, handled⟩ | ⟨held, -⟩ | ⟨held, -⟩ := step_cases run
  · exact .inl (operandsOnly_refl t)
  · obtain frozen | ⟨d, rfl, reset⟩ := handle_halted (s := setTape rest s) halted handled
    · exact .inl frozen.of_setTape
    · exact .inr ⟨d, rest, tape, reset⟩
  · exact absurd held notHeld
  · exact absurd held notHeld

/-- Settles O10: `step_halted`, with `HALTED` as it was. -/
theorem haltedStateIsFrozen : Obligations.HaltedStateIsFrozen := by
  intro s t inv halted run
  obtain frozen | reset := step_halted inv halted run
  · exact .inr ⟨frozen.halted.trans halted, frozen.cause, frozen.pll, frozen.srcReady, frozen.upcnt, frozen.dncnt,
      frozen.cfg, fun c => ⟨frozen.up c, frozen.down c⟩⟩
  · exact .inl reset

/-! ### Events that do not concern the block -/

/-- An access that ends before the window or begins after it does not touch it (R70, D3). -/
theorem not_touches {p : Params} {addr size : Nat} (op : BusOp) (outside : addr + size ≤ p.base ∨ p.base + 256 ≤ addr)
    (nonempty : 1 ≤ size) : Access.touches ⟨(addr : Int) - p.base, size, op⟩ = false := by
  simp only [Access.touches, decide_eq_false_iff_not]
  omega

/-- An access that does not touch the window passes the block by, whoever would serve it. -/
theorem busAccess_outside {a : Access} (s : State) (serve : Nat → BusOp → State → Host.Outcome State Fault Refusal)
    (outside : a.touches = false) : busAccess a s serve = .next s := by rw [busAccess, outside]; rfl

theorem step_hot_outside {a : Access} {s : State} {rest : List Event} (outside : a.touches = false)
    (meets : s.Meets (.hot a) rest) : step s = .next (setTape rest s) := by
  rw [step_meets meets (by simp), handle, busAccess_outside _ _ outside]

theorem step_task_outside {a : Access} {stale : Bool} {s : State} {rest : List Event} (outside : a.touches = false)
    (meets : s.Meets (.task a stale) rest) : step s = .next (setTape rest s) := by
  rw [step_meets meets (by simp), handle, busAccess_outside _ _ outside]

/-- Settles O54: the idle step, the unawaited edge, and accesses outside the window, held or not. -/
theorem unconcernedEventsChangeNothing : Obligations.UnconcernedEventsChangeNothing := by
  refine fun s rest => ⟨step_idle, fun r f free tape => step_event free tape, ?outsideWindow⟩
  case outsideWindow =>
    intro addr size v stale outside nonempty meets
    have read := not_touches .read outside nonempty
    have write := not_touches (.write v) outside nonempty
    obtain meets | meets | meets | meets := meets
    · exact step_hot_outside read meets
    · exact step_hot_outside write meets
    · exact step_task_outside read meets
    · exact step_task_outside write meets

end Sys2Proof.Machine
end
